-- ==== Sys2Proof/Word.lean ====
section
/-! DEFINITION. The machine's words: 32-bit registers and addresses (spec 00 R5, R6; 10 R20), 16-bit compressed
instructions (30 R90), 8-bit bytes as the unit of addressing (20 R62). `+` and `-` on them wrap modulo 2^32 (40 R141). -/

namespace Sys2Proof

/-- A register, an address, a primary-set instruction: 32 bits. -/
abbrev Word := BitVec 32

/-- A compressed-set instruction: 16 bits. -/
abbrev Half := BitVec 16

/-- The unit of addressing (20 R62). -/
abbrev Byte := BitVec 8

end Sys2Proof
end

