-- ==== Sys2Proof/Config.lean ====
section
/-! DEFINITION. What the spec leaves to the implementation (00 R5 and the parameter table of 92). `ENTRY` is `Config.entry`,
`REFUSE_COND_NV` is a Boolean of the machine's parameters with its default here. `INIT` is the state that reset starts from
(`State.powerOn` in Machine/State.lean); `EXT_HANDLER` and `STOP` speak of states and
stand in Machine/External.lean and Machine/Cycle.lean.
No free value is needed: 93 part 1 leaves no result of an executed instruction open. -/

namespace Sys2Proof

/-- `ENTRY`, the argument of reset that `State.reset` uses. DESIGN CHOICE, log 7: the spec leaves it open (70 R291). -/
def Config.entry : Word := 0#32

/-- The default of `REFUSE_COND_NV` (00 R5, D21): words with condition field 0b1111 are decoded like any other. -/
def Config.refuseCondNv : Bool := false

/-- What a byte of memory that nothing has written reads as, the ONE place that says so. DESIGN CHOICE, log 2. -/
def Config.unlistedByte : Byte := 0#8

/-- The value of every register and PSR bit that reset leaves unspecified (70 R293). DESIGN CHOICE, log 4 to 6. -/
def Config.initWord : Word := 0#32

end Sys2Proof
end

