-- ==== Sys2Proof/Syntax.lean ====
section
/-! DEFINITION. The instruction descriptors of 30 R91: one constructor per row of the opcode table, each carrying only the
fields its form uses. The two reserved rows of the table (30 R103, R106) have a constructor too, log 11. -/

namespace Sys2Proof

/-- The two instruction sets (30 R90); `CPSR.T` selects between them. -/
inductive InstrSet where
  /-- 32-bit instructions, `T = 0` -/
  | primary
  /-- 16-bit instructions, `T = 1` -/
  | compressed
  deriving DecidableEq, Repr

/-- The sixteen condition codes, in the document's order (40 R130). -/
inductive Cond where
  | eq | ne | cs | cc | mi | pl | vs | vc | hi | ls | ge | lt | gt | le | al
  /-- 0b1111, "the reserved/always-true code" (40 R131) -/
  | nv
  deriving DecidableEq, Repr

/-- A visible register number, `x[0]` to `x[15]` (10 R20). -/
abbrev RegIdx := Fin 16

/-- The fields the five block transfers share (30 R95, R102). -/
structure BlockOp where
  /-- pre/post-index bit: true is pre-index -/
  p : Bool
  /-- up/down bit: true is ascending -/
  u : Bool
  /-- writeback bit -/
  w : Bool
  /-- base register -/
  rn : RegIdx
  /-- register list: bit `i` selects register `i` -/
  list : BitVec 16
  deriving DecidableEq, Repr

/-- The instruction descriptors (30 R91). -/
inductive Instr where
  /-- BX, R180 -/
  | bx (cond : Cond) (rm : RegIdx)
  /-- BLX_REG, R181 -/
  | blxReg (cond : Cond) (rm : RegIdx)
  /-- B, R160 -/
  | b (cond : Cond) (imm24 : BitVec 24)
  /-- BL, R161 -/
  | bl (cond : Cond) (imm24 : BitVec 24)
  /-- LDM, R201 -/
  | ldm (cond : Cond) (op : BlockOp)
  /-- LDM_USER, R202 -/
  | ldmUser (cond : Cond) (op : BlockOp)
  /-- LDM_RET, R203 -/
  | ldmRet (cond : Cond) (op : BlockOp)
  /-- STM, R204 -/
  | stm (cond : Cond) (op : BlockOp)
  /-- STM_USER, R205 -/
  | stmUser (cond : Cond) (op : BlockOp)
  /-- the reserved row T_RESERVED_COND14, R106: decodes to no descriptor -/
  | tReservedCond14 (low : BitVec 8)
  /-- the reserved row T_RESERVED_COND15, R106: decodes to no descriptor -/
  | tReservedCond15 (low : BitVec 8)
  /-- T_BCC, R163 -/
  | tBcc (cond : Cond) (imm8 : BitVec 8)
  /-- T_B, R162 -/
  | tB (imm11 : BitVec 11)
  /-- T_BL_HI, R164 -/
  | tBlHi (imm11 : BitVec 11)
  /-- T_BL_LO, R165 -/
  | tBlLo (imm11 : BitVec 11)
  /-- T_BX, R182 -/
  | tBx (rm : RegIdx)
  /-- T_BLX_REG, R183 -/
  | tBlxReg (rm : RegIdx)
  deriving DecidableEq, Repr

/-- The set an instruction belongs to (30 R91). -/
def Instr.instrSet : Instr → InstrSet
  | .bx _ _ | .blxReg _ _ | .b _ _ | .bl _ _ => .primary
  | .ldm _ _ | .ldmUser _ _ | .ldmRet _ _ | .stm _ _ | .stmUser _ _ => .primary
  | .tReservedCond14 _ | .tReservedCond15 _ | .tBcc _ _ | .tB _ | .tBlHi _ | .tBlLo _ | .tBx _ | .tBlxReg _ => .compressed

/-- The condition an instruction carries: none where its form has no condition field (30 R91). -/
def Instr.cond? : Instr → Option Cond
  | .bx c _ | .blxReg c _ | .b c _ | .bl c _ | .tBcc c _ => some c
  | .ldm c _ | .ldmUser c _ | .ldmRet c _ | .stm c _ | .stmUser c _ => some c
  | .tReservedCond14 _ | .tReservedCond15 _ | .tB _ | .tBlHi _ | .tBlLo _ | .tBx _ | .tBlxReg _ => none

/-- A primary-set descriptor whose condition field is 0b1111: what `REFUSE_COND_NV` refuses (00 R5, 30 R105). -/
def Instr.condNv (i : Instr) : Bool := i.instrSet == .primary && i.cond? == some .nv

/-- The two reserved rows, which are not instructions (30 R103). -/
def Instr.reserved : Instr → Bool
  | .tReservedCond14 _ | .tReservedCond15 _ => true
  | .bx _ _ | .blxReg _ _ | .b _ _ | .bl _ _ => false
  | .ldm _ _ | .ldmUser _ _ | .ldmRet _ _ | .stm _ _ | .stmUser _ _ => false
  | .tBcc _ _ | .tB _ | .tBlHi _ | .tBlLo _ | .tBx _ | .tBlxReg _ => false

end Sys2Proof
end

