-- ==== Sys2Proof/WellFormed.lean ====
section
/-! DEFINITION. Which descriptors the decoder contract can produce (30 R91, R97, R112; 93 U28). A descriptor that fails the
check is "ill-formed, not an input of the model"; its meaning is the refusal `illFormed` (log 12). -/

namespace Sys2Proof

/-- `LDM_USER` has `list[15] = 0`, `LDM_RET` has `list[15] = 1`, `T_BCC` has a condition 0 to 13; a register field
above 15 cannot be written (its type is `Fin 16`). -/
def Instr.wellFormed : Instr → Bool
  | .ldmUser _ op => !op.list.getLsbD 15
  | .ldmRet _ op => op.list.getLsbD 15
  | .tBcc c _ => c != .al && c != .nv
  | .bx _ _ | .blxReg _ _ | .b _ _ | .bl _ _ | .ldm _ _ | .stm _ _ | .stmUser _ _ => true
  | .tReservedCond14 _ | .tReservedCond15 _ | .tB _ | .tBlHi _ | .tBlLo _ | .tBx _ | .tBlxReg _ => true

end Sys2Proof
end

