-- ==== Sys2Proof/Decode.lean ====
section
/-! DEFINITION. The decoder contract (30 R92 to R99, R103 to R107, R112), total on any bytes and rejecting by name, and after
it the encoder written from the same formats. Field positions are the spec's own decision D9 (log 17). -/

namespace Sys2Proof

/-- Why a value gives no descriptor. The first is the model's own (a byte list shorter than the instruction); the others are
the spec's `Unknown` (30 R104). -/
inductive Reject where
  /-- fewer bytes than the set's width; the fetch never makes such a list -/
  | truncated
  /-- condition field 0b1111 with `REFUSE_COND_NV` set (30 R105) -/
  | condNvRefused
  /-- a primary-set value outside formats PX, PB and PM (30 R103, R104, R107) -/
  | unknownPrimary
  /-- a compressed-set value outside formats TC, TB, TL and TX (30 R98, R103, R104, R107) -/
  | unknownCompressed
  deriving DecidableEq, Repr

/-- The condition a 4-bit code names (40 R130). -/
def condOfBits (c : BitVec 4) : Cond :=
  match c.toNat with
  | 0 => .eq | 1 => .ne | 2 => .cs | 3 => .cc | 4 => .mi | 5 => .pl | 6 => .vs | 7 => .vc
  | 8 => .hi | 9 => .ls | 10 => .ge | 11 => .lt | 12 => .gt | 13 => .le | 14 => .al | _ => .nv

/-- The 4-bit code of a condition (40 R130). -/
def condBits : Cond → BitVec 4
  | .eq => 0 | .ne => 1 | .cs => 2 | .cc => 3 | .mi => 4 | .pl => 5 | .vs => 6 | .vc => 7
  | .hi => 8 | .ls => 9 | .ge => 10 | .lt => 11 | .gt => 12 | .le => 13 | .al => 14 | .nv => 15

/-- The fields of format PM (30 R95): `P` 24, `U` 23, `W` 21, `Rn` 19:16, `list` 15:0. -/
def blockFields (raw : Word) : BlockOp :=
  { p := raw.getLsbD 24, u := raw.getLsbD 23, w := raw.getLsbD 21,
    rn := (raw.extractLsb' 16 4).toFin, list := raw.extractLsb' 0 16 }

/-- Format PM, `L` 20 and `S` 22, with the tag selection of 30 R112. -/
def decodeBlock (c : Cond) (raw : Word) : Instr :=
  match raw.getLsbD 20, raw.getLsbD 22 with
  | true, false => .ldm c (blockFields raw)
  | true, true => if raw.getLsbD 15 then .ldmRet c (blockFields raw) else .ldmUser c (blockFields raw)
  | false, false => .stm c (blockFields raw)
  | false, true => .stmUser c (blockFields raw)

/-- `Decode(0, raw)` (30 R103): formats PX (R94), PB (R93), PM (R95); the should-be-one bits 19:8 are matched (R107). -/
def decodePrimary (refuseCondNv : Bool) (raw : Word) : Except Reject Instr :=
  let c := condOfBits (raw.extractLsb' 28 4)
  if refuseCondNv && c == .nv then .error .condNvRefused
  else if raw.extractLsb' 4 24 = 0x12FFF1#24 then .ok (.bx c (raw.extractLsb' 0 4).toFin)
  else if raw.extractLsb' 4 24 = 0x12FFF3#24 then .ok (.blxReg c (raw.extractLsb' 0 4).toFin)
  else if raw.extractLsb' 24 4 = 0b1010#4 then .ok (.b c (raw.extractLsb' 0 24))
  else if raw.extractLsb' 24 4 = 0b1011#4 then .ok (.bl c (raw.extractLsb' 0 24))
  else if raw.extractLsb' 25 3 = 0b100#3 then .ok (decodeBlock c raw)
  else .error .unknownPrimary

/-- `Decode(1, raw)` (30 R103): the two reserved patterns (R106) first, then formats TC (R97), TB (R96), TL (R98), TX (R99). -/
def decodeCompressed (raw : Half) : Except Reject Instr :=
  if raw.extractLsb' 8 8 = 0xDE#8 then .ok (.tReservedCond14 (raw.extractLsb' 0 8))
  else if raw.extractLsb' 8 8 = 0xDF#8 then .ok (.tReservedCond15 (raw.extractLsb' 0 8))
  else if raw.extractLsb' 12 4 = 0b1101#4 then .ok (.tBcc (condOfBits (raw.extractLsb' 8 4)) (raw.extractLsb' 0 8))
  else if raw.extractLsb' 11 5 = 0b11100#5 then .ok (.tB (raw.extractLsb' 0 11))
  else if raw.extractLsb' 11 5 = 0b11110#5 then .ok (.tBlHi (raw.extractLsb' 0 11))
  else if raw.extractLsb' 11 5 = 0b11111#5 then .ok (.tBlLo (raw.extractLsb' 0 11))
  else if raw.extractLsb' 7 9 = 0b010001110#9 ∧ raw.extractLsb' 0 3 = 0#3 then .ok (.tBx (raw.extractLsb' 3 4).toFin)
  else if raw.extractLsb' 7 9 = 0b010001111#9 ∧ raw.extractLsb' 0 3 = 0#3 then .ok (.tBlxReg (raw.extractLsb' 3 4).toFin)
  else .error .unknownCompressed

/-- One fetched or encoded instruction: its value, of the width of its set. -/
inductive Code where
  | word (raw : Word)
  | half (raw : Half)
  deriving DecidableEq, Repr

/-- The set a value belongs to, by its width (30 R109). -/
def codeSet : Code → InstrSet
  | .word _ => .primary
  | .half _ => .compressed

/-- The value as a number zero-extended to 32 bits (00 R7 `zext_32`): what an external handler is given (44 R246). -/
def codeRaw : Code → Word
  | .word raw => raw
  | .half raw => raw.setWidth 32

/-- `Decode(T, raw)` of 30 R92, on a value whose width says its set. -/
def decodeCode (refuseCondNv : Bool) : Code → Except Reject Instr
  | .word raw => decodePrimary refuseCondNv raw
  | .half raw => decodeCompressed raw

/-- A decoder function, the block's own input (44 R248, 00 R11): the descriptor of a value, none for `Unknown`. -/
abbrev Decoder := Code → Option Instr

/-- The decoder contract of this spec as such a function (30 R92). `REFUSE_COND_NV` and the reserved rows, which are no
descriptors, are taken out where its answers are read (`describe` in Machine/Cycle.lean). -/
def specDecoder : Decoder := fun code =>
  match decodeCode false code with
  | .ok i => some i
  | .error _ => none

/-- The little-endian value of bytes at rising addresses (20 R79). -/
def wordOfBytes (b0 b1 b2 b3 : Byte) : Word := b3 ++ b2 ++ b1 ++ b0

/-- The little-endian value of two bytes (20 R79). -/
def halfOfBytes (b0 b1 : Byte) : Half := b1 ++ b0

/-- The bytes of a value, lowest address first (20 R79). -/
def codeBytes : Code → List Byte
  | .word raw => [raw.extractLsb' 0 8, raw.extractLsb' 8 8, raw.extractLsb' 16 8, raw.extractLsb' 24 8]
  | .half raw => [raw.extractLsb' 0 8, raw.extractLsb' 8 8]

/-- The decoder on bytes: the set fixes the length (30 R109); answers the instruction and the bytes after it. -/
def decodeBytes (refuseCondNv : Bool) : InstrSet → List Byte → Except Reject (Instr × List Byte)
  | .primary, b0 :: b1 :: b2 :: b3 :: rest =>
    match decodePrimary refuseCondNv (wordOfBytes b0 b1 b2 b3) with
    | .ok i => .ok (i, rest)
    | .error r => .error r
  | .compressed, b0 :: b1 :: rest =>
    match decodeCompressed (halfOfBytes b0 b1) with
    | .ok i => .ok (i, rest)
    | .error r => .error r
  | .primary, _ => .error .truncated
  | .compressed, _ => .error .truncated

/-- One bit as a field. -/
def bitField (b : Bool) : BitVec 1 := BitVec.ofBool b

/-- Format PM (30 R95) with the bits `S` 22 and `L` 20 of 30 R112. -/
def encodeBlock (c : Cond) (s l : Bool) (op : BlockOp) : Word :=
  condBits c ++ 0b100#3 ++ bitField op.p ++ bitField op.u ++ bitField s ++ bitField op.w ++ bitField l ++
    BitVec.ofFin (w := 4) op.rn ++ op.list

/-- The value of an instruction, from the formats of 30 R93 to R99 and R112. -/
def encode : Instr → Code
  | .bx c rm => .word (condBits c ++ 0x12FFF1#24 ++ BitVec.ofFin (w := 4) rm)
  | .blxReg c rm => .word (condBits c ++ 0x12FFF3#24 ++ BitVec.ofFin (w := 4) rm)
  | .b c imm24 => .word (condBits c ++ 0b1010#4 ++ imm24)
  | .bl c imm24 => .word (condBits c ++ 0b1011#4 ++ imm24)
  | .ldm c op => .word (encodeBlock c false true op)
  | .ldmUser c op => .word (encodeBlock c true true op)
  | .ldmRet c op => .word (encodeBlock c true true op)
  | .stm c op => .word (encodeBlock c false false op)
  | .stmUser c op => .word (encodeBlock c true false op)
  | .tReservedCond14 low => .half (0xDE#8 ++ low)
  | .tReservedCond15 low => .half (0xDF#8 ++ low)
  | .tBcc c imm8 => .half (0b1101#4 ++ condBits c ++ imm8)
  | .tB imm11 => .half (0b11100#5 ++ imm11)
  | .tBlHi imm11 => .half (0b11110#5 ++ imm11)
  | .tBlLo imm11 => .half (0b11111#5 ++ imm11)
  | .tBx rm => .half (0b010001110#9 ++ BitVec.ofFin (w := 4) rm ++ 0#3)
  | .tBlxReg rm => .half (0b010001111#9 ++ BitVec.ofFin (w := 4) rm ++ 0#3)

/-- The value that an opcode-table row's bits `w` stand for: a row of 16 bits is of the compressed set, one of 32 of the
primary set (the table's key `width`). -/
def tableCode (nbits w : Nat) : Code :=
  if nbits ≤ 16 then .half (BitVec.ofNat 16 w) else .word (BitVec.ofNat 32 w)

/-- What the decoder reads from a table row's bits, laid out as the hardware stores them (log 8). -/
def decodeTableWord (nbits w : Nat) : Option Instr :=
  let code := tableCode nbits w
  match decodeBytes Config.refuseCondNv (codeSet code) (codeBytes code) with
  | .ok (i, _) => some i
  | .error _ => none

/-- The opcode table's own `match` and `mask` of an instruction's row (spec/opcode_table.json), for comparison with the
field tests above. -/
def tableRow : Instr → Word × Word
  | .bx _ _ => (0x012FFF10, 0x0FFFFFF0)
  | .blxReg _ _ => (0x012FFF30, 0x0FFFFFF0)
  | .b _ _ => (0x0A000000, 0x0F000000)
  | .bl _ _ => (0x0B000000, 0x0F000000)
  | .ldm _ _ => (0x08100000, 0x0E500000)
  | .ldmUser _ _ => (0x08500000, 0x0E508000)
  | .ldmRet _ _ => (0x08508000, 0x0E508000)
  | .stm _ _ => (0x08000000, 0x0E500000)
  | .stmUser _ _ => (0x08400000, 0x0E500000)
  | .tReservedCond14 _ => (0xDE00, 0xFF00)
  | .tReservedCond15 _ => (0xDF00, 0xFF00)
  | .tBcc _ _ => (0xD000, 0xF000)
  | .tB _ => (0xE000, 0xF800)
  | .tBlHi _ => (0xF000, 0xF800)
  | .tBlLo _ => (0xF800, 0xF800)
  | .tBx _ => (0x4700, 0xFF87)
  | .tBlxReg _ => (0x4780, 0xFF87)

end Sys2Proof
end

