-- ==== Sys2Proof/Machine/State.lean ====
section
/-! DEFINITION. The state of the core (10_state.md, opening tuple), the fatal causes, the refusals, what a handler answers,
and the state after reset (70 R290). Memory is the external memory unit's (20 R78); the model holds it here (log 1). -/

namespace Sys2Proof.Machine

/-- The fatal causes (60 R261). Each ends the run (60 R260, R262); a stop is safe in the sense of the assumption log. -/
inductive Fault where
  /-- 1. Raised by the dispatcher on a value with no descriptor that no external handler takes (44 R244). Safe. -/
  | unknownTag
  /-- 2. The document's "unimplemented instruction-set feature": no trigger of its own (60 R261); only an external handler
  can raise it. Safe. -/
  | unimplementedFeature
  /-- 3. Raised by the bank swap of an exception return whose SPSR entry holds a reserved mode (40 R134). Safe. -/
  | badMode
  /-- 4. Raised by any memory access the memory unit does not admit (20 R71). Safe. -/
  | memoryFault
  /-- 5. Raised by the step on a fetch address not aligned to the set's width (20 R64). Safe. -/
  | misalignedFetch
  /-- 6. Raised by a block transfer's access at an address that is no multiple of 4 (20 R65). Safe. -/
  | misalignedData
  /-- 7. Raised by the exception-return load in a mode without an SPSR entry (43 R203). Safe. -/
  | noSpsr
  /-- 8. Raised by a block transfer with base register 15 or an empty list (43 R207). Safe. -/
  | unpredictableForm
  deriving DecidableEq, Repr

/-- Why the model gives no meaning. -/
inductive Refusal where
  /-- Raised by an arm of `exec` that has no meaning yet (none in this model). Safe. -/
  | notModelled (mnemonic : String)
  /-- Raised by `exec` on a hand-built descriptor the decoder contract cannot produce: `LDM_USER` with `list[15] = 1`,
  `LDM_RET` with `list[15] = 0`, `T_BCC` with condition 14 or 15 (93 U28: "refuse"). Safe. -/
  | illFormed
  deriving DecidableEq, Repr

/-- The six register banks (10 R22, R24). -/
inductive Bank where
  | usr | fiq | irq | svc | abt | und
  deriving DecidableEq, Repr

/-- The seven modes (10 R33). -/
inductive Mode where
  | user | fiq | irq | supervisor | abort | undefined | system
  deriving DecidableEq, Repr

/-- A physical register `P[0]` to `P[30]` (10 R22). The model's numbering (log 15): 0 to 15 are `r0_usr` to `r15_usr`,
16 to 22 `r8_fiq` to `r14_fiq`, then `r13` and `r14` of irq (23, 24), svc (25, 26), abt (27, 28) and und (29, 30). -/
abbrev PhysReg := Fin 31

/-- A range of byte addresses, as natural numbers: `base` to `base + size - 1`. -/
structure AddrRange where
  base : Nat
  size : Nat
  deriving DecidableEq, Repr

/-- The memory unit's bytes: addresses strictly rising, no entry equal to `Config.unlistedByte` (log 2). -/
abbrev Memory := List Host.Cell

/-- The state of one core, with the memory unit's contents. -/
structure State where
  /-- `P[0..30]` (10 R22) -/
  regs : Vector Word 31
  /-- the register-bank selector (10 R24) -/
  bankSel : Bank
  /-- the current program status register (10 R31, R32) -/
  cpsr : Word
  /-- `SPSR[0..4]` (10 R36) -/
  spsr : Vector Word 5
  /-- none, or the fatal cause that ended the run (10 R39) -/
  halted : Option Fault
  /-- the bytes of the external memory unit (20 R78, log 1) -/
  mem : Memory
  /-- the addresses the memory unit answers with a fault (20 R71, 93 U6, log 3) -/
  unadmitted : List AddrRange
  deriving DecidableEq, Repr

/-- The execution status, "the only channel through which a handler tells the dispatcher whether to perform the default
program-counter advance" (10 R38). -/
inductive Status where
  | continues
  | branched
  deriving DecidableEq, Repr

/-- What a line of a rule leads to: a value and a state to go on from, or a fatal stop with the state as the lines before
it left it (60 R260, R270). -/
inductive Res (α : Type) where
  | ok (a : α) (s : State)
  | stop (c : Fault) (s : State)
  deriving DecidableEq, Repr

/-- `Reset(entry)` (70 R290) on a state that supplies `INIT`, every value reset leaves unspecified (70 R293):
`CPSR[7:0] = 0xD3` is `I = F = 1`, `T = 0`, `M = 0b10011`. `INIT` supplies no mode here: whatever mode it holds is replaced
by Supervisor. DESIGN CHOICE, log 22: a launch state of another mode (60 R269, R272) is a `State` given as it is. -/
def State.launch (entry : Word) (init : State) : State :=
  { init with
    regs := init.regs.set 15 (entry + 8#32)
    cpsr := init.cpsr.extractLsb' 8 24 ++ 0xD3#8
    bankSel := .svc
    halted := none }

/-- The `INIT` of `State.reset`: every register, PSR and memory byte zero, every address admitted.
DESIGN CHOICE, log 2 to 6. -/
def State.powerOn : State :=
  { regs := Vector.replicate 31 Config.initWord
    bankSel := .svc
    cpsr := Config.initWord
    spsr := Vector.replicate 5 Config.initWord
    halted := none
    mem := []
    unadmitted := [] }

/-- The machine right after reset (70 R290, 10 R41), with `ENTRY` and `INIT` as the log names them. -/
def State.reset : State := State.launch Config.entry State.powerOn

end Sys2Proof.Machine
end

