-- ==== Sys2Proof/Machine/Flags.lean ====
section
/-! DEFINITION. The program status register's fields (10 R32) and the condition evaluator (40 R130). No instruction of the
block computes a flag (10 R34); the positions of the fields are the spec's decision D1. -/

namespace Sys2Proof.Machine

/-- `M`, bits 4:0. -/
def psrMode (w : Word) : BitVec 5 := w.extractLsb' 0 5
/-- `T`, bit 5. -/
def psrT (w : Word) : Bool := w.getLsbD 5
/-- `F`, bit 6. -/
def psrF (w : Word) : Bool := w.getLsbD 6
/-- `I`, bit 7. -/
def psrI (w : Word) : Bool := w.getLsbD 7
/-- `V`, bit 28. -/
def psrV (w : Word) : Bool := w.getLsbD 28
/-- `C`, bit 29. -/
def psrC (w : Word) : Bool := w.getLsbD 29
/-- `Z`, bit 30. -/
def psrZ (w : Word) : Bool := w.getLsbD 30
/-- `N`, bit 31. -/
def psrN (w : Word) : Bool := w.getLsbD 31

/-- The word with `T` written and every other bit kept. -/
def psrSetT (w : Word) (t : Bool) : Word := if t then w ||| 0x20#32 else w &&& ~~~0x20#32

/-- The condition table of 40 R130 on the four flags; "no side effects". -/
def condHolds (n z c v : Bool) : Cond → Bool
  | .eq => z
  | .ne => !z
  | .cs => c
  | .cc => !c
  | .mi => n
  | .pl => !n
  | .vs => v
  | .vc => !v
  | .hi => c && !z
  | .ls => !c || z
  | .ge => n == v
  | .lt => n != v
  | .gt => !z && n == v
  | .le => z || n != v
  | .al => true
  | .nv => true

/-- `CondPassed(c)` on a program status word (40 R130). -/
def condPassed (w : Word) (c : Cond) : Bool := condHolds (psrN w) (psrZ w) (psrC w) (psrV w) c

end Sys2Proof.Machine
end

