-- ==== Sys2Proof/Machine/Operands.lean ====
section
/-! DEFINITION. What instructions compute from their fields: branch displacements (30 R100, R101), the branch-exchange
target (42 R180), link values (41 R161, R165), the register list (30 R102) and the block-transfer addresses (40 R136). -/

namespace Sys2Proof.Machine

/-- `sext_32(imm24 : 0b00, 26)` (30 R100). -/
def offset24 (imm24 : BitVec 24) : Word := (imm24 ++ 0#2).signExtend 32

/-- `sext_32(imm11 : 0b0, 12)`, the displacement of `T_B` (30 R101). -/
def offset11 (imm11 : BitVec 11) : Word := (imm11 ++ 0#1).signExtend 32

/-- `sext_32(imm8 : 0b0, 9)`, the displacement of `T_BCC` (30 R101). -/
def offset8 (imm8 : BitVec 8) : Word := (imm8 ++ 0#1).signExtend 32

/-- `sext_32(imm11, 11) << 12`, the first half of the compressed branch with link (30 R101). -/
def offsetHi (imm11 : BitVec 11) : Word := imm11.signExtend 32 <<< 12

/-- `zext_32(imm11) << 1`, the second half (30 R101). -/
def offsetLo (imm11 : BitVec 11) : Word := imm11.setWidth 32 <<< 1

/-- `v & 0xFFFFFFFE`: the branch target with the low bit cleared (42 R180, 43 R201). -/
def clearBit0 (v : Word) : Word := v &&& 0xFFFFFFFE#32

/-- The link value in the primary set (41 R161): the next instruction's address, bit 0 not forced. -/
def linkPrimary (pcView : Word) : Word := pcView - 4#32

/-- The link value in the compressed set (41 R165): the next instruction's address "with the low bit forced to 1". -/
def linkCompressed (pcView : Word) : Word := (pcView - 2#32) ||| 1#32

/-- The sixteen register numbers in ascending order. -/
def allRegs : List RegIdx := [0, 1, 2, 3, 4, 5, 6, 7, 8, 9, 10, 11, 12, 13, 14, 15]

/-- The registers a list selects, ascending (30 R102). -/
def selectedRegs (list : BitVec 16) : List RegIdx := allRegs.filter fun i => list.getLsbD i.val

/-- The selected registers 0 to 14, the range of the load loops (43 R201 to R203). -/
def selectedLow (list : BitVec 16) : List RegIdx := (selectedRegs list).filter fun i => decide (i.val < 15)

/-- `popcount(list)` (30 R102, 40 R137). -/
def popcount (list : BitVec 16) : Nat := (selectedRegs list).length

/-- `4n` on 32 bits (40 R142). -/
def fourTimes (n : Nat) : Word := BitVec.ofNat 32 (4 * n)

/-- `Resolve(base, n, P, U)` (40 R136): the transfer's start address and the writeback address. -/
def resolve (base : Word) (n : Nat) (p u : Bool) : Word × Word :=
  match p, u with
  | false, true => (base, base + fourTimes n)
  | true, true => (base + 4#32, base + fourTimes n)
  | false, false => (base - fourTimes n + 4#32, base - fourTimes n)
  | true, false => (base - fourTimes n, base - fourTimes n)

end Sys2Proof.Machine
end

