-- ==== Sys2Proof/Machine/Ops.lean ====
section
/-! DEFINITION. The named operations every meaning is written over: registers through the bank selection (10 R25), the bank
swap (40 R133), the branch primitive (40 R138), memory and the port (20 R61 to R79), the fatal stop (60 R260), the skip rule
(40 R132), the block-transfer loops (43 R200 to R205), the exception return (43 R203) and the program-counter update (44 R243).
The block takes no exception into the guest (60 R264, R269): its one error channel is the fatal stop. -/

namespace Sys2Proof.Machine

/-! ### Results -/

/-- The next line of a rule runs on what the line before left; a stop ends the rule (60 R260). -/
def Res.bind {α β : Type} (r : Res α) (f : α → State → Res β) : Res β :=
  match r with
  | .ok a s => f a s
  | .stop c s => .stop c s

/-! ### Registers -/

/-- `Phys(bank, i)` (10 R25), in the numbering of `PhysReg`. -/
def phys (b : Bank) (i : RegIdx) : PhysReg :=
  if i.val ≤ 7 ∨ i.val = 15 then Fin.ofNat 31 i.val
  else if i.val ≤ 12 then
    match b with
    | .fiq => Fin.ofNat 31 (i.val + 8)
    | .usr | .irq | .svc | .abt | .und => Fin.ofNat 31 i.val
  else
    match b with
    | .usr => Fin.ofNat 31 i.val
    | .fiq => Fin.ofNat 31 (i.val + 8)
    | .irq => Fin.ofNat 31 (i.val + 10)
    | .svc => Fin.ofNat 31 (i.val + 12)
    | .abt => Fin.ofNat 31 (i.val + 14)
    | .und => Fin.ofNat 31 (i.val + 16)

/-- A physical register's value. -/
def State.physReg (s : State) (p : PhysReg) : Word := s.regs[p.val]

/-- The state with one physical register written. -/
def State.setPhys (s : State) (p : PhysReg) (v : Word) : State := { s with regs := s.regs.set p.val v }

/-- The copy of register `i` that a bank selection sees. -/
def State.bankReg (s : State) (b : Bank) (i : RegIdx) : Word := s.physReg (phys b i)

/-- `x[i]`, read through the current bank selection (00 R7, 10 R25). -/
def State.reg (s : State) (i : RegIdx) : Word := s.physReg (phys s.bankSel i)

/-- `x[i] <- v` (00 R7, 10 R25). -/
def State.setReg (s : State) (i : RegIdx) (v : Word) : State := s.setPhys (phys s.bankSel i) v

/-! ### Modes, banks and the program status registers -/

/-- The mode a 5-bit value encodes, none where it is reserved (10 R33). -/
def modeOfBits (m : BitVec 5) : Option Mode :=
  match m.toNat with
  | 0b10000 => some .user
  | 0b10001 => some .fiq
  | 0b10010 => some .irq
  | 0b10011 => some .supervisor
  | 0b10111 => some .abort
  | 0b11011 => some .undefined
  | 0b11111 => some .system
  | _ => none

/-- The bank column of 10 R33. -/
def bankOfMode : Mode → Bank
  | .user => .usr
  | .fiq => .fiq
  | .irq => .irq
  | .supervisor => .svc
  | .abort => .abt
  | .undefined => .und
  | .system => .usr

/-- The SPSR index column of 10 R33. -/
def spsrOfMode : Mode → Option (Fin 5)
  | .user => none
  | .fiq => some 0
  | .irq => some 1
  | .supervisor => some 2
  | .abort => some 3
  | .undefined => some 4
  | .system => none

/-- `BankOf(m)` (10 R23). -/
def bankOf (m : BitVec 5) : Option Bank := (modeOfBits m).map bankOfMode

/-- `SpsrIndex(m)` (10 R33, R36); none for a reserved value too (log 16). -/
def spsrIndex (m : BitVec 5) : Option (Fin 5) := (modeOfBits m).bind spsrOfMode

/-- The state with the whole CPSR written. -/
def State.setCpsr (s : State) (w : Word) : State := { s with cpsr := w }

/-- `CPSR.T <- t`. -/
def State.setT (s : State) (t : Bool) : State := s.setCpsr (psrSetT s.cpsr t)

/-- The instruction set in force (10 R32 `T`). -/
def State.instrSet (s : State) : InstrSet := if psrT s.cpsr then .compressed else .primary

/-- The state with the bank selector written. -/
def State.setBank (s : State) (b : Bank) : State := { s with bankSel := b }

/-- `SwapBank(b)` (40 R133): the previous selection, and the state with the new one. -/
def swapBank (b : Bank) (s : State) : Bank × State := (s.bankSel, s.setBank b)

/-- `SwapBank(BankOf(m))` (40 R134): a reserved mode is a fatal stop and leaves the selection as it was. -/
def swapBankTo (m : BitVec 5) (s : State) : Res Bank :=
  match bankOf m with
  | some b => .ok (swapBank b s).1 (swapBank b s).2
  | none => .stop .badMode s

/-! ### Program counter -/

/-- `PcOffset()` for a set (10 R29). -/
def pcOffsetOf : InstrSet → Word
  | .primary => 8#32
  | .compressed => 4#32

/-- The width in bytes of a set's instructions (44 R243). -/
def widthOf : InstrSet → Word
  | .primary => 4#32
  | .compressed => 2#32

/-- `PcOffset()` with the value `CPSR.T` has now (10 R29). -/
def State.pcOffset (s : State) : Word := pcOffsetOf s.instrSet

/-- The fetch address, the PC-view minus the pipeline offset (44 R241). -/
def State.fetchAddr (s : State) : Word := s.reg 15 - s.pcOffset

/-- `Branch(a)`: `x[15] <- a + PcOffset()` (40 R138). -/
def State.branch (s : State) (a : Word) : State := s.setReg 15 (a + s.pcOffset)

/-- The default program-counter advance (44 R243). -/
def State.advance (s : State) (iset : InstrSet) : State := s.setReg 15 (s.reg 15 + widthOf iset)

/-- `CPSR.T <- v[0]; Branch(v & 0xFFFFFFFE)`: the branch-exchange of 42 R180, with the new set's offset (40 R139). -/
def State.exchange (s : State) (v : Word) : State := (s.setT (v.getLsbD 0)).branch (clearBit0 v)

/-! ### Memory -/

/-- The widths of an access on the memory port, `n = 2 or 4` bytes (00 R7, 20 R61). -/
inductive PortWidth where
  | half
  | word
  deriving DecidableEq, Repr

/-- How many bytes an access moves. -/
def PortWidth.bytes : PortWidth → Nat
  | .half => 2
  | .word => 4

/-- The byte at an address (20 R60, R62); an unlisted one reads as `Config.unlistedByte` (log 2). -/
def memRead : Memory → Nat → Byte
  | [], _ => Config.unlistedByte
  | (k, v) :: m, a => if a = k then v else if a < k then Config.unlistedByte else memRead m a

/-- The memory with one byte written, in canonical form. -/
def memWrite : Memory → Nat → Byte → Memory
  | [], a, b => if b = Config.unlistedByte then [] else [(a, b)]
  | (k, v) :: m, a, b =>
    if a = k then (if b = Config.unlistedByte then m else (k, b) :: m)
    else if a < k then (if b = Config.unlistedByte then (k, v) :: m else (a, b) :: (k, v) :: m)
    else (k, v) :: memWrite m a b

/-- The canonical form: every address is at least `lo` and below 2^32, they rise strictly, no byte is the unlisted one. -/
def memWfFrom : Nat → Memory → Bool
  | _, [] => true
  | lo, (k, v) :: m => decide (lo ≤ k) && decide (k < 2 ^ 32) && v != Config.unlistedByte && memWfFrom (k + 1) m

/-- The canonical form of a memory (log 2). -/
def Memory.wf (m : Memory) : Bool := memWfFrom 0 m

/-- The byte address `k` bytes above `a`, modulo 2^32 (20 R68, R79). -/
def byteAddr (a : Word) (k : Nat) : Nat := (a + BitVec.ofNat 32 k).toNat

/-- The byte at a 32-bit address. -/
def State.byteAt (s : State) (a : Word) : Byte := memRead s.mem a.toNat

/-- The little-endian word at an address (20 R79). -/
def State.wordAt (s : State) (a : Word) : Word :=
  wordOfBytes (s.byteAt a) (s.byteAt (a + 1#32)) (s.byteAt (a + 2#32)) (s.byteAt (a + 3#32))

/-- The little-endian halfword at an address (20 R79). -/
def State.halfAt (s : State) (a : Word) : Half := halfOfBytes (s.byteAt a) (s.byteAt (a + 1#32))

/-- Bytes written at rising addresses from `a`, modulo 2^32. -/
def memWriteBytes (m : Memory) (a : Word) : List Byte → Memory
  | [] => m
  | b :: bs => memWriteBytes (memWrite m a.toNat b) (a + 1#32) bs

/-- The state with a word written, little-endian (20 R79). -/
def State.setWord (s : State) (a : Word) (v : Word) : State :=
  { s with mem := memWriteBytes s.mem a (codeBytes (.word v)) }

/-- A byte address lies in a range. -/
def inRange (r : AddrRange) (a : Nat) : Bool := decide (r.base ≤ a) && decide (a < r.base + r.size)

/-- The memory unit completes an access of `n` bytes at `a`: none of them lies in a range it answers with a fault (20 R71). -/
def State.admits (s : State) (a : Word) (n : Nat) : Bool :=
  (List.range n).all fun k => !(s.unadmitted.any fun r => inRange r (byteAddr a k))

/-- A multiple of 4 (20 R64, R65). -/
def aligned4 (a : Word) : Bool := a.extractLsb' 0 2 == 0#2

/-- A multiple of 2 (20 R64). -/
def aligned2 (a : Word) : Bool := !a.getLsbD 0

/-- The checks before a data access (20 R65 first, then R71): the cause that stops it, if any. -/
def State.dataFault (s : State) (a : Word) : Option Fault :=
  if !aligned4 a then some .misalignedData
  else if !s.admits a 4 then some .memoryFault
  else none

/-- `MemRead(addr, 4)` of a data access (20 R61, R65, R71). -/
def readWord (a : Word) (s : State) : Res Word :=
  match s.dataFault a with
  | some c => .stop c s
  | none => .ok (s.wordAt a) s

/-- `MemWrite(addr, 4, v)` (20 R61, R65, R71). -/
def writeWord (a v : Word) (s : State) : Res Unit :=
  match s.dataFault a with
  | some c => .stop c s
  | none => .ok () (s.setWord a v)

/-! ### Shared parts of the handlers -/

/-- The skip rule (40 R132): a failed condition gives `Continues` with no mutation and hides every later check. -/
def conditional (c : Cond) (s : State) (body : State → Res Status) : Res Status :=
  if condPassed s.cpsr c then body s else .ok .continues s

/-- Steps 2 to 6 of the common skeleton (43 R200): the refused forms (R207), then the start and writeback addresses from
the base in the current bank (R210). -/
def blockStart (op : BlockOp) (s : State) : Res (Word × Word) :=
  if op.rn = 15 ∨ op.list = 0#16 then .stop .unpredictableForm s
  else .ok (resolve (s.reg op.rn) (popcount op.list) op.p op.u) s

/-- `if W = 1 then x[Rn] <- wb` (43 R201, R204). -/
def writeback (op : BlockOp) (wb : Word) (s : State) : State := if op.w then s.setReg op.rn wb else s

/-- The load loop (43 R201): one word per register, in the order given; answers the address after the last. -/
def loadRegs : List RegIdx → Word → State → Res Word
  | [], a, s => .ok a s
  | i :: is, a, s => (readWord a s).bind fun v s => loadRegs is (a + 4#32) (s.setReg i v)

/-- The store loop (43 R204): one word per register, in the order given. -/
def storeRegs : List RegIdx → Word → State → Res Unit
  | [], _, s => .ok () s
  | i :: is, a, s => (writeWord a (s.reg i) s).bind fun _ s => storeRegs is (a + 4#32) s

/-- The loads of `LDM` and `LDM_RET` up to register 14, with the writeback before them (43 R201, R206). -/
def loadWithWriteback (op : BlockOp) (adr : Word × Word) (s : State) : Res Word :=
  loadRegs (selectedLow op.list) adr.1 (writeback op adr.2 s)

/-- A transfer run in the user bank, the selection put back after it (40 R135, 43 R202, R205); a stop inside leaves the
user bank selected. -/
def inUserBank {α : Type} (body : State → Res α) (s : State) : Res α :=
  let sw := swapBank .usr s
  (body sw.2).bind fun a s => .ok a (s.setBank sw.1)

/-- The return from an exception (43 R203, 60 R271): `CPSR` becomes the SPSR entry whole, the bank follows the restored
mode, the branch uses the restored `T`. -/
def exceptionReturn (k : Fin 5) (v : Word) (s : State) : Res Status :=
  let s := s.setCpsr s.spsr[k.val]
  (swapBankTo (psrMode s.cpsr) s).bind fun _ s => .ok .branched (s.branch (clearBit0 v))

/-! ### The end of a step -/

/-- The dispatcher's update (44 R243): advance on `Continues`, nothing on `Branched`. -/
def retire (iset : InstrSet) (st : Status) (s : State) : State :=
  match st with
  | .continues => s.advance iset
  | .branched => s

/-- A handler's result as the outcome of the step (44 R240 lines 7 and 8); the state at a stop is never final (60 R262). -/
def complete (iset : InstrSet) (r : Res Status) : Host.Outcome State Fault Refusal :=
  match r with
  | .ok st s => .next (retire iset st s)
  | .stop c _ => .fault c

/-- A handler's result as the state the machine is left in: a stop latches its cause (60 R260, log 9). -/
def settle (iset : InstrSet) (r : Res Status) : State :=
  match r with
  | .ok st s => retire iset st s
  | .stop c s => { s with halted := some c }

/-- A descriptor the decoder cannot produce is refused by name (93 U28, log 12). -/
def admitForm (ok : Bool) (o : Host.Outcome State Fault Refusal) : Host.Outcome State Fault Refusal :=
  if ok then o else .refused .illFormed

end Sys2Proof.Machine
end

