-- ==== Sys2Proof/Machine/BlockTransfer.lean ====
section
/-! DEFINITION. The five block transfers (43_block_transfer.md), over the common skeleton of R200. -/

namespace Sys2Proof.Machine

/-- LDM, 43 R201: register 15, when listed, is an exchange to the loaded value. -/
def handleLdm (c : Cond) (op : BlockOp) (s : State) : Res Status :=
  conditional c s fun s =>
    (blockStart op s).bind fun adr s =>
      (loadWithWriteback op adr s).bind fun a s =>
        if op.list.getLsbD 15 then (readWord a s).bind fun v s => .ok .branched (s.exchange v)
        else .ok .continues s

/-- LDM_USER, 43 R202: no register 15, no writeback, the user bank for the duration. -/
def handleLdmUser (c : Cond) (op : BlockOp) (s : State) : Res Status :=
  conditional c s fun s =>
    (blockStart op s).bind fun adr s =>
      (inUserBank (loadRegs (selectedLow op.list) adr.1) s).bind fun _ s => .ok .continues s

/-- LDM_RET, 43 R203: the SPSR entry is chosen, and its absence stops, before any transfer. -/
def handleLdmRet (c : Cond) (op : BlockOp) (s : State) : Res Status :=
  conditional c s fun s =>
    (blockStart op s).bind fun adr s =>
      match spsrIndex (psrMode s.cpsr) with
      | none => .stop .noSpsr s
      | some k =>
        (loadWithWriteback op adr s).bind fun a s =>
          (readWord a s).bind fun v s => exceptionReturn k v s

/-- STM, 43 R204: the writeback is after the stores (R208); register 15 stores the PC-view (R209). -/
def handleStm (c : Cond) (op : BlockOp) (s : State) : Res Status :=
  conditional c s fun s =>
    (blockStart op s).bind fun adr s =>
      (storeRegs (selectedRegs op.list) adr.1 s).bind fun _ s => .ok .continues (writeback op adr.2 s)

/-- STM_USER, 43 R205: registers 0 to 15 of the user bank, no writeback. -/
def handleStmUser (c : Cond) (op : BlockOp) (s : State) : Res Status :=
  conditional c s fun s =>
    (blockStart op s).bind fun adr s =>
      (inUserBank (storeRegs (selectedRegs op.list) adr.1) s).bind fun _ s => .ok .continues s

/-- The meaning of LDM. -/
def execLdm (c : Cond) (op : BlockOp) (s : State) : Host.Outcome State Fault Refusal :=
  complete .primary (handleLdm c op s)

/-- The meaning of LDM_USER; `list[15] = 1` is ill-formed (43 R202, 93 U28). -/
def execLdmUser (c : Cond) (op : BlockOp) (s : State) : Host.Outcome State Fault Refusal :=
  admitForm (!op.list.getLsbD 15) (complete .primary (handleLdmUser c op s))

/-- The meaning of LDM_RET; `list[15] = 0` is ill-formed (30 R91, R112). -/
def execLdmRet (c : Cond) (op : BlockOp) (s : State) : Host.Outcome State Fault Refusal :=
  admitForm (op.list.getLsbD 15) (complete .primary (handleLdmRet c op s))

/-- The meaning of STM. -/
def execStm (c : Cond) (op : BlockOp) (s : State) : Host.Outcome State Fault Refusal :=
  complete .primary (handleStm c op s)

/-- The meaning of STM_USER. -/
def execStmUser (c : Cond) (op : BlockOp) (s : State) : Host.Outcome State Fault Refusal :=
  complete .primary (handleStmUser c op s)

end Sys2Proof.Machine
end

