-- ==== Sys2Proof/Machine/Branch.lean ====
section
/-! DEFINITION. Relative branches and branch with link (41_branch.md). Each instruction has its handler (what 41 writes) and
its meaning (the handler and the dispatcher's update, 44 R243). -/

namespace Sys2Proof.Machine

/-- B, 41 R160. -/
def handleB (c : Cond) (imm24 : BitVec 24) (s : State) : Res Status :=
  conditional c s fun s => .ok .branched (s.branch (s.reg 15 + offset24 imm24))

/-- BL, 41 R161: the link value is written before the branch, the target is from the PC-view. -/
def handleBl (c : Cond) (imm24 : BitVec 24) (s : State) : Res Status :=
  conditional c s fun s =>
    .ok .branched ((s.setReg 14 (linkPrimary (s.reg 15))).branch (s.reg 15 + offset24 imm24))

/-- T_B, 41 R162. -/
def handleTB (imm11 : BitVec 11) (s : State) : Res Status :=
  .ok .branched (s.branch (s.reg 15 + offset11 imm11))

/-- T_BCC, 41 R163. -/
def handleTBcc (c : Cond) (imm8 : BitVec 8) (s : State) : Res Status :=
  conditional c s fun s => .ok .branched (s.branch (s.reg 15 + offset8 imm8))

/-- T_BL_HI, 41 R164: stages the partial target in the link register. -/
def handleTBlHi (imm11 : BitVec 11) (s : State) : Res Status :=
  .ok .continues (s.setReg 14 (s.reg 15 + offsetHi imm11))

/-- T_BL_LO, 41 R165: the staged value is read before the link register is written. -/
def handleTBlLo (imm11 : BitVec 11) (s : State) : Res Status :=
  .ok .branched ((s.setReg 14 (linkCompressed (s.reg 15))).branch (s.reg 14 + offsetLo imm11))

/-- The meaning of B. -/
def execB (c : Cond) (imm24 : BitVec 24) (s : State) : Host.Outcome State Fault Refusal :=
  complete .primary (handleB c imm24 s)

/-- The meaning of BL. -/
def execBl (c : Cond) (imm24 : BitVec 24) (s : State) : Host.Outcome State Fault Refusal :=
  complete .primary (handleBl c imm24 s)

/-- The meaning of T_B. -/
def execTB (imm11 : BitVec 11) (s : State) : Host.Outcome State Fault Refusal :=
  complete .compressed (handleTB imm11 s)

/-- The meaning of T_BCC; conditions 14 and 15 are ill-formed (93 U28). -/
def execTBcc (c : Cond) (imm8 : BitVec 8) (s : State) : Host.Outcome State Fault Refusal :=
  admitForm (c != .al && c != .nv) (complete .compressed (handleTBcc c imm8 s))

/-- The meaning of T_BL_HI. -/
def execTBlHi (imm11 : BitVec 11) (s : State) : Host.Outcome State Fault Refusal :=
  complete .compressed (handleTBlHi imm11 s)

/-- The meaning of T_BL_LO. -/
def execTBlLo (imm11 : BitVec 11) (s : State) : Host.Outcome State Fault Refusal :=
  complete .compressed (handleTBlLo imm11 s)

end Sys2Proof.Machine
end

