-- ==== Sys2Proof/Machine/Exchange.lean ====
section
/-! DEFINITION. Branch-exchange (42_branch_exchange.md). In the link forms the target register is read before the link
register is written (R181, R183, D18). -/

namespace Sys2Proof.Machine

/-- BX, 42 R180. -/
def handleBx (c : Cond) (rm : RegIdx) (s : State) : Res Status :=
  conditional c s fun s => .ok .branched (s.exchange (s.reg rm))

/-- BLX_REG, 42 R181. -/
def handleBlxReg (c : Cond) (rm : RegIdx) (s : State) : Res Status :=
  conditional c s fun s => .ok .branched ((s.setReg 14 (linkPrimary (s.reg 15))).exchange (s.reg rm))

/-- T_BX, 42 R182. -/
def handleTBx (rm : RegIdx) (s : State) : Res Status :=
  .ok .branched (s.exchange (s.reg rm))

/-- T_BLX_REG, 42 R183. -/
def handleTBlxReg (rm : RegIdx) (s : State) : Res Status :=
  .ok .branched ((s.setReg 14 (linkCompressed (s.reg 15))).exchange (s.reg rm))

/-- The meaning of BX. -/
def execBx (c : Cond) (rm : RegIdx) (s : State) : Host.Outcome State Fault Refusal :=
  complete .primary (handleBx c rm s)

/-- The meaning of BLX_REG. -/
def execBlxReg (c : Cond) (rm : RegIdx) (s : State) : Host.Outcome State Fault Refusal :=
  complete .primary (handleBlxReg c rm s)

/-- The meaning of T_BX. -/
def execTBx (rm : RegIdx) (s : State) : Host.Outcome State Fault Refusal :=
  complete .compressed (handleTBx rm s)

/-- The meaning of T_BLX_REG. -/
def execTBlxReg (rm : RegIdx) (s : State) : Host.Outcome State Fault Refusal :=
  complete .compressed (handleTBlxReg rm s)

end Sys2Proof.Machine
end

