-- ==== Sys2Proof/Machine/Reserved.lean ====
section
/-! DEFINITION. The two reserved rows of the opcode table (30 R103, R106): they "give `Unknown`", and an unknown tag that no
external handler takes is `Fatal(UnknownTag)` with no change of state (44 R244). -/

namespace Sys2Proof.Machine

/-- A value without a descriptor, not taken by an external handler (44 R244). -/
def handleUnknown (s : State) : Res Status := .stop .unknownTag s

/-- T_RESERVED_COND14, 30 R106: "undefined in Thumb"; `Unknown`. -/
def execTReservedCond14 (_low : BitVec 8) (s : State) : Host.Outcome State Fault Refusal :=
  complete .compressed (handleUnknown s)

/-- T_RESERVED_COND15, 30 R106: the software interrupt in Thumb; `Unknown`. -/
def execTReservedCond15 (_low : BitVec 8) (s : State) : Host.Outcome State Fault Refusal :=
  complete .compressed (handleUnknown s)

end Sys2Proof.Machine
end

