-- ==== Sys2Proof/Machine/Dispatch.lean ====
section
/-! DEFINITION. The dispatcher's match, one arm per instruction (44 R242: "exhaustive over that closed list"). -/

namespace Sys2Proof.Machine

def exec (i : Instr) (s : State) : Host.Outcome State Fault Refusal :=
  match i with
  | .bx c rm => Sys2Proof.Machine.execBx c rm s
  | .blxReg c rm => Sys2Proof.Machine.execBlxReg c rm s
  | .b c imm24 => Sys2Proof.Machine.execB c imm24 s
  | .bl c imm24 => Sys2Proof.Machine.execBl c imm24 s
  | .ldm c op => Sys2Proof.Machine.execLdm c op s
  | .ldmUser c op => Sys2Proof.Machine.execLdmUser c op s
  | .ldmRet c op => Sys2Proof.Machine.execLdmRet c op s
  | .stm c op => Sys2Proof.Machine.execStm c op s
  | .stmUser c op => Sys2Proof.Machine.execStmUser c op s
  | .tReservedCond14 low => Sys2Proof.Machine.execTReservedCond14 low s
  | .tReservedCond15 low => Sys2Proof.Machine.execTReservedCond15 low s
  | .tBcc c imm8 => Sys2Proof.Machine.execTBcc c imm8 s
  | .tB imm11 => Sys2Proof.Machine.execTB imm11 s
  | .tBlHi imm11 => Sys2Proof.Machine.execTBlHi imm11 s
  | .tBlLo imm11 => Sys2Proof.Machine.execTBlLo imm11 s
  | .tBx rm => Sys2Proof.Machine.execTBx rm s
  | .tBlxReg rm => Sys2Proof.Machine.execTBlxReg rm s

end Sys2Proof.Machine
end

