-- ==== Sys2Proof/Machine/Fetch.lean ====
section
/-! DEFINITION. Instruction fetch (20 R63, R64; 44 R240 lines 2 to 4) and the placing of a word where the next step fetches
(log 8). -/

namespace Sys2Proof.Machine

/-- The fetch address is aligned to the set's width (20 R64). -/
def fetchAligned : InstrSet → Word → Bool
  | .primary, a => aligned4 a
  | .compressed, a => aligned2 a

/-- The width of a set's fetch (20 R63). -/
def fetchWidth : InstrSet → PortWidth
  | .primary => .word
  | .compressed => .half

/-- How many bytes a set's fetch reads (20 R63). -/
def fetchBytes (iset : InstrSet) : Nat := (fetchWidth iset).bytes

/-- The value that lies at an address, of the width of a set. -/
def State.codeAt (s : State) : InstrSet → Word → Code
  | .primary, a => .word (s.wordAt a)
  | .compressed, a => .half (s.halfAt a)

/-- Lines 1 to 4 of 44 R240: the alignment check, then the read. The fetch writes nothing (44 R241). -/
def fetch (s : State) : Res Code :=
  if !fetchAligned s.instrSet s.fetchAddr then .stop .misalignedFetch s
  else if !s.admits s.fetchAddr (fetchBytes s.instrSet) then .stop .memoryFault s
  else .ok (s.codeAt s.instrSet s.fetchAddr) s

/-- An address with the bits cleared that a set's fetch address must have clear. -/
def alignFor : InstrSet → Word → Word
  | .primary, a => a &&& 0xFFFFFFFC#32
  | .compressed, a => a &&& 0xFFFFFFFE#32

/-- A state whose next step fetches exactly `code`: the value stored at the (aligned) fetch address, that address admitted,
`T` and the PC-view of the value's set, the machine not stopped (log 8). -/
def placeCode (code : Code) (s : State) : State :=
  let iset := codeSet code
  let a := alignFor iset s.fetchAddr
  let free := fun r => (List.range (fetchBytes iset)).all fun k => !inRange r (byteAddr a k)
  let s := { s with
    cpsr := psrSetT s.cpsr (iset == InstrSet.compressed)
    mem := memWriteBytes s.mem a (codeBytes code)
    unadmitted := s.unadmitted.filter free
    halted := none }
  s.setReg 15 (a + pcOffsetOf iset)

end Sys2Proof.Machine
end

