-- ==== Sys2Proof/Machine/External.lean ====
section
/-! DEFINITION. The external handler, the open parameter EXT_HANDLER (00 R5, 44 R246): a program over the state of
10_state.md and the memory port of 20_memory.md. It holds no memory: each access is a request on the port, with the checks
of 20 R65 and R71, so that "on memory through the port" (44 R246 (b)) holds of every handler. Log 14. -/

namespace Sys2Proof.Machine

/-! ### Accesses of either width -/

/-- `MemRead(addr, n)` as a number zero-extended to 32 bits (00 R7). -/
def State.valueAt (s : State) : PortWidth → Word → Word
  | .half, a => (s.halfAt a).setWidth 32
  | .word, a => s.wordAt a

/-- The bytes of a value of `8n` bits, lowest address first (20 R79); bits above them are not stored. -/
def valueBytes : PortWidth → Word → List Byte
  | .half, v => codeBytes (.half (v.setWidth 16))
  | .word, v => codeBytes (.word v)

/-- The state with a value written (20 R79). -/
def State.setValue (s : State) (w : PortWidth) (a v : Word) : State :=
  { s with mem := memWriteBytes s.mem a (valueBytes w v) }

/-- An address is a multiple of the access's width. -/
def PortWidth.aligned : PortWidth → Word → Bool
  | .half, a => aligned2 a
  | .word, a => aligned4 a

/-- The checks before a data access of either width, as `State.dataFault` makes them for words (20 R65, R71; that a halfword
at an odd address is `MisalignedData` is a DESIGN CHOICE, log 14). -/
def State.portFault (s : State) (w : PortWidth) (a : Word) : Option Fault :=
  if !w.aligned a then some .misalignedData
  else if !s.admits a w.bytes then some .memoryFault
  else none

/-- `MemRead(addr, n)` (20 R61). -/
def readPort (w : PortWidth) (a : Word) (s : State) : Res Word :=
  match s.portFault w a with
  | some c => .stop c s
  | none => .ok (s.valueAt w a) s

/-- `MemWrite(addr, n, v)` (20 R61). -/
def writePort (w : PortWidth) (a v : Word) (s : State) : Res Unit :=
  match s.portFault w a with
  | some c => .stop c s
  | none => .ok () (s.setValue w a v)

/-! ### The handler -/

/-- The state of 10_state.md without the stop latch, which only a fatal stop writes: what a handler reads and writes. -/
structure ExtRegs where
  regs : Vector Word 31
  bankSel : Bank
  cpsr : Word
  spsr : Vector Word 5
  deriving DecidableEq, Repr

/-- The PC-view (10 R28). -/
def ExtRegs.pc (r : ExtRegs) : Word := r.regs[15]

/-- What of a state a handler is given. -/
def State.extRegs (s : State) : ExtRegs := { regs := s.regs, bankSel := s.bankSel, cpsr := s.cpsr, spsr := s.spsr }

/-- The state with a handler's registers. -/
def State.withRegs (s : State) (r : ExtRegs) : State :=
  { s with regs := r.regs, bankSel := r.bankSel, cpsr := r.cpsr, spsr := r.spsr }

/-- What a handler does, line after line (00 R8, 44 R246). -/
inductive ExtRun where
  /-- `return Continues` -/
  | continues
  /-- `Branch(a); return Branched`: no other way to answer `Branched` (44 R246 (c)) -/
  | branch (a : Word)
  /-- `raise Fatal(c)` (44 R242) -/
  | stop (c : Fault)
  /-- the registers, the bank selection and the PSRs become `r`, then `next` -/
  | setRegs (r : ExtRegs) (next : ExtRun)
  /-- `MemRead`, then what `next` says for the value read -/
  | memRead (w : PortWidth) (a : Word) (next : Word → ExtRun)
  /-- `MemWrite`, then `next` -/
  | memWrite (w : PortWidth) (a v : Word) (next : ExtRun)

/-- An external handler is handed the set bit, the raw value and the registers; none is that it declines (44 R246 (f)). -/
abbrev ExtHandler := InstrSet → Word → ExtRegs → Option ExtRun

/-- A handler's run from a state (44 R246). -/
def runExt : ExtRun → State → Res Status
  | .continues, s => .ok .continues s
  | .branch a, s => .ok .branched (s.branch a)
  | .stop c, s => .stop c s
  | .setRegs r next, s => runExt next (s.withRegs r)
  | .memRead w a next, s => (readPort w a s).bind fun v s => runExt (next v) s
  | .memWrite w a v next, s => (writePort w a v s).bind fun _ s => runExt next s

/-- Wherever a run from the registers `r` ends, whatever the port answers, its registers meet `atContinues` where it answers
`Continues` and `atBranch` where it comes to its `Branch(a)`. -/
def ExtRun.Ends (atContinues atBranch : ExtRegs → Prop) : ExtRun → ExtRegs → Prop
  | .continues, r => atContinues r
  | .branch _, r => atBranch r
  | .stop _, _ => True
  | .setRegs r next, _ => next.Ends atContinues atBranch r
  | .memRead _ _ next, r => ∀ v, (next v).Ends atContinues atBranch r
  | .memWrite _ _ _ next, r => next.Ends atContinues atBranch r

/-- The contract of 44 R246 for the handler `h`, whose instructions carry the conditions `condOf`: (a) a failed condition
changes nothing, makes no access and continues; (c) the PC-view is written by `Branch(a)` alone; (d) `T` is as it was where
no `Branch` follows; (e) the bank follows the mode, from registers where it does (10 R26). (b) and (f) are in the type. -/
structure ExtContract (condOf : InstrSet → Word → Option Cond) (h : ExtHandler) : Prop where
  skips : ∀ iset raw r c, condOf iset raw = some c → condPassed r.cpsr c = false → h iset raw r = some .continues
  counter : ∀ iset raw r run, h iset raw r = some run →
    run.Ends (fun u => u.pc = r.pc ∧ psrT u.cpsr = psrT r.cpsr) (fun u => u.pc = r.pc) r
  bank : ∀ iset raw r run, h iset raw r = some run → bankOf (psrMode r.cpsr) = some r.bankSel →
    run.Ends (fun u => bankOf (psrMode u.cpsr) = some u.bankSel) (fun u => bankOf (psrMode u.cpsr) = some u.bankSel) r

end Sys2Proof.Machine
end

