-- ==== Sys2Proof/Machine/Cycle.lean ====
section
/-! DEFINITION. The step of 44 R240 for every decoder function (44 R248) and every value of the open parameters REFUSE_COND_NV
and EXT_HANDLER (00 R5), the latch of a fatal stop (60 R260), and the run loop with the parameter STOP (44 R245).
`Machine.step` is the step at the defaults. -/

namespace Sys2Proof.Machine

/-- What a step and a run take beside the state: the decoder function (00 R11, 44 R248) and the open parameters (00 R5). -/
structure Params where
  /-- the decoder function (30 R92: "A model that takes its descriptors from another decoder may do so") -/
  decode : Decoder
  /-- REFUSE_COND_NV (30 R105) -/
  refuseCondNv : Bool
  /-- EXT_HANDLER (44 R246) -/
  ext : Option ExtHandler
  /-- STOP (44 R245), read together with the latch by `finished` -/
  stopWhen : State → Bool

/-- The external handler's run on a value: none where there is no handler or it declines (44 R246). -/
def handlerRun (p : Params) (code : Code) (s : State) : Option ExtRun :=
  p.ext.bind fun h => h (codeSet code) (codeRaw code) s.extRegs

/-- A value with no descriptor: the external handler's, if there is one and it does not decline, else the fatal stop
(44 R240 line 6, R244). -/
def unknownOrExt (p : Params) (code : Code) (s : State) : Res Status :=
  match handlerRun p code s with
  | some run => runExt run s
  | none => handleUnknown s

/-- The handler of each tag (44 R242, 30 R91). -/
def handle (i : Instr) (s : State) : Res Status :=
  match i with
  | .bx c rm => handleBx c rm s
  | .blxReg c rm => handleBlxReg c rm s
  | .b c imm24 => handleB c imm24 s
  | .bl c imm24 => handleBl c imm24 s
  | .ldm c op => handleLdm c op s
  | .ldmUser c op => handleLdmUser c op s
  | .ldmRet c op => handleLdmRet c op s
  | .stm c op => handleStm c op s
  | .stmUser c op => handleStmUser c op s
  | .tReservedCond14 _ => handleUnknown s
  | .tReservedCond15 _ => handleUnknown s
  | .tBcc c imm8 => handleTBcc c imm8 s
  | .tB imm11 => handleTB imm11 s
  | .tBlHi imm11 => handleTBlHi imm11 s
  | .tBlLo imm11 => handleTBlLo imm11 s
  | .tBx rm => handleTBx rm s
  | .tBlxReg rm => handleTBlxReg rm s

/-- Lines 5 and 6 of 44 R240: the descriptor a decoder gives for a value. It is one of 30 R91 and of the value's set; a reserved
row (30 R106), with `REFUSE_COND_NV` a condition field 0b1111 (30 R105), and whatever is no descriptor of 30 R91 (log 13)
are `Unknown`. -/
def describe (refuseCondNv : Bool) (decode : Decoder) (code : Code) : Option Instr :=
  (decode code).filter fun i =>
    i.wellFormed && i.instrSet == codeSet code && !i.reserved && !(refuseCondNv && i.condNv)

/-- One step (44 R240) for any parameters; a stopped machine has no step, and answers the cause it stopped with (log 9). -/
def stepWith (p : Params) (s : State) : Host.Outcome State Fault Refusal :=
  match s.halted with
  | some c => .fault c
  | none =>
    match fetch s with
    | .stop c _ => .fault c
    | .ok code s =>
      match describe p.refuseCondNv p.decode code with
      | some i => exec i s
      | none => complete (codeSet code) (unknownOrExt p code s)

/-- The same step as the state it leaves the machine in: a fatal stop latches its cause (60 R260) over whatever the lines
before it wrote (60 R270, 43 R212); a stopped machine stays as it is. -/
def cycle (p : Params) (s : State) : State :=
  match s.halted with
  | some _ => s
  | none =>
    match fetch s with
    | .stop c s => { s with halted := some c }
    | .ok code s =>
      match describe p.refuseCondNv p.decode code with
      | some i => settle i.instrSet (handle i s)
      | none => settle (codeSet code) (unknownOrExt p code s)

/-- The end of a run: `STOP` holds, and the machine is not stopped, since "A stopped machine (`halted` set) is never a
successful end" (44 R245, 60 R262), whatever `STOP` says of its state. -/
def finished (p : Params) (s : State) : Bool := s.halted.isNone && p.stopWhen s

/-- `Run` (44 R245) for at most `n` steps: until the machine stops or the run has ended. -/
def runFor (p : Params) : Nat → State → State
  | 0, s => s
  | n + 1, s => if s.halted.isSome || finished p s then s else runFor p n (cycle p s)

/-- The suggested `STOP` (44 R245): the instruction about to be fetched is a branch to itself. A stopped machine fetches none
(44 R240). Log 18. -/
def atSelfBranch (describe : Code → Option Instr) (s : State) : Bool :=
  match s.halted, fetch s with
  | none, .ok code _ =>
    match describe code with
    | some (.b c imm24) => condPassed s.cpsr c && imm24 == 0xFFFFFE#24
    | some (.tB imm11) => imm11 == 0x7FE#11
    | some (.tBcc c imm8) => condPassed s.cpsr c && imm8 == 0xFE#8
    | _ => false
  | none, .stop _ _ => false
  | some _, _ => false

/-- The defaults: the decoder of 30 R92, REFUSE_COND_NV false and no EXT_HANDLER (00 R5, log 13), the suggested STOP
(log 18). -/
def standardParams : Params :=
  { decode := specDecoder
    refuseCondNv := Config.refuseCondNv
    ext := none
    stopWhen := atSelfBranch (describe Config.refuseCondNv specDecoder) }

end Sys2Proof.Machine
end

