-- ==== Sys2Proof/Machine/Port.lean ====
section
/-! DEFINITION. The block's outputs: the sequence of port requests of a step, in order (44 R248, 20 R66, R67, R72, 43 R211), an
external handler's among them (44 R246). Each list ends with the first request the memory unit answers with a fault; a misaligned one is not made (20 R65). -/

namespace Sys2Proof.Machine

/-- One request on the memory port: "each with address, width and, for writes, data" (44 R248, 20 R61). -/
inductive PortRequest where
  /-- an instruction fetch (20 R63) -/
  | fetch (w : PortWidth) (addr : Word)
  /-- a data read -/
  | read (w : PortWidth) (addr : Word)
  /-- a data write -/
  | write (w : PortWidth) (addr v : Word)
  deriving DecidableEq, Repr

/-- The address of a request. -/
def PortRequest.addr : PortRequest → Word
  | .fetch _ a | .read _ a | .write _ a _ => a

/-- The width of a request. -/
def PortRequest.width : PortRequest → PortWidth
  | .fetch w _ | .read w _ | .write w _ _ => w

/-- The registers of a transfer with the address each is moved at: the `j`-th at `start + 4j` (43 R211). -/
def transferPlan : List RegIdx → Word → List (RegIdx × Word)
  | [], _ => []
  | i :: is, a => (i, a) :: transferPlan is (a + 4#32)

/-- The data requests that reach the port, from those a rule would make in order. -/
def issued (s : State) : List (Word × PortRequest) → List PortRequest
  | [] => []
  | (a, r) :: rs =>
    match s.dataFault a with
    | none => r :: issued s rs
    | some .memoryFault => [r]
    | some _ => []

/-- The requests a block transfer makes once its condition has passed: none for a refused form. -/
def blockRequests (c : Cond) (op : BlockOp) (s : State) (req : RegIdx → Word → PortRequest) : List PortRequest :=
  if condPassed s.cpsr c then
    match blockStart op s with
    | .stop _ _ => []
    | .ok adr s => issued s ((transferPlan (selectedRegs op.list) adr.1).map fun ia => (ia.2, req ia.1 ia.2))
  else []

/-- The data requests of an instruction (43 R211; 41 R166: the branches make none). -/
def dataRequests (i : Instr) (s : State) : List PortRequest :=
  match i with
  | .ldm c op => blockRequests c op s fun _ a => .read .word a
  | .ldmUser c op => blockRequests c op s fun _ a => .read .word a
  | .ldmRet c op => if (spsrIndex (psrMode s.cpsr)).isSome then blockRequests c op s fun _ a => .read .word a else []
  | .stm c op => blockRequests c op s fun r a => .write .word a (s.reg r)
  | .stmUser c op => blockRequests c op s fun r a => .write .word a (s.bankReg .usr r)
  | .bx _ _ | .blxReg _ _ | .b _ _ | .bl _ _ => []
  | .tReservedCond14 _ | .tReservedCond15 _ | .tBcc _ _ | .tB _ | .tBlHi _ | .tBlLo _ | .tBx _ | .tBlxReg _ => []

/-- The requests of an external handler's run: those `runExt` makes, each with the checks of its access (44 R246 (b)). -/
def extRequests : ExtRun → State → List PortRequest
  | .continues, _ => []
  | .branch _, _ => []
  | .stop _, _ => []
  | .setRegs r next, s => extRequests next (s.withRegs r)
  | .memRead w a next, s =>
    match s.portFault w a with
    | none => .read w a :: extRequests (next (s.valueAt w a)) s
    | some .memoryFault => [.read w a]
    | some _ => []
  | .memWrite w a v next, s =>
    match s.portFault w a with
    | none => .write w a v :: extRequests next (s.setValue w a v)
    | some .memoryFault => [.write w a v]
    | some _ => []

/-- The requests of a step after its fetch: the instruction's, or the external handler's (44 R240 lines 6 and 7). -/
def valueRequests (p : Params) (code : Code) (s : State) : List PortRequest :=
  match describe p.refuseCondNv p.decode code with
  | some i => dataRequests i s
  | none =>
    match handlerRun p code s with
    | some run => extRequests run s
    | none => []

/-- The requests of a whole step: the fetch first (20 R72), then those of the value fetched. -/
def stepRequests (p : Params) (s : State) : List PortRequest :=
  if s.halted.isSome || !fetchAligned s.instrSet s.fetchAddr then []
  else
    .fetch (fetchWidth s.instrSet) s.fetchAddr ::
      match fetch s with
      | .stop _ _ => []
      | .ok code s => valueRequests p code s

/-- The effect of one request on the memory (20 R79): only a write has one. -/
def applyRequest (m : Memory) : PortRequest → Memory
  | .fetch _ _ => m
  | .read _ _ => m
  | .write w a v => memWriteBytes m a (valueBytes w v)

end Sys2Proof.Machine
end

