-- ==== Sys2Proof/Machine/Step.lean ====
section
/-! DEFINITION. One step of the core at the default parameters (44 R240, 00 R5), and the placing of a word for its fetch. -/

namespace Sys2Proof.Machine

/-- One step (44 R240), with the decoder of 30 R92, REFUSE_COND_NV false and no EXT_HANDLER (00 R5, log 13). -/
def step (s : State) : Host.Outcome State Fault Refusal := stepWith standardParams s

/-- The state with an instruction's bits placed where `step` fetches next (log 8). -/
def State.withFetchWord (s : State) (nbits w : Nat) : State := placeCode (tableCode nbits w) s

end Sys2Proof.Machine
end

