-- ==== Sys2Proof/Safety.lean ====
section
/-! DEFINITION. What counts as a safe run, in the terms claims use: a run is safe while no step stops (60 R262: "every claim
about a run takes halted = none as a premise"), and the invariant that every step keeps (10 R26, log 2). -/

namespace Sys2Proof.Machine

/-- The state relations every step keeps: the selected bank is the mode's (10 R26), so the mode is one of the seven
(10 R33); the memory is canonical (log 2); the machine is not stopped (10 R39). -/
def State.Inv (s : State) : Prop :=
  bankOf (psrMode s.cpsr) = some s.bankSel ∧ Memory.wf s.mem = true ∧ s.halted = none

/-- A run of `n` steps in which no step stops. -/
def SafeFor (n : Nat) (s : State) : Prop := ∃ t, Sys2Proof.core.run n s = .next t

end Sys2Proof.Machine
end

