-- ==== Sys2Proof/Certificates/Slice0/Obligations.lean ====
section
/-! DEFINITION. The statements for the provers, from the numbered rules of spec/. Helper predicates first (`Sys2Proof.Claims`),
then one definition `Obligations.<Name>` per statement. Where a clause rests on one of the spec's own decisions (D<n> of 92),
its docstring says so; the PSR bit positions behind `psrT`, `psrMode` and the like are D1, the mode table D2. -/

namespace Sys2Proof.Claims

open Sys2Proof.Machine

/-- Every physical register but the named ones holds what it held. -/
def RegsKept (s t : State) (except : List PhysReg) : Prop := ∀ p : PhysReg, p ∉ except → t.physReg p = s.physReg p

/-- Every byte of memory reads as before. -/
def MemKept (s t : State) : Prop := ∀ a : Word, t.byteAt a = s.byteAt a

/-- The bank selection, every SPSR entry, the stop latch and the memory unit's ranges are as before. -/
def RestKept (s t : State) : Prop :=
  t.bankSel = s.bankSel ∧ t.spsr = s.spsr ∧ t.halted = s.halted ∧ t.unadmitted = s.unadmitted

/-- Every bit of CPSR but `T` is as before. -/
def CpsrKeptButT (s t : State) : Prop := ∀ n, n ≠ 5 → t.cpsr.getLsbD n = s.cpsr.getLsbD n

/-- The pipeline offset of a `T` bit: "4 if executing compressed instructions, 8 otherwise". -/
def offsetFor (t : Bool) : Word := if t then 4#32 else 8#32

/-- The width of a set's instructions: "4 for the primary set, 2 for the compressed set". -/
def widthFor : InstrSet → Word
  | .primary => 4#32
  | .compressed => 2#32

/-- How many registers a list selects. -/
def count (list : BitVec 16) : Nat := (List.range 16).countP fun k => list.getLsbD k

/-- How many selected registers have a number below `i`: the place of register `i` in the transfer. -/
def rank (list : BitVec 16) (i : RegIdx) : Nat := (List.range i.val).countP fun k => list.getLsbD k

/-- The address of the `j`-th word of a transfer from `start`. -/
def wordAddr (start : Word) (j : Nat) : Word := start + BitVec.ofNat 32 (4 * j)

/-- The start address of a block transfer, from the base read in the current bank (43 R200). -/
def startOf (op : BlockOp) (s : State) : Word := (resolve (s.reg op.rn) (count op.list) op.p op.u).1

/-- The writeback address of a block transfer. -/
def writebackOf (op : BlockOp) (s : State) : Word := (resolve (s.reg op.rn) (count op.list) op.p op.u).2

/-- The memory unit completes a word access at `a`: no byte of it lies in a range it faults on. -/
def Admitted (s : State) (a : Word) : Prop :=
  ∀ k < 4, ∀ r ∈ s.unadmitted, ¬ (r.base ≤ (a + BitVec.ofNat 32 k).toNat ∧ (a + BitVec.ofNat 32 k).toNat < r.base + r.size)

/-- When a block transfer whose condition passed runs to its end: a form that is not refused (R207), an aligned start (R65),
and a memory unit that completes every access (R71). -/
def Transfers (op : BlockOp) (s : State) : Prop :=
  op.rn ≠ 15 ∧ op.list ≠ 0#16 ∧ (startOf op s).extractLsb' 0 2 = 0#2 ∧
    ∀ j < count op.list, Admitted s (wordAddr (startOf op s) j)

/-- The registers a load leaves alone: all but 15, the listed ones of the bank `b`, and the base where it is written back. -/
def LoadFrame (b : Bank) (op : BlockOp) (wb : Bool) (s t : State) : Prop :=
  ∀ p : PhysReg, p ≠ 15 → (∀ i : RegIdx, op.list.getLsbD i.val = true → p ≠ phys b i) →
    (wb = true → p ≠ phys s.bankSel op.rn) → t.physReg p = s.physReg p

/-- Every listed register below 15 holds, in the bank `b`, its word of memory. -/
def LoadedIn (b : Bank) (op : BlockOp) (s t : State) : Prop :=
  ∀ i : RegIdx, i.val < 15 → op.list.getLsbD i.val = true →
    t.physReg (phys b i) = s.wordAt (wordAddr (startOf op s) (rank op.list i))

/-- The memory after a store: each listed register's word at its place, every byte outside the words stored as before. -/
def StoredFrom (value : RegIdx → Word) (op : BlockOp) (s t : State) : Prop :=
  (∀ i : RegIdx, op.list.getLsbD i.val = true → t.wordAt (wordAddr (startOf op s) (rank op.list i)) = value i) ∧
    ∀ a : Word, ¬ (a - startOf op s).toNat < 4 * count op.list → t.byteAt a = s.byteAt a

/-- The five block transfers. -/
def blockForm : Instr → Option (Cond × BlockOp)
  | .ldm c op => some (c, op)
  | .ldmUser c op => some (c, op)
  | .ldmRet c op => some (c, op)
  | .stm c op => some (c, op)
  | .stmUser c op => some (c, op)
  | .bx _ _ | .blxReg _ _ | .b _ _ | .bl _ _ => none
  | .tReservedCond14 _ | .tReservedCond15 _ | .tBcc _ _ | .tB _ | .tBlHi _ | .tBlLo _ | .tBx _ | .tBlxReg _ => none

/-- An exception-return load finds an SPSR entry: the current mode is an exception mode (43 R203). Other instructions ask
nothing. -/
def ReturnPossible (i : Instr) (s : State) : Prop :=
  match i with
  | .ldmRet _ _ => (spsrIndex (psrMode s.cpsr)).isSome = true
  | _ => True

/-- The value a listed register stores: the current bank's copy, or the user copy in a forced-user store. -/
def storedValue (user : Bool) (s : State) (i : RegIdx) : Word := if user then s.bankReg .usr i else s.reg i

/-- The instructions that write `T` by an exchange (42 R180 to R183, 43 R201). -/
def Exchanges : Instr → Prop
  | .bx _ _ | .blxReg _ _ | .tBx _ | .tBlxReg _ => True
  | .ldm _ op => op.list.getLsbD 15 = true
  | .b _ _ | .bl _ _ | .ldmUser _ _ | .ldmRet _ _ | .stm _ _ | .stmUser _ _ => False
  | .tReservedCond14 _ | .tReservedCond15 _ | .tBcc _ _ | .tB _ | .tBlHi _ | .tBlLo _ => False

/-- Two states a program in User mode cannot tell apart: all but the privileged register copies and the SPSR entries agree. -/
def UserEqual (s t : State) : Prop :=
  (∀ i : RegIdx, s.bankReg .usr i = t.bankReg .usr i) ∧ s.bankSel = t.bankSel ∧ s.cpsr = t.cpsr ∧ s.halted = t.halted ∧
    s.mem = t.mem ∧ s.unadmitted = t.unadmitted

end Sys2Proof.Claims

open Sys2Proof Sys2Proof.Machine Sys2Proof.Claims

/-! ### Decoding -/

/-- Every well-formed instruction's encoding decodes to it, on its own and at the head of any bytes. The bit patterns are the
spec's decision D9. -/
def Obligations.DecodeOfEncodeIsTheInstruction : Prop :=
  ∀ i : Instr, i.wellFormed = true →
    codeSet (encode i) = i.instrSet ∧ decodeCode false (encode i) = .ok i ∧
      ∀ rest : List Byte, decodeBytes false i.instrSet (codeBytes (encode i) ++ rest) = .ok (i, rest)

/-- Every value that decodes is the encoding of what it decodes to, a well-formed instruction of the value's set: no bit of a
decoded value is ignored (R107: should-be bits are matched). -/
def Obligations.EncodeOfDecodeIsTheValue : Prop :=
  ∀ (refuse : Bool) (code : Code) (i : Instr), decodeCode refuse code = .ok i →
    encode i = code ∧ i.wellFormed = true ∧ i.instrSet = codeSet code

/-- The decoder accepts exactly the values that match a row of the opcode table of their set, and what it answers is of a row
they match; no primary-set value matches two rows (R103, R104). -/
def Obligations.DecoderAcceptsExactlyTheTableRows : Prop :=
  (∀ code : Code, (∃ i, decodeCode false code = .ok i) ↔
      ∃ i : Instr, i.instrSet = codeSet code ∧ codeRaw code &&& (tableRow i).2 = (tableRow i).1) ∧
    (∀ (code : Code) (i : Instr), decodeCode false code = .ok i → codeRaw code &&& (tableRow i).2 = (tableRow i).1) ∧
    ∀ (raw : Word) (i j : Instr), i.instrSet = .primary → j.instrSet = .primary →
      raw &&& (tableRow i).2 = (tableRow i).1 → raw &&& (tableRow j).2 = (tableRow j).1 → tableRow i = tableRow j

/-- A few words written out from the formats R93 to R99: the vectors B1, X1, L1, S1, T1, B13 and B20 of 95. -/
def Obligations.SampleWordsDecodeAsTheSpecSays : Prop :=
  decodeTableWord 32 0xEAFFFFFF = some (.b .al 0xFFFFFF#24) ∧
    decodeTableWord 32 0xE12FFF10 = some (.bx .al 0) ∧
    decodeTableWord 32 0xE8900007 = some (.ldm .al ⟨false, true, false, 0, 7#16⟩) ∧
    decodeTableWord 32 0xE8A00006 = some (.stm .al ⟨false, true, true, 0, 6#16⟩) ∧
    decodeTableWord 32 0xE8FD8001 = some (.ldmRet .al ⟨false, true, true, 13, 0x8001#16⟩) ∧
    decodeTableWord 16 0xD07F = some (.tBcc .eq 0x7F#8) ∧
    decodeTableWord 16 0xFFFF = some (.tBlLo 0x7FF#11)

/-- REFUSE_COND_NV (R105, decision D21): set, it takes exactly the words with condition field 0b1111 out of the primary set;
clear, it takes none. -/
def Obligations.RefuseCondNvTakesOutTheNvSpace : Prop :=
  ∀ raw : Word,
    (raw.extractLsb' 28 4 = 0b1111#4 → ∀ i, decodeCode true (.word raw) ≠ .ok i) ∧
      (raw.extractLsb' 28 4 ≠ 0b1111#4 → decodeCode true (.word raw) = decodeCode false (.word raw))

/-! ### Registers and banks -/

/-- Which visible registers share a physical copy (R22, R25; the bank names are decision D2), and that every one of the 31 is
some bank's copy. -/
def Obligations.VisibleRegistersShareCopiesAsTabled : Prop :=
  (∀ (b b' : Bank) (i j : RegIdx), phys b i = phys b' j ↔
      i = j ∧ (i.val ≤ 7 ∨ i.val = 15 ∨ (8 ≤ i.val ∧ i.val ≤ 12 ∧ (b = .fiq ↔ b' = .fiq)) ∨
        ((i.val = 13 ∨ i.val = 14) ∧ b = b'))) ∧
    ∀ p : PhysReg, ∃ (b : Bank) (i : RegIdx), phys b i = p

/-- A write of `x[i]` reaches the copy of the current bank selection and nothing else (R25, R27: no register is hard-wired). -/
def Obligations.RegisterWriteReachesOneCopy : Prop :=
  ∀ (s : State) (i : RegIdx) (v : Word),
    (s.setReg i v).reg i = v ∧ RegsKept s (s.setReg i v) [phys s.bankSel i] ∧ (s.setReg i v).cpsr = s.cpsr ∧
      MemKept s (s.setReg i v) ∧ RestKept s (s.setReg i v)

/-- `SwapBank` answers the previous selection, moves no register value, leaves CPSR, and registers 8 to 14 resolve through the
new bank (R133). -/
def Obligations.SwapBankMovesOnlyTheSelector : Prop :=
  ∀ (b : Bank) (s : State), (swapBank b s).1 = s.bankSel ∧ (swapBank b s).2.bankSel = b ∧
    RegsKept s (swapBank b s).2 [] ∧ (swapBank b s).2.cpsr = s.cpsr ∧ (swapBank b s).2.spsr = s.spsr ∧
    MemKept s (swapBank b s).2 ∧ (∀ i : RegIdx, (swapBank b s).2.reg i = s.bankReg b i) ∧
    (swapBank s.bankSel s).2 = s

/-- The mode table (R23, R33; decision D2): the bank of each mode value, and a swap to any other value is BadMode with the
selection as it was (R134). -/
def Obligations.BankOfModeIsTheTable : Prop :=
  ∀ (m : BitVec 5) (s : State),
    (m = 0b10000#5 ∨ m = 0b11111#5 → swapBankTo m s = .ok s.bankSel (s.setBank .usr) ∧ spsrIndex m = none) ∧
    (m = 0b10001#5 → swapBankTo m s = .ok s.bankSel (s.setBank .fiq) ∧ spsrIndex m = some 0) ∧
    (m = 0b10010#5 → swapBankTo m s = .ok s.bankSel (s.setBank .irq) ∧ spsrIndex m = some 1) ∧
    (m = 0b10011#5 → swapBankTo m s = .ok s.bankSel (s.setBank .svc) ∧ spsrIndex m = some 2) ∧
    (m = 0b10111#5 → swapBankTo m s = .ok s.bankSel (s.setBank .abt) ∧ spsrIndex m = some 3) ∧
    (m = 0b11011#5 → swapBankTo m s = .ok s.bankSel (s.setBank .und) ∧ spsrIndex m = some 4) ∧
    (m ∉ [0b10000#5, 0b10001#5, 0b10010#5, 0b10011#5, 0b10111#5, 0b11011#5, 0b11111#5] → swapBankTo m s = .stop .badMode s)

/-! ### Conditions and the skip rule -/

/-- The condition table on the flags N (31), Z (30), C (29), V (28) of a status word (R130; numbering and expressions are
decision D5, the bit positions D1). -/
def Obligations.ConditionTableReadsTheFlags : Prop :=
  ∀ w : Word,
    (condPassed w (condOfBits 0) = true ↔ w.getLsbD 30 = true) ∧ (condPassed w (condOfBits 1) = true ↔ w.getLsbD 30 = false) ∧
    (condPassed w (condOfBits 2) = true ↔ w.getLsbD 29 = true) ∧ (condPassed w (condOfBits 3) = true ↔ w.getLsbD 29 = false) ∧
    (condPassed w (condOfBits 4) = true ↔ w.getLsbD 31 = true) ∧ (condPassed w (condOfBits 5) = true ↔ w.getLsbD 31 = false) ∧
    (condPassed w (condOfBits 6) = true ↔ w.getLsbD 28 = true) ∧ (condPassed w (condOfBits 7) = true ↔ w.getLsbD 28 = false) ∧
    (condPassed w (condOfBits 8) = true ↔ w.getLsbD 29 = true ∧ w.getLsbD 30 = false) ∧
    (condPassed w (condOfBits 9) = true ↔ w.getLsbD 29 = false ∨ w.getLsbD 30 = true) ∧
    (condPassed w (condOfBits 10) = true ↔ w.getLsbD 31 = w.getLsbD 28) ∧
    (condPassed w (condOfBits 11) = true ↔ w.getLsbD 31 ≠ w.getLsbD 28) ∧
    (condPassed w (condOfBits 12) = true ↔ w.getLsbD 30 = false ∧ w.getLsbD 31 = w.getLsbD 28) ∧
    (condPassed w (condOfBits 13) = true ↔ w.getLsbD 30 = true ∨ w.getLsbD 31 ≠ w.getLsbD 28) ∧
    condPassed w (condOfBits 14) = true ∧ condPassed w (condOfBits 15) = true

/-- The code 0b1111 passes whatever the flags (R131). -/
def Obligations.ReservedConditionAlwaysPasses : Prop := ∀ w : Word, condPassed w (condOfBits 0b1111#4) = true

/-- The skip rule (R132): an instruction whose condition fails makes no data access, and its only change is the advance of
`x[15]` by the instruction's width, whatever its other fields. -/
def Obligations.FailedConditionOnlyAdvances : Prop :=
  ∀ (i : Instr) (c : Cond) (s : State), i.wellFormed = true → i.cond? = some c → condPassed s.cpsr c = false →
    exec i s = .next (s.setReg 15 (s.reg 15 + widthFor i.instrSet)) ∧ dataRequests i s = []

/-! ### The branch primitive and the advance -/

/-- `Branch(a)` writes `a` plus the pipeline offset of the current set to `x[15]` and nothing else (R138). -/
def Obligations.BranchWritesThePcView : Prop :=
  ∀ (s : State) (a : Word), (s.branch a).reg 15 = a + offsetFor (s.cpsr.getLsbD 5) ∧
    RegsKept s (s.branch a) [15] ∧ (s.branch a).cpsr = s.cpsr ∧ MemKept s (s.branch a) ∧ RestKept s (s.branch a)

/-- The fetch address is the PC-view minus the current pipeline offset, and the fetch writes nothing (R241). -/
def Obligations.FetchAddressIsThePcViewMinusTheOffset : Prop :=
  ∀ s : State, s.fetchAddr = s.reg 15 - offsetFor (s.cpsr.getLsbD 5) ∧ ∀ code u, fetch s = .ok code u → u = s

/-- The program-counter update (R243): on `Continues` the PC-view advances by the width of the instruction's set, so that the
next fetch of an instruction that was fetched in its set is from the next address; on `Branched` nothing more is written; a
stop is a fault with its cause. -/
def Obligations.StatusDecidesTheAdvance : Prop :=
  ∀ (i : Instr) (s : State), i.wellFormed = true →
    (∀ t, handle i s = .ok .continues t → exec i s = .next (t.setReg 15 (t.reg 15 + widthFor i.instrSet)) ∧
      (s.instrSet = i.instrSet →
        (t.setReg 15 (t.reg 15 + widthFor i.instrSet)).fetchAddr = s.fetchAddr + widthFor i.instrSet)) ∧
      (∀ t, handle i s = .ok .branched t → exec i s = .next t) ∧
      ∀ c t, handle i s = .stop c t → exec i s = .fault c

/-- Which status an instruction returns (R166, R184, R212): `Branched` exactly when its condition passes and it is a branch
other than the first half of the compressed branch with link, an exchange, a load with register 15 in its list, or an exception
return; and a `Continues` never comes with a changed CPSR (R37). -/
def Obligations.BranchedExactlyWhenTheRulesSay : Prop :=
  ∀ (i : Instr) (s t : State) (st : Status), i.wellFormed = true → handle i s = .ok st t →
    (st = .branched ↔ (∀ c, i.cond? = some c → condPassed s.cpsr c = true) ∧
      match i with
      | .ldm _ op => op.list.getLsbD 15 = true
      | .ldmUser _ _ | .stm _ _ | .stmUser _ _ | .tBlHi _ => False
      | _ => True) ∧
    (st = .continues → t.cpsr = s.cpsr)

/-! ### Relative branches -/

/-- B, taken (R160; the displacement's width and shift are decision D6). -/
def Obligations.BBranchesRelative : Prop :=
  ∀ (c : Cond) (imm24 : BitVec 24) (s : State), condPassed s.cpsr c = true →
    ∃ t, exec (.b c imm24) s = .next t ∧
      t.reg 15 = s.reg 15 + (imm24 ++ 0#2).signExtend 32 + offsetFor (s.cpsr.getLsbD 5) ∧
      RegsKept s t [15] ∧ t.cpsr = s.cpsr ∧ MemKept s t ∧ RestKept s t

/-- BL, taken (R161; the link value is decision D7). -/
def Obligations.BlLinksAndBranches : Prop :=
  ∀ (c : Cond) (imm24 : BitVec 24) (s : State), condPassed s.cpsr c = true →
    ∃ t, exec (.bl c imm24) s = .next t ∧ t.reg 14 = s.reg 15 - 4#32 ∧
      t.reg 15 = s.reg 15 + (imm24 ++ 0#2).signExtend 32 + offsetFor (s.cpsr.getLsbD 5) ∧
      RegsKept s t [15, phys s.bankSel 14] ∧ t.cpsr = s.cpsr ∧ MemKept s t ∧ RestKept s t

/-- T_B (R162) and T_BCC, taken (R163; displacements are decision D6). -/
def Obligations.CompressedBranchesAreRelative : Prop :=
  (∀ (imm11 : BitVec 11) (s : State), ∃ t, exec (.tB imm11) s = .next t ∧
      t.reg 15 = s.reg 15 + (imm11 ++ 0#1).signExtend 32 + offsetFor (s.cpsr.getLsbD 5) ∧
      RegsKept s t [15] ∧ t.cpsr = s.cpsr ∧ MemKept s t ∧ RestKept s t) ∧
    ∀ (c : Cond) (imm8 : BitVec 8) (s : State), c ≠ .al → c ≠ .nv → condPassed s.cpsr c = true →
      ∃ t, exec (.tBcc c imm8) s = .next t ∧
        t.reg 15 = s.reg 15 + (imm8 ++ 0#1).signExtend 32 + offsetFor (s.cpsr.getLsbD 5) ∧
        RegsKept s t [15] ∧ t.cpsr = s.cpsr ∧ MemKept s t ∧ RestKept s t

/-- T_BL_HI stages the PC-view plus the shifted signed half in the link register and continues (R164, decision D8). -/
def Obligations.BlHiStagesThePartialTarget : Prop :=
  ∀ (imm11 : BitVec 11) (s : State), ∃ t, exec (.tBlHi imm11) s = .next t ∧
    t.reg 14 = s.reg 15 + (imm11 ++ 0#12).signExtend 32 ∧ t.reg 15 = s.reg 15 + 2#32 ∧
    RegsKept s t [15, phys s.bankSel 14] ∧ t.cpsr = s.cpsr ∧ MemKept s t ∧ RestKept s t

/-- T_BL_LO branches to the staged value plus its half and leaves the marked return address in the link register (R165; the
half's width and shift are decision D6). -/
def Obligations.BlLoLinksAndBranches : Prop :=
  ∀ (imm11 : BitVec 11) (s : State), ∃ t, exec (.tBlLo imm11) s = .next t ∧
    t.reg 14 = (s.reg 15 - 2#32) ||| 1#32 ∧
    t.reg 15 = s.reg 14 + (imm11 ++ 0#1).setWidth 32 + offsetFor (s.cpsr.getLsbD 5) ∧
    RegsKept s t [15, phys s.bankSel 14] ∧ t.cpsr = s.cpsr ∧ MemKept s t ∧ RestKept s t

/-- The two halves of the compressed branch with link, one after the other in the compressed set, are one relative branch by
the 23-bit displacement they hold together (R164, R165, R110; decisions D6, D8), with the address after the pair, marked, as
the link value. -/
def Obligations.BlPairIsOneRelativeBranch : Prop :=
  ∀ (hi lo : BitVec 11) (s : State), s.cpsr.getLsbD 5 = true →
    ∃ t u, exec (.tBlHi hi) s = .next t ∧ exec (.tBlLo lo) t = .next u ∧
      u.fetchAddr = s.reg 15 + (hi ++ lo ++ 0#1).signExtend 32 ∧ u.reg 14 = s.reg 15 ||| 1#32 ∧
      RegsKept s u [15, phys s.bankSel 14] ∧ u.cpsr = s.cpsr ∧ MemKept s u ∧ RestKept s u

/-! ### Branch-exchange -/

/-- BX when its condition passes, and T_BX: `T` from the target's low bit, the target with that bit cleared, the new set's
offset; BX whose condition fails continues with no other change (R180, R182). -/
def Obligations.ExchangeTakesTFromTheTarget : Prop :=
  ∀ (i : Instr) (rm : RegIdx) (s : State),
    (((∃ c, i = .bx c rm ∧ condPassed s.cpsr c = true) ∨ i = .tBx rm) →
      ∃ t, exec i s = .next t ∧ t.cpsr.getLsbD 5 = (s.reg rm).getLsbD 0 ∧
        t.reg 15 = (s.reg rm &&& 0xFFFFFFFE#32) + offsetFor ((s.reg rm).getLsbD 0) ∧
        RegsKept s t [15] ∧ CpsrKeptButT s t ∧ MemKept s t ∧ RestKept s t) ∧
      ∀ c, i = .bx c rm → condPassed s.cpsr c = false → exec i s = .next (s.setReg 15 (s.reg 15 + 4#32))

/-- BLX_REG when its condition passes (R181; the link value is decision D7, the order of reading decision D18): also where
the target register is the link register. -/
def Obligations.BlxRegLinksAndExchanges : Prop :=
  ∀ (c : Cond) (rm : RegIdx) (s : State), condPassed s.cpsr c = true →
    ∃ t, exec (.blxReg c rm) s = .next t ∧ t.reg 14 = s.reg 15 - 4#32 ∧ t.cpsr.getLsbD 5 = (s.reg rm).getLsbD 0 ∧
      t.reg 15 = (s.reg rm &&& 0xFFFFFFFE#32) + offsetFor ((s.reg rm).getLsbD 0) ∧
      RegsKept s t [15, phys s.bankSel 14] ∧ CpsrKeptButT s t ∧ MemKept s t ∧ RestKept s t

/-- T_BLX_REG (R183; the order of reading is decision D18). -/
def Obligations.CompressedBlxLinksAndExchanges : Prop :=
  ∀ (rm : RegIdx) (s : State),
    ∃ t, exec (.tBlxReg rm) s = .next t ∧ t.reg 14 = ((s.reg 15 - 2#32) ||| 1#32) ∧
      t.cpsr.getLsbD 5 = (s.reg rm).getLsbD 0 ∧
      t.reg 15 = (s.reg rm &&& 0xFFFFFFFE#32) + offsetFor ((s.reg rm).getLsbD 0) ∧
      RegsKept s t [15, phys s.bankSel 14] ∧ CpsrKeptButT s t ∧ MemKept s t ∧ RestKept s t

/-- After `Branch(a)` the next fetch address is `a` (R140); the round trip of R184: after any of the four exchanges that runs it is
the target register's value with its low bit cleared. -/
def Obligations.NextFetchIsTheBranchTarget : Prop :=
  (∀ (s : State) (a : Word), (s.branch a).fetchAddr = a) ∧
    ∀ (i : Instr) (rm : RegIdx) (s t : State),
      ((∃ c, (i = .bx c rm ∨ i = .blxReg c rm) ∧ condPassed s.cpsr c = true) ∨ i = .tBx rm ∨ i = .tBlxReg rm) →
      exec i s = .next t → t.fetchAddr = s.reg rm &&& 0xFFFFFFFE#32 ∧ psrT t.cpsr = (s.reg rm).getLsbD 0

/-! ### Block transfers -/

/-- The four cases of the resolver (R136), with wrapping arithmetic. -/
def Obligations.ResolverFollowsItsTable : Prop :=
  ∀ (base : Word) (n : Nat), n ≤ 16 →
    resolve base n false true = (base, base + BitVec.ofNat 32 (4 * n)) ∧
    resolve base n true true = (base + 4#32, base + BitVec.ofNat 32 (4 * n)) ∧
    resolve base n false false = (base - BitVec.ofNat 32 (4 * n) + 4#32, base - BitVec.ofNat 32 (4 * n)) ∧
    resolve base n true false = (base - BitVec.ofNat 32 (4 * n), base - BitVec.ofNat 32 (4 * n))

/-- LDM without register 15 in its list (R201; R206). -/
def Obligations.LdmLoadsTheListedRegisters : Prop :=
  ∀ (c : Cond) (op : BlockOp) (s : State), condPassed s.cpsr c = true → op.list.getLsbD 15 = false → Transfers op s →
    ∃ t, exec (.ldm c op) s = .next t ∧ LoadedIn s.bankSel op s t ∧
      (op.w = true → op.list.getLsbD op.rn.val = false → t.reg op.rn = writebackOf op s) ∧
      t.reg 15 = s.reg 15 + 4#32 ∧ LoadFrame s.bankSel op op.w s t ∧ t.cpsr = s.cpsr ∧ MemKept s t ∧ RestKept s t

/-- LDM with register 15 in its list (R201): it also exchanges to the last word. -/
def Obligations.LdmWithPcExchangesToTheLoadedWord : Prop :=
  ∀ (c : Cond) (op : BlockOp) (s : State), condPassed s.cpsr c = true → op.list.getLsbD 15 = true → Transfers op s →
    ∃ t v, exec (.ldm c op) s = .next t ∧ v = s.wordAt (wordAddr (startOf op s) (count op.list - 1)) ∧
      LoadedIn s.bankSel op s t ∧
      (op.w = true → op.list.getLsbD op.rn.val = false → t.reg op.rn = writebackOf op s) ∧
      t.cpsr.getLsbD 5 = v.getLsbD 0 ∧ t.reg 15 = (v &&& 0xFFFFFFFE#32) + offsetFor (v.getLsbD 0) ∧
      LoadFrame s.bankSel op op.w s t ∧ CpsrKeptButT s t ∧ MemKept s t ∧ RestKept s t

/-- Loading into the base register wins over the writeback (R206), in LDM and in LDM_RET, where the base's copy is that of the
mode being left; in LDM_USER the user copy is loaded, and the base's own copy, where it is another, is left alone. -/
def Obligations.LoadedBaseWinsOverWriteback : Prop :=
  ∀ (c : Cond) (op : BlockOp) (s t : State), condPassed s.cpsr c = true → op.list.getLsbD op.rn.val = true →
    (exec (.ldm c op) s = .next t ∨ exec (.ldmRet c op) s = .next t →
      t.physReg (phys s.bankSel op.rn) = s.wordAt (wordAddr (startOf op s) (rank op.list op.rn))) ∧
    (exec (.ldmUser c op) s = .next t →
      t.physReg (phys .usr op.rn) = s.wordAt (wordAddr (startOf op s) (rank op.list op.rn)) ∧
        (phys s.bankSel op.rn ≠ phys .usr op.rn → t.physReg (phys s.bankSel op.rn) = s.physReg (phys s.bankSel op.rn)))

/-- LDM_USER (R202; the base is read in the current bank, decision D28): the user copies are loaded, `W` is ignored, the bank
selection and CPSR are as before. -/
def Obligations.LdmUserLoadsTheUserBank : Prop :=
  ∀ (c : Cond) (op : BlockOp) (s : State), condPassed s.cpsr c = true → op.list.getLsbD 15 = false → Transfers op s →
    ∃ t, exec (.ldmUser c op) s = .next t ∧ LoadedIn .usr op s t ∧ t.reg 15 = s.reg 15 + 4#32 ∧
      LoadFrame .usr op false s t ∧ t.cpsr = s.cpsr ∧ MemKept s t ∧ RestKept s t

/-- LDM_RET from an exception mode whose SPSR entry holds a mode (R203, decisions D4 and D15): the loads and the writeback are
in the bank of the mode being left, CPSR becomes the entry whole, the bank follows the restored mode, the branch goes to the
last word with its low bit cleared, with the restored `T`'s offset; no SPSR entry changes. -/
def Obligations.LdmRetRestoresCpsrAndBank : Prop :=
  ∀ (c : Cond) (op : BlockOp) (s : State) (k : Fin 5) (b : Bank), condPassed s.cpsr c = true →
    op.list.getLsbD 15 = true → Transfers op s → spsrIndex (psrMode s.cpsr) = some k →
    bankOf (psrMode s.spsr[k.val]) = some b →
    ∃ t, exec (.ldmRet c op) s = .next t ∧ LoadedIn s.bankSel op s t ∧
      (op.w = true → op.list.getLsbD op.rn.val = false → t.physReg (phys s.bankSel op.rn) = writebackOf op s) ∧
      t.cpsr = s.spsr[k.val] ∧ t.bankSel = b ∧
      t.reg 15 = (s.wordAt (wordAddr (startOf op s) (count op.list - 1)) &&& 0xFFFFFFFE#32) +
        offsetFor (s.spsr[k.val].getLsbD 5) ∧
      LoadFrame s.bankSel op op.w s t ∧ MemKept s t ∧ t.spsr = s.spsr ∧ t.halted = s.halted ∧ t.unadmitted = s.unadmitted

/-- STM (R204): each listed register's word in ascending order, the base's original value where it is listed (R208, decision
D17), the PC-view for register 15 (R209); then the writeback. -/
def Obligations.StmStoresTheListedRegisters : Prop :=
  ∀ (c : Cond) (op : BlockOp) (s : State), Memory.wf s.mem = true → condPassed s.cpsr c = true → Transfers op s →
    ∃ t, exec (.stm c op) s = .next t ∧ StoredFrom (fun i => s.reg i) op s t ∧
      (op.w = true → t.reg op.rn = writebackOf op s) ∧ t.reg 15 = s.reg 15 + 4#32 ∧
      RegsKept s t (15 :: if op.w then [phys s.bankSel op.rn] else []) ∧ t.cpsr = s.cpsr ∧ RestKept s t

/-- STM_USER (R205; the base from the current bank is decision D28): the user copies and the PC-view are stored, no register but
15 changes, the bank selection is as before. -/
def Obligations.StmUserStoresTheUserBank : Prop :=
  ∀ (c : Cond) (op : BlockOp) (s : State), Memory.wf s.mem = true → condPassed s.cpsr c = true → Transfers op s →
    ∃ t, exec (.stmUser c op) s = .next t ∧ StoredFrom (fun i => s.bankReg .usr i) op s t ∧
      t.reg 15 = s.reg 15 + 4#32 ∧ RegsKept s t [15] ∧ t.cpsr = s.cpsr ∧ RestKept s t

/-- Base register 15 or an empty list, once the condition passed, is UnpredictableForm in all five transfers (R207, decision
D16), whatever else would stop them (R268). -/
def Obligations.RefusedFormsAreUnpredictable : Prop :=
  ∀ (i : Instr) (c : Cond) (op : BlockOp) (s : State), i.wellFormed = true → blockForm i = some (c, op) →
    condPassed s.cpsr c = true → op.rn = 15 ∨ op.list = 0#16 → exec i s = .fault .unpredictableForm ∧ dataRequests i s = []

/-- The exception-return load in User or System mode is NoSpsr before any transfer (R203, decision D15). -/
def Obligations.LdmRetWithoutSpsrStops : Prop :=
  ∀ (c : Cond) (op : BlockOp) (s : State), condPassed s.cpsr c = true → op.rn ≠ 15 → op.list.getLsbD 15 = true →
    psrMode s.cpsr = 0b10000#5 ∨ psrMode s.cpsr = 0b11111#5 →
    exec (.ldmRet c op) s = .fault .noSpsr ∧ dataRequests (.ldmRet c op) s = []

/-- The exception-return load whose SPSR entry holds a reserved mode is BadMode, after its loads, with CPSR replaced and the
bank selection as it was (R134, R203, decision D15). -/
def Obligations.LdmRetToReservedModeStops : Prop :=
  ∀ (c : Cond) (op : BlockOp) (s : State) (k : Fin 5), condPassed s.cpsr c = true → op.list.getLsbD 15 = true →
    Transfers op s → spsrIndex (psrMode s.cpsr) = some k → bankOf (psrMode s.spsr[k.val]) = none →
    exec (.ldmRet c op) s = .fault .badMode ∧
      ∃ u, handle (.ldmRet c op) s = .stop .badMode u ∧ LoadedIn s.bankSel op s u ∧ u.cpsr = s.spsr[k.val] ∧
        u.bankSel = s.bankSel ∧ u.reg 15 = s.reg 15

/-- A block transfer from a start that is no multiple of 4 is MisalignedData and reaches the port with no data access (R65,
decision D11). -/
def Obligations.MisalignedTransferStops : Prop :=
  ∀ (i : Instr) (c : Cond) (op : BlockOp) (s : State), i.wellFormed = true → blockForm i = some (c, op) →
    condPassed s.cpsr c = true → op.rn ≠ 15 → op.list ≠ 0#16 → ReturnPossible i s →
    (s.reg op.rn).extractLsb' 0 2 ≠ 0#2 → exec i s = .fault .misalignedData ∧ dataRequests i s = []

/-- A block transfer one of whose words the memory unit does not admit is MemoryFault (R71, decision D20). -/
def Obligations.UnadmittedTransferFaults : Prop :=
  ∀ (i : Instr) (c : Cond) (op : BlockOp) (s : State) (j : Nat), i.wellFormed = true → blockForm i = some (c, op) →
    condPassed s.cpsr c = true → op.rn ≠ 15 → op.list ≠ 0#16 → ReturnPossible i s →
    (s.reg op.rn).extractLsb' 0 2 = 0#2 → j < count op.list → ¬ Admitted s (wordAddr (startOf op s) j) →
    exec i s = .fault .memoryFault

/-- The port requests of a transfer that runs to its end: one word access per listed register, the `j`-th at `start + 4j`, in
that order and no other (R211, R66, R67). -/
def Obligations.TransferRequestsAreInOrder : Prop :=
  ∀ (i : Instr) (c : Cond) (op : BlockOp) (s : State), i.wellFormed = true → blockForm i = some (c, op) →
    condPassed s.cpsr c = true → ReturnPossible i s → Transfers op s →
    (dataRequests i s).length = count op.list ∧
      ∀ r : RegIdx, op.list.getLsbD r.val = true →
        (dataRequests i s)[rank op.list r]? =
          some (match i with
            | .stm _ _ => .write .word (wordAddr (startOf op s) (rank op.list r)) (storedValue false s r)
            | .stmUser _ _ => .write .word (wordAddr (startOf op s) (rank op.list r)) (storedValue true s r)
            | _ => .read .word (wordAddr (startOf op s) (rank op.list r)))

/-! ### Memory -/

/-- Little-endian order (R79, decision D10): a word stored is read back, and its byte `k` lies at `a + k`, modulo 2^32 (R68). -/
def Obligations.WordsAreLittleEndian : Prop :=
  ∀ (s : State) (a v : Word), Memory.wf s.mem = true →
    (s.setWord a v).wordAt a = v ∧
      (∀ k < 4, (s.setWord a v).byteAt (a + BitVec.ofNat 32 k) = v.extractLsb' (8 * k) 8) ∧
      (s.setWord a v).halfAt a = v.extractLsb' 0 16 ∧ (s.setWord a v).halfAt (a + 2#32) = v.extractLsb' 16 16 ∧
      ∀ x : Word, ¬ (x - a).toNat < 4 → (s.setWord a v).byteAt x = s.byteAt x

/-- Fetch coherence (R75, R302): any word a store-multiple stored is what a later fetch at its address reads, as a word in the
primary set and as its two halves in the compressed set (R79). -/
def Obligations.StoredWordsAreFetched : Prop :=
  ∀ (c : Cond) (op : BlockOp) (s t u : State) (i : RegIdx) (a : Word), Memory.wf s.mem = true →
    condPassed s.cpsr c = true → op.list.getLsbD i.val = true → exec (.stm c op) s = .next t →
    a = wordAddr (startOf op s) (rank op.list i) → u.mem = t.mem → u.unadmitted = [] →
    (psrT u.cpsr = false → u.fetchAddr = a → fetch u = .ok (.word (s.reg i)) u) ∧
      (psrT u.cpsr = true → u.fetchAddr = a → fetch u = .ok (.half ((s.reg i).extractLsb' 0 16)) u) ∧
      (psrT u.cpsr = true → u.fetchAddr = a + 2#32 → fetch u = .ok (.half ((s.reg i).extractLsb' 16 16)) u)

/-- The port's record of a step, whatever the decoder, the parameters and the external handler (R248, R72, R246 (b)): when the
step answers, its effect on memory is exactly that of its write requests in their order, and its first request is the fetch
(R63); and a request with a byte the memory unit does not admit is a MemoryFault (R71, decision D20), so that a step that
answers makes none. -/
def Obligations.StepWritesWhatItsRequestsSay : Prop :=
  ∀ (p : Params) (s : State),
    (∀ t, stepWith p s = .next t →
      t.mem = (stepRequests p s).foldl applyRequest s.mem ∧
        (stepRequests p s).head? = some (.fetch (if psrT s.cpsr then .half else .word) s.fetchAddr)) ∧
      ∀ r ∈ stepRequests p s, s.admits r.addr r.width.bytes = false → stepWith p s = .fault .memoryFault

/-! ### The step -/

/-- When the bytes at the fetch address decode, the step is `exec` of what they decode to, at the state as it is: the fetch
writes nothing and the advance is within `exec` (R240). With another decoder and other parameters it is `exec` of the
descriptor they give for the value fetched (R92). -/
def Obligations.StepRunsTheDecodedInstruction : Prop :=
  ∀ (s : State) (i : Instr), s.halted = none →
    (psrT s.cpsr = false → s.fetchAddr.extractLsb' 0 2 = 0#2 → s.admits s.fetchAddr 4 = true →
      decodeBytes false .primary [s.byteAt s.fetchAddr, s.byteAt (s.fetchAddr + 1#32), s.byteAt (s.fetchAddr + 2#32),
        s.byteAt (s.fetchAddr + 3#32)] = .ok (i, []) → step s = exec i s) ∧
    (psrT s.cpsr = true → s.fetchAddr.getLsbD 0 = false → s.admits s.fetchAddr 2 = true →
      decodeBytes false .compressed [s.byteAt s.fetchAddr, s.byteAt (s.fetchAddr + 1#32)] = .ok (i, []) →
        step s = exec i s) ∧
    ∀ (p : Params) (code : Code) (u : State), fetch s = .ok code u → describe p.refuseCondNv p.decode code = some i →
      stepWith p s = exec i s

/-- A misaligned fetch address stops before any access, an unadmitted one on the fetch, in that order (R64, R240, R268;
decisions D12, D20, D35). -/
def Obligations.FetchStopsInOrder : Prop :=
  ∀ (p : Params) (s : State), s.halted = none →
    (psrT s.cpsr = false ∧ s.fetchAddr.extractLsb' 0 2 ≠ 0#2 ∨ psrT s.cpsr = true ∧ s.fetchAddr.getLsbD 0 = true →
      stepWith p s = .fault .misalignedFetch ∧ stepRequests p s = [] ∧ cycle p s = { s with halted := some .misalignedFetch }) ∧
    (psrT s.cpsr = false ∧ s.fetchAddr.extractLsb' 0 2 = 0#2 ∧ s.admits s.fetchAddr 4 = false ∨
        psrT s.cpsr = true ∧ s.fetchAddr.getLsbD 0 = false ∧ s.admits s.fetchAddr 2 = false →
      stepWith p s = .fault .memoryFault ∧ cycle p s = { s with halted := some .memoryFault })

/-- An unknown value that no external handler takes stops with UnknownTag; nothing but the latch changes, and the fetch read has
been made (R244). -/
def Obligations.UnknownTagStopsWithoutEffect : Prop :=
  ∀ (p : Params) (s u : State) (code : Code), s.halted = none → fetch s = .ok code u →
    describe p.refuseCondNv p.decode code = none →
    (p.ext = none ∨ ∃ h, p.ext = some h ∧ h (codeSet code) (codeRaw code) s.extRegs = none) →
    stepWith p s = .fault .unknownTag ∧ cycle p s = { s with halted := some .unknownTag } ∧
      stepRequests p s = [.fetch (if psrT s.cpsr then .half else .word) s.fetchAddr]

/-- The reserved rows of the table have no meaning: UnknownTag (R106, R244; decision D31). -/
def Obligations.ReservedRowsAreUnknownTags : Prop :=
  ∀ (low : BitVec 8) (s : State), exec (.tReservedCond14 low) s = .fault .unknownTag ∧
    exec (.tReservedCond15 low) s = .fault .unknownTag

/-- An external handler is handed what `Decode` does not know, and the dispatcher treats its status like any other; a stop in it
is the step's (R246, R242, decision D22). -/
def Obligations.ExternalHandlerIsDispatched : Prop :=
  ∀ (p : Params) (h : ExtHandler) (run : ExtRun) (s t u : State) (code : Code), s.halted = none → fetch s = .ok code u →
    describe p.refuseCondNv p.decode code = none → p.ext = some h →
    h (codeSet code) (codeRaw code) s.extRegs = some run →
    (runExt run s = .ok .continues t → stepWith p s = .next (t.setReg 15 (t.reg 15 + widthFor (codeSet code)))) ∧
      (runExt run s = .ok .branched t → stepWith p s = .next t) ∧
      ∀ c, runExt run s = .stop c t → stepWith p s = .fault c ∧ cycle p s = { t with halted := some c }

/-- The only refusal is of a descriptor the decoder contract cannot produce (93 U28; that `exec` refuses it by the name `illFormed`
is the model's DESIGN CHOICE, log 12). And no step refuses, whatever the decoder, the parameters and the state: for a decoder
that answers such a descriptor this is the model's DESIGN CHOICE of log 13, by which the step takes the answer as `Unknown`,
where U28 has it refused; for the decoder of 30 R92 it needs no choice, since that decoder answers none. -/
def Obligations.OnlyIllFormedDescriptorsAreRefused : Prop :=
  (∀ (i : Instr) (s : State) (r : Refusal), exec i s = .refused r ↔ i.wellFormed = false ∧ r = .illFormed) ∧
    ∀ (p : Params) (s : State) (r : Refusal), stepWith p s ≠ .refused r

/-- The latch and the outcome agree (R260, R39; decision D24): a step that answers leaves the state it answers, one that stops
latches its cause; and a stopped machine has no step, stays as it is, for ever, and is never the end of a run, whatever STOP says
(R245). A run has ended where STOP holds of a machine that is not stopped, and stays there; from any other machine that is
not stopped the run loop goes on with the step (R245). -/
def Obligations.FatalStopLatchesForEver : Prop :=
  ∀ (p : Params) (s : State),
    (s.halted = none → (∀ t, stepWith p s = .next t → cycle p s = t) ∧
      ∀ c, stepWith p s = .fault c → (cycle p s).halted = some c) ∧
    (∀ c, s.halted = some c →
      stepWith p s = .fault c ∧ cycle p s = s ∧ (∀ n, runFor p n s = s) ∧ finished p s = false) ∧
    (s.halted = none → p.stopWhen s = true → finished p s = true ∧ ∀ n, runFor p n s = s) ∧
    (s.halted = none → p.stopWhen s = false →
      finished p s = false ∧ ∀ n, runFor p (n + 1) s = runFor p n (cycle p s))

/-- The placing of a word (log 8): the very next step runs the instruction the decoder reads from it, for any state. -/
def Obligations.PlacedWordRunsNext : Prop :=
  ∀ (s : State) (nbits w : Nat) (i : Instr), Memory.wf s.mem = true → decodeTableWord nbits w = some i →
    step (s.withFetchWord nbits w) = exec i (s.withFetchWord nbits w)

/-! ### Reset and whole-machine rules -/

/-- What reset leaves (R290; that the default privileged mode is Supervisor is decision D3): the four things it sets, the bank,
the latch; every other register, PSR bit and byte is INIT's (R293). The first fetch is from the entry address (R291). -/
def Obligations.ResetSetsWhatTheRuleSays : Prop :=
  ∀ (entry : Word) (init : State),
    (State.launch entry init).reg 15 = entry + 8#32 ∧ (State.launch entry init).fetchAddr = entry ∧
    psrMode (State.launch entry init).cpsr = 0b10011#5 ∧ psrT (State.launch entry init).cpsr = false ∧
    psrI (State.launch entry init).cpsr = true ∧ psrF (State.launch entry init).cpsr = true ∧
    (State.launch entry init).bankSel = .svc ∧ (State.launch entry init).halted = none ∧
    RegsKept init (State.launch entry init) [15] ∧
    (∀ n, 8 ≤ n → (State.launch entry init).cpsr.getLsbD n = init.cpsr.getLsbD n) ∧
    (State.launch entry init).spsr = init.spsr ∧ (State.launch entry init).mem = init.mem ∧
    (State.launch entry init).unadmitted = init.unadmitted

/-- Reset meets the invariant, whatever ENTRY and INIT, if INIT's memory is canonical; `State.reset` does (R26, R290). -/
def Obligations.ResetMeetsTheInvariant : Prop :=
  (∀ (entry : Word) (init : State), Memory.wf init.mem = true → (State.launch entry init).Inv) ∧ State.reset.Inv

/-- Every step keeps the invariant: the bank selected is the mode's, so the mode is one of the seven (R26, R33; decision D2),
the memory is canonical (the model's own form, log 2), and the machine has not stopped (R39). -/
def Obligations.StepKeepsTheInvariant : Prop := ∀ s t : State, s.Inv → step s = .next t → t.Inv

/-- An external handler that keeps the contract of R246 keeps the invariant too, whatever the decoder. -/
def Obligations.ContractedHandlerKeepsTheInvariant : Prop :=
  ∀ (p : Params) (condOf : InstrSet → Word → Option Cond) (s t : State), s.Inv →
    (∀ h, p.ext = some h → ExtContract condOf h) → stepWith p s = .next t → t.Inv

/-- How CPSR changes (R34, R37, R184, R271): not at all; in `T` alone, by one of the four exchanges or an LDM with register 15
listed, its condition passed; or whole, by an exception return that runs, which makes it the SPSR entry of the mode being
left. -/
def Obligations.CpsrChangesOnlyByExchangeOrReturn : Prop :=
  ∀ (i : Instr) (s t : State), exec i s = .next t →
    t.cpsr = s.cpsr ∨
      (CpsrKeptButT s t ∧ Exchanges i ∧ ∀ c, i.cond? = some c → condPassed s.cpsr c = true) ∨
      ∃ c op k, i = .ldmRet c op ∧ condPassed s.cpsr c = true ∧ spsrIndex (psrMode s.cpsr) = some k ∧ t.cpsr = s.spsr[k.val]

/-- In User mode no instruction changes the mode, the masks or the flags (R274). -/
def Obligations.UserModeCannotChangeItsMode : Prop :=
  ∀ (i : Instr) (s t : State), psrMode s.cpsr = 0b10000#5 → exec i s = .next t →
    CpsrKeptButT s t ∧ t.bankSel = s.bankSel

/-- No instruction writes an SPSR entry, the stop latch or the memory unit's ranges (R36, R272). -/
def Obligations.SpsrEntriesAreNeverWritten : Prop :=
  ∀ (i : Instr) (s t : State), exec i s = .next t →
    t.spsr = s.spsr ∧ t.halted = s.halted ∧ t.unadmitted = s.unadmitted

/-- In a state whose bank selection is the mode's, no branch, exchange or ordinary transfer writes a register copy that the
current selection does not show (R25, R27); the forced-user load may write user copies only. -/
def Obligations.HiddenCopiesAreNotWritten : Prop :=
  ∀ (i : Instr) (s t : State) (p : PhysReg), exec i s = .next t → (∀ r : RegIdx, p ≠ phys s.bankSel r) →
    (∀ c op, i = .ldmUser c op → ∀ r : RegIdx, op.list.getLsbD r.val = true → p ≠ phys .usr r) →
    t.physReg p = s.physReg p

/-- User mode learns nothing of the privileged register copies and the SPSR entries (R25, R203, R274): from two states that
differ in those alone, a step stops alike, or answers states that differ in those alone. -/
def Obligations.UserStepDependsOnUserStateOnly : Prop :=
  ∀ s t : State, UserEqual s t → psrMode s.cpsr = 0b10000#5 → s.bankSel = .usr →
    (∀ c, step s = .fault c ↔ step t = .fault c) ∧
      ∀ s', step s = .next s' → ∃ t', step t = .next t' ∧ UserEqual s' t'
end

