-- ==== Sys2Proof/Laws/Encoding.lean ====
section
/-! SUPPORT. The fields of a value made of parts, and the parts of a value cut into fields: what the decoder and the encoder
need of each other (30 R93 to R99). -/

namespace Sys2Proof

/-! ### Fields of concatenations -/

/-- A field of the upper part. -/
theorem extract_append_hi {w v : Nat} (x : BitVec w) (y : BitVec v) (s l : Nat) (h : v ≤ s) :
    (x ++ y).extractLsb' s l = x.extractLsb' (s - v) l := by
  apply BitVec.eq_of_getLsbD_eq
  intro i hi
  simp [BitVec.getLsbD_append, hi, show ¬ s + i < v by omega, show s + i - v = s - v + i by omega]

/-- A field of the lower part. -/
theorem extract_append_lo {w v : Nat} (x : BitVec w) (y : BitVec v) (s l : Nat) (h : s + l ≤ v) :
    (x ++ y).extractLsb' s l = y.extractLsb' s l := by
  apply BitVec.eq_of_getLsbD_eq
  intro i hi
  simp [BitVec.getLsbD_append, hi, show s + i < v by omega]

/-- A bit of the upper part. -/
theorem bit_append_hi {w v : Nat} (x : BitVec w) (y : BitVec v) (s : Nat) (h : v ≤ s) :
    (x ++ y).getLsbD s = x.getLsbD (s - v) := by
  simp [BitVec.getLsbD_append, Nat.not_lt.mpr h]

/-- A bit of the lower part. -/
theorem bit_append_lo {w v : Nat} (x : BitVec w) (y : BitVec v) (s : Nat) (h : s < v) :
    (x ++ y).getLsbD s = y.getLsbD s := by
  simp [BitVec.getLsbD_append, h]

/-- A field of a field. -/
theorem extract_extract {w : Nat} (x : BitVec w) (s l s' l' : Nat) (h : s' + l' ≤ l) :
    (x.extractLsb' s l).extractLsb' s' l' = x.extractLsb' (s + s') l' := by
  apply BitVec.eq_of_getLsbD_eq
  intro i hi
  simp [hi, show s' + i < l by omega, Nat.add_assoc]

/-- A field that differs from a constant in some of its bits differs from it. -/
theorem extract_ne {w l : Nat} {x : BitVec w} {k : BitVec l} {s : Nat} (s' l' : Nat) (h : s' + l' ≤ l)
    (hk : x.extractLsb' (s + s') l' ≠ k.extractLsb' s' l') : x.extractLsb' s l ≠ k := by
  rintro rfl
  exact hk (extract_extract _ _ _ _ _ h).symm

/-- Two neighbouring fields are one. -/
theorem extract_join {w : Nat} (x : BitVec w) (s l l' : Nat) :
    x.extractLsb' (s + l) l' ++ x.extractLsb' s l = x.extractLsb' s (l' + l) := by
  apply BitVec.eq_of_getLsbD_eq
  intro i hi
  simp only [BitVec.getLsbD_append, BitVec.getLsbD_extractLsb']
  by_cases h : i < l
  · simp [h, hi]
  · simp [h, hi, show i - l < l' by omega, show s + l + (i - l) = s + i by omega]

/-! ### Conditions, bits, bytes -/

@[simp] theorem condOfBits_condBits (c : Cond) : condOfBits (condBits c) = c := by cases c <;> rfl

@[simp] theorem condBits_condOfBits (c : BitVec 4) : condBits (condOfBits c) = c := by revert c; decide

@[simp] theorem bitField_bit (b : Bool) : (bitField b).getLsbD 0 = b := by cases b <;> rfl

theorem bitField_getLsbD (x : Word) (k : Nat) : bitField (x.getLsbD k) = x.extractLsb' k 1 := by
  apply BitVec.eq_of_getLsbD_eq
  intro i hi
  obtain rfl : i = 0 := by omega
  simp [bitField]

/-- The bytes of a halfword give it back (20 R79). -/
theorem halfOfBytes_extract (v : Half) : halfOfBytes (v.extractLsb' 0 8) (v.extractLsb' 8 8) = v := by
  have h := extract_join v 0 8 8
  simp only [Nat.reduceAdd, BitVec.extractLsb'_eq_self] at h
  exact h

/-- The low half of a word's bytes. -/
theorem halfOfBytes_low (b0 b1 b2 b3 : Byte) : halfOfBytes b0 b1 = (wordOfBytes b0 b1 b2 b3).extractLsb' 0 16 := by
  apply BitVec.eq_of_getLsbD_eq
  intro i hi
  simp only [halfOfBytes, wordOfBytes, BitVec.getLsbD_append, BitVec.getLsbD_extractLsb', hi, Nat.zero_add]
  by_cases h : i < 8
  · simp [h]
  · simp [h, show i - 8 < 8 by omega]

/-- The high half of a word's bytes. -/
theorem halfOfBytes_high (b0 b1 b2 b3 : Byte) : halfOfBytes b2 b3 = (wordOfBytes b0 b1 b2 b3).extractLsb' 16 16 := by
  apply BitVec.eq_of_getLsbD_eq
  intro i hi
  simp only [halfOfBytes, wordOfBytes, BitVec.getLsbD_append, BitVec.getLsbD_extractLsb', hi,
    show ¬ 16 + i < 8 by omega, show ¬ 16 + i - 8 < 8 by omega, show 16 + i - 8 - 8 = i by omega]
  simp

/-! ### Format PM (30 R95, R112) -/

/-- The fields of an encoded block transfer. -/
theorem encodeBlock_fields (c : Cond) (s l : Bool) (op : BlockOp) :
    (encodeBlock c s l op).extractLsb' 28 4 = condBits c ∧ (encodeBlock c s l op).extractLsb' 25 3 = 0b100#3 ∧
      (encodeBlock c s l op).getLsbD 20 = l ∧ (encodeBlock c s l op).getLsbD 22 = s ∧
      (encodeBlock c s l op).getLsbD 15 = op.list.getLsbD 15 ∧ blockFields (encodeBlock c s l op) = op := by
  refine ⟨?_, ?_, ?_, ?_, ?_, ?_⟩
  · simp (disch := omega) only [encodeBlock, extract_append_hi, Nat.reduceSub, BitVec.extractLsb'_eq_self]
  · simp (disch := omega) only [encodeBlock, extract_append_hi, extract_append_lo, Nat.reduceSub, BitVec.extractLsb'_eq_self]
  · simp (disch := omega) only [encodeBlock, bit_append_hi, bit_append_lo, Nat.reduceSub, bitField_bit]
  · simp (disch := omega) only [encodeBlock, bit_append_hi, bit_append_lo, Nat.reduceSub, bitField_bit]
  · simp (disch := omega) only [encodeBlock, bit_append_lo]
  · simp (disch := omega) only [blockFields, encodeBlock, bit_append_hi, bit_append_lo, extract_append_hi,
      extract_append_lo, Nat.reduceSub, BitVec.extractLsb'_eq_self, bitField_bit, BitVec.toFin_ofFin]

/-- A word of format PM is the encoding of its fields. -/
theorem encodeBlock_blockFields (x : Word) (h : x.extractLsb' 25 3 = 0b100#3) :
    encodeBlock (condOfBits (x.extractLsb' 28 4)) (x.getLsbD 22) (x.getLsbD 20) (blockFields x) = x := by
  have h1 := extract_join x 25 3 4
  have h2 := extract_join x 24 1 7
  have h3 := extract_join x 23 1 8
  have h4 := extract_join x 22 1 9
  have h5 := extract_join x 21 1 10
  have h6 := extract_join x 20 1 11
  have h7 := extract_join x 16 4 12
  have h8 := extract_join x 0 16 16
  simp only [Nat.reduceAdd, BitVec.extractLsb'_eq_self] at *
  rw [encodeBlock, condBits_condOfBits, ← h]
  simp only [blockFields, bitField_getLsbD]
  rw [h1, h2, h3, h4, h5, h6]
  exact (congrArg (· ++ x.extractLsb' 0 16) h7).trans h8

end Sys2Proof
end

