-- ==== Sys2Proof/Laws/State.lean ====
section
/-! SUPPORT. One lemma per field per state update, so that no later proof unfolds a record update. -/

namespace Sys2Proof.Machine

variable (s : State)

@[simp] theorem State.setPhys_regs (p : PhysReg) (v : Word) : (s.setPhys p v).regs = s.regs.set p.val v := rfl
@[simp] theorem State.setPhys_bankSel (p : PhysReg) (v : Word) : (s.setPhys p v).bankSel = s.bankSel := rfl
@[simp] theorem State.setPhys_cpsr (p : PhysReg) (v : Word) : (s.setPhys p v).cpsr = s.cpsr := rfl
@[simp] theorem State.setPhys_spsr (p : PhysReg) (v : Word) : (s.setPhys p v).spsr = s.spsr := rfl
@[simp] theorem State.setPhys_halted (p : PhysReg) (v : Word) : (s.setPhys p v).halted = s.halted := rfl
@[simp] theorem State.setPhys_mem (p : PhysReg) (v : Word) : (s.setPhys p v).mem = s.mem := rfl
@[simp] theorem State.setPhys_unadmitted (p : PhysReg) (v : Word) : (s.setPhys p v).unadmitted = s.unadmitted := rfl

@[simp] theorem State.setReg_regs (i : RegIdx) (v : Word) : (s.setReg i v).regs = s.regs.set (phys s.bankSel i).val v := rfl
@[simp] theorem State.setReg_bankSel (i : RegIdx) (v : Word) : (s.setReg i v).bankSel = s.bankSel := rfl
@[simp] theorem State.setReg_cpsr (i : RegIdx) (v : Word) : (s.setReg i v).cpsr = s.cpsr := rfl
@[simp] theorem State.setReg_spsr (i : RegIdx) (v : Word) : (s.setReg i v).spsr = s.spsr := rfl
@[simp] theorem State.setReg_halted (i : RegIdx) (v : Word) : (s.setReg i v).halted = s.halted := rfl
@[simp] theorem State.setReg_mem (i : RegIdx) (v : Word) : (s.setReg i v).mem = s.mem := rfl
@[simp] theorem State.setReg_unadmitted (i : RegIdx) (v : Word) : (s.setReg i v).unadmitted = s.unadmitted := rfl

@[simp] theorem State.setCpsr_regs (w : Word) : (s.setCpsr w).regs = s.regs := rfl
@[simp] theorem State.setCpsr_bankSel (w : Word) : (s.setCpsr w).bankSel = s.bankSel := rfl
@[simp] theorem State.setCpsr_cpsr (w : Word) : (s.setCpsr w).cpsr = w := rfl
@[simp] theorem State.setCpsr_spsr (w : Word) : (s.setCpsr w).spsr = s.spsr := rfl
@[simp] theorem State.setCpsr_halted (w : Word) : (s.setCpsr w).halted = s.halted := rfl
@[simp] theorem State.setCpsr_mem (w : Word) : (s.setCpsr w).mem = s.mem := rfl
@[simp] theorem State.setCpsr_unadmitted (w : Word) : (s.setCpsr w).unadmitted = s.unadmitted := rfl

@[simp] theorem State.setT_regs (b : Bool) : (s.setT b).regs = s.regs := rfl
@[simp] theorem State.setT_bankSel (b : Bool) : (s.setT b).bankSel = s.bankSel := rfl
@[simp] theorem State.setT_cpsr (b : Bool) : (s.setT b).cpsr = psrSetT s.cpsr b := rfl
@[simp] theorem State.setT_spsr (b : Bool) : (s.setT b).spsr = s.spsr := rfl
@[simp] theorem State.setT_halted (b : Bool) : (s.setT b).halted = s.halted := rfl
@[simp] theorem State.setT_mem (b : Bool) : (s.setT b).mem = s.mem := rfl
@[simp] theorem State.setT_unadmitted (b : Bool) : (s.setT b).unadmitted = s.unadmitted := rfl

@[simp] theorem State.setBank_regs (b : Bank) : (s.setBank b).regs = s.regs := rfl
@[simp] theorem State.setBank_bankSel (b : Bank) : (s.setBank b).bankSel = b := rfl
@[simp] theorem State.setBank_cpsr (b : Bank) : (s.setBank b).cpsr = s.cpsr := rfl
@[simp] theorem State.setBank_spsr (b : Bank) : (s.setBank b).spsr = s.spsr := rfl
@[simp] theorem State.setBank_halted (b : Bank) : (s.setBank b).halted = s.halted := rfl
@[simp] theorem State.setBank_mem (b : Bank) : (s.setBank b).mem = s.mem := rfl
@[simp] theorem State.setBank_unadmitted (b : Bank) : (s.setBank b).unadmitted = s.unadmitted := rfl

@[simp] theorem State.setWord_regs (a v : Word) : (s.setWord a v).regs = s.regs := rfl
@[simp] theorem State.setWord_bankSel (a v : Word) : (s.setWord a v).bankSel = s.bankSel := rfl
@[simp] theorem State.setWord_cpsr (a v : Word) : (s.setWord a v).cpsr = s.cpsr := rfl
@[simp] theorem State.setWord_spsr (a v : Word) : (s.setWord a v).spsr = s.spsr := rfl
@[simp] theorem State.setWord_halted (a v : Word) : (s.setWord a v).halted = s.halted := rfl
@[simp] theorem State.setWord_mem (a v : Word) : (s.setWord a v).mem = memWriteBytes s.mem a (codeBytes (.word v)) := rfl
@[simp] theorem State.setWord_unadmitted (a v : Word) : (s.setWord a v).unadmitted = s.unadmitted := rfl

@[simp] theorem State.branch_bankSel (a : Word) : (s.branch a).bankSel = s.bankSel := rfl
@[simp] theorem State.branch_cpsr (a : Word) : (s.branch a).cpsr = s.cpsr := rfl
@[simp] theorem State.branch_spsr (a : Word) : (s.branch a).spsr = s.spsr := rfl
@[simp] theorem State.branch_halted (a : Word) : (s.branch a).halted = s.halted := rfl
@[simp] theorem State.branch_mem (a : Word) : (s.branch a).mem = s.mem := rfl
@[simp] theorem State.branch_unadmitted (a : Word) : (s.branch a).unadmitted = s.unadmitted := rfl

@[simp] theorem State.advance_bankSel (iset : InstrSet) : (s.advance iset).bankSel = s.bankSel := rfl
@[simp] theorem State.advance_cpsr (iset : InstrSet) : (s.advance iset).cpsr = s.cpsr := rfl
@[simp] theorem State.advance_spsr (iset : InstrSet) : (s.advance iset).spsr = s.spsr := rfl
@[simp] theorem State.advance_halted (iset : InstrSet) : (s.advance iset).halted = s.halted := rfl
@[simp] theorem State.advance_mem (iset : InstrSet) : (s.advance iset).mem = s.mem := rfl
@[simp] theorem State.advance_unadmitted (iset : InstrSet) : (s.advance iset).unadmitted = s.unadmitted := rfl

@[simp] theorem State.exchange_bankSel (v : Word) : (s.exchange v).bankSel = s.bankSel := rfl
@[simp] theorem State.exchange_cpsr (v : Word) : (s.exchange v).cpsr = psrSetT s.cpsr (v.getLsbD 0) := rfl
@[simp] theorem State.exchange_spsr (v : Word) : (s.exchange v).spsr = s.spsr := rfl
@[simp] theorem State.exchange_halted (v : Word) : (s.exchange v).halted = s.halted := rfl
@[simp] theorem State.exchange_mem (v : Word) : (s.exchange v).mem = s.mem := rfl
@[simp] theorem State.exchange_unadmitted (v : Word) : (s.exchange v).unadmitted = s.unadmitted := rfl

@[simp] theorem State.setValue_regs (w : PortWidth) (a v : Word) : (s.setValue w a v).regs = s.regs := rfl
@[simp] theorem State.setValue_bankSel (w : PortWidth) (a v : Word) : (s.setValue w a v).bankSel = s.bankSel := rfl
@[simp] theorem State.setValue_cpsr (w : PortWidth) (a v : Word) : (s.setValue w a v).cpsr = s.cpsr := rfl
@[simp] theorem State.setValue_spsr (w : PortWidth) (a v : Word) : (s.setValue w a v).spsr = s.spsr := rfl
@[simp] theorem State.setValue_halted (w : PortWidth) (a v : Word) : (s.setValue w a v).halted = s.halted := rfl
@[simp] theorem State.setValue_mem (w : PortWidth) (a v : Word) : (s.setValue w a v).mem = memWriteBytes s.mem a (valueBytes w v) := rfl
@[simp] theorem State.setValue_unadmitted (w : PortWidth) (a v : Word) : (s.setValue w a v).unadmitted = s.unadmitted := rfl

@[simp] theorem State.withRegs_regs (r : ExtRegs) : (s.withRegs r).regs = r.regs := rfl
@[simp] theorem State.withRegs_bankSel (r : ExtRegs) : (s.withRegs r).bankSel = r.bankSel := rfl
@[simp] theorem State.withRegs_cpsr (r : ExtRegs) : (s.withRegs r).cpsr = r.cpsr := rfl
@[simp] theorem State.withRegs_spsr (r : ExtRegs) : (s.withRegs r).spsr = r.spsr := rfl
@[simp] theorem State.withRegs_halted (r : ExtRegs) : (s.withRegs r).halted = s.halted := rfl
@[simp] theorem State.withRegs_mem (r : ExtRegs) : (s.withRegs r).mem = s.mem := rfl
@[simp] theorem State.withRegs_unadmitted (r : ExtRegs) : (s.withRegs r).unadmitted = s.unadmitted := rfl

@[simp] theorem State.extRegs_withRegs (r : ExtRegs) : (s.withRegs r).extRegs = r := rfl
@[simp] theorem State.extRegs_setValue (w : PortWidth) (a v : Word) : (s.setValue w a v).extRegs = s.extRegs := rfl
@[simp] theorem State.extRegs_regs : s.extRegs.regs = s.regs := rfl
@[simp] theorem State.extRegs_bankSel : s.extRegs.bankSel = s.bankSel := rfl
@[simp] theorem State.extRegs_cpsr : s.extRegs.cpsr = s.cpsr := rfl
@[simp] theorem State.extRegs_spsr : s.extRegs.spsr = s.spsr := rfl
@[simp] theorem State.extRegs_pc : s.extRegs.pc = s.physReg 15 := rfl
@[simp] theorem State.portFault_word (a : Word) : s.portFault .word a = s.dataFault a := rfl

@[simp] theorem State.launch_regs (entry : Word) (init : State) : (State.launch entry init).regs = init.regs.set 15 (entry + 8#32) := rfl
@[simp] theorem State.launch_bankSel (entry : Word) (init : State) : (State.launch entry init).bankSel = .svc := rfl
@[simp] theorem State.launch_cpsr (entry : Word) (init : State) : (State.launch entry init).cpsr = init.cpsr.extractLsb' 8 24 ++ 0xD3#8 := rfl
@[simp] theorem State.launch_spsr (entry : Word) (init : State) : (State.launch entry init).spsr = init.spsr := rfl
@[simp] theorem State.launch_halted (entry : Word) (init : State) : (State.launch entry init).halted = none := rfl
@[simp] theorem State.launch_mem (entry : Word) (init : State) : (State.launch entry init).mem = init.mem := rfl
@[simp] theorem State.launch_unadmitted (entry : Word) (init : State) : (State.launch entry init).unadmitted = init.unadmitted := rfl

@[simp] theorem swapBank_fst (b : Bank) : (swapBank b s).1 = s.bankSel := rfl
@[simp] theorem swapBank_snd (b : Bank) : (swapBank b s).2 = s.setBank b := rfl
@[simp] theorem retire_continues (iset : InstrSet) : retire iset .continues s = s.advance iset := rfl
@[simp] theorem retire_branched (iset : InstrSet) : retire iset .branched s = s := rfl
@[simp] theorem complete_ok (iset : InstrSet) (st : Status) : complete iset (.ok st s) = .next (retire iset st s) := rfl
@[simp] theorem complete_stop (iset : InstrSet) (c : Fault) : complete iset (.stop c s) = .fault c := rfl
@[simp] theorem settle_ok (iset : InstrSet) (st : Status) : settle iset (.ok st s) = retire iset st s := rfl
@[simp] theorem admitForm_true (o : Host.Outcome State Fault Refusal) : admitForm true o = o := rfl
@[simp] theorem Res.bind_ok {α β : Type} (a : α) (f : α → State → Res β) : (Res.ok a s).bind f = f a s := rfl
@[simp] theorem Res.bind_stop {α β : Type} (c : Fault) (f : α → State → Res β) : (Res.stop c s : Res α).bind f = .stop c s := rfl

/-- A bind answers exactly when both its parts do. -/
theorem Res.bind_eq_ok {α β : Type} {r : Res α} {f : α → State → Res β} {b : β} {t : State} :
    r.bind f = .ok b t ↔ ∃ a u, r = .ok a u ∧ f a u = .ok b t := by
  cases r <;> simp

/-- A handler's result is a next state exactly when the handler answers. -/
theorem complete_eq_next {iset : InstrSet} {r : Res Status} {t : State} :
    complete iset r = .next t ↔ ∃ st u, r = .ok st u ∧ retire iset st u = t := by
  cases r <;> simp

/-- A handler's result is a fault exactly when the handler stops. -/
theorem complete_eq_fault {iset : InstrSet} {r : Res Status} {c : Fault} :
    complete iset r = .fault c ↔ ∃ u, r = .stop c u := by
  cases r <;> simp

/-- A retired state differs in the register file alone. -/
theorem retire_frame (iset : InstrSet) (st : Status) :
    (retire iset st s).bankSel = s.bankSel ∧ (retire iset st s).cpsr = s.cpsr ∧ (retire iset st s).spsr = s.spsr ∧
      (retire iset st s).halted = s.halted ∧ (retire iset st s).mem = s.mem ∧
      (retire iset st s).unadmitted = s.unadmitted := by
  cases st <;> simp

end Sys2Proof.Machine
end

