-- ==== Sys2Proof/Laws/Registers.lean ====
section
/-! SUPPORT. The register file: which physical register a visible one is (10 R25), reads after writes, the program counter. -/

namespace Sys2Proof.Machine

variable (s : State)

/-- Register 15 has one copy (10 R22). -/
@[simp] theorem phys_fifteen (b : Bank) : phys b 15 = 15 := by cases b <;> decide

/-- Two visible registers of one bank are two physical registers. -/
theorem phys_inj (b : Bank) (i j : RegIdx) : phys b i = phys b j ↔ i = j := by
  cases b <;> revert i j <;> decide

/-- No other visible register is the program counter's. -/
theorem phys_eq_fifteen (b : Bank) (i : RegIdx) : phys b i = 15 ↔ i = 15 := by
  cases b <;> revert i <;> decide

@[simp] theorem physReg_setPhys_self (p : PhysReg) (v : Word) : (s.setPhys p v).physReg p = v := by
  simp [State.physReg]

theorem physReg_setPhys (p q : PhysReg) (v : Word) :
    (s.setPhys p v).physReg q = if q = p then v else s.physReg q := by
  by_cases h : q = p
  · subst h; simp
  · have : p.val ≠ q.val := fun e => h (Fin.ext e.symm)
    simp [State.physReg, h, Vector.getElem_set_ne, this]

@[simp] theorem physReg_setBank (b : Bank) (p : PhysReg) : (s.setBank b).physReg p = s.physReg p := rfl
@[simp] theorem physReg_setCpsr (w : Word) (p : PhysReg) : (s.setCpsr w).physReg p = s.physReg p := rfl
@[simp] theorem physReg_setT (b : Bool) (p : PhysReg) : (s.setT b).physReg p = s.physReg p := rfl
@[simp] theorem physReg_setWord (a v : Word) (p : PhysReg) : (s.setWord a v).physReg p = s.physReg p := rfl

theorem physReg_setReg (i : RegIdx) (v : Word) (q : PhysReg) :
    (s.setReg i v).physReg q = if q = phys s.bankSel i then v else s.physReg q :=
  physReg_setPhys s _ _ _

theorem physReg_branch (a : Word) (q : PhysReg) :
    (s.branch a).physReg q = if q = 15 then a + s.pcOffset else s.physReg q := by
  simp [State.branch, physReg_setReg]

theorem physReg_advance (iset : InstrSet) (q : PhysReg) :
    (s.advance iset).physReg q = if q = 15 then s.reg 15 + widthOf iset else s.physReg q := by
  simp [State.advance, physReg_setReg]

theorem pcOffset_setT (b : Bool) : (s.setT b).pcOffset = if b then 4#32 else 8#32 := by
  cases b <;> simp [State.pcOffset, State.instrSet, psrT, psrSetT, pcOffsetOf]

theorem physReg_exchange (v : Word) (q : PhysReg) :
    (s.exchange v).physReg q = if q = 15 then clearBit0 v + (if v.getLsbD 0 then 4#32 else 8#32) else s.physReg q := by
  rw [State.exchange, physReg_branch, pcOffset_setT, physReg_setT]

/-- A visible register reads its physical register. -/
theorem reg_eq (i : RegIdx) : s.reg i = s.physReg (phys s.bankSel i) := rfl

@[simp] theorem reg_fifteen : s.reg 15 = s.physReg 15 := by simp [reg_eq]

@[simp] theorem reg_setReg_self (i : RegIdx) (v : Word) : (s.setReg i v).reg i = v := by
  simp [reg_eq, physReg_setReg]

theorem reg_setReg_ne {i j : RegIdx} (h : j ≠ i) (v : Word) : (s.setReg i v).reg j = s.reg j := by
  simp [reg_eq, physReg_setReg, phys_inj, h]

/-- `Branch` leaves every register but 15 (40 R138). -/
theorem reg_branch_ne {i : RegIdx} (h : i ≠ 15) (a : Word) : (s.branch a).reg i = s.reg i := by
  simp [reg_eq, physReg_branch, phys_eq_fifteen, h]

/-- After `Branch(a)` the next fetch is from `a` (40 R140). -/
theorem fetchAddr_branch (a : Word) : (s.branch a).fetchAddr = a := by
  have h : (s.branch a).pcOffset = s.pcOffset := rfl
  simp [State.fetchAddr, physReg_branch, h]

/-- Writing `T` writes nothing else (10 R32). -/
theorem getLsbD_psrSetT (w : Word) (b : Bool) (n : Nat) :
    (psrSetT w b).getLsbD n = if n = 5 then b else w.getLsbD n := by
  by_cases h : n < 32
  · cases b <;> (interval_cases n <;> simp [psrSetT])
  · have h5 : n ≠ 5 := by omega
    simp [h5, BitVec.getLsbD_of_ge _ _ (Nat.le_of_not_lt h)]

/-- Writing `T` leaves the mode. -/
@[simp] theorem psrMode_psrSetT (w : Word) (b : Bool) : psrMode (psrSetT w b) = psrMode w := by
  apply BitVec.eq_of_getLsbD_eq
  intro i hi
  have : i ≠ 5 := by omega
  simp [psrMode, hi, getLsbD_psrSetT, this]

end Sys2Proof.Machine
end

