-- ==== Sys2Proof/Laws/Memory.lean ====
section
/-! SUPPORT. Memory: reads after writes, and that every memory operation keeps the canonical form (log 2). -/

namespace Sys2Proof.Machine

theorem memWfFrom_cons {lo k : Nat} {v : Byte} {m : Memory} :
    memWfFrom lo ((k, v) :: m) = true ↔
      (lo ≤ k ∧ k < 2 ^ 32 ∧ v ≠ Config.unlistedByte) ∧ memWfFrom (k + 1) m = true := by
  simp [memWfFrom, and_assoc]

/-- A canonical list from a bound is canonical from any lower one. -/
theorem memWfFrom_mono {lo lo' : Nat} (h : lo' ≤ lo) {m : Memory} (hm : memWfFrom lo m = true) :
    memWfFrom lo' m = true := by
  cases m with
  | nil => rfl
  | cons c m =>
    obtain ⟨k, v⟩ := c
    rw [memWfFrom_cons] at hm ⊢
    exact ⟨⟨by omega, hm.1.2⟩, hm.2⟩

/-- Below its bound a canonical list holds nothing. -/
theorem memRead_below {lo a : Nat} {m : Memory} (hm : memWfFrom lo m = true) (h : a < lo) :
    memRead m a = Config.unlistedByte := by
  cases m with
  | nil => rfl
  | cons c m =>
    obtain ⟨k, v⟩ := c
    rw [memWfFrom_cons] at hm
    have h1 : a ≠ k := by omega
    have h2 : a < k := by omega
    simp [memRead, h1, h2]

/-- A write keeps the canonical form. -/
theorem memWrite_wfFrom {lo a : Nat} {b : Byte} {m : Memory} (hm : memWfFrom lo m = true) (hl : lo ≤ a)
    (ha : a < 2 ^ 32) : memWfFrom lo (memWrite m a b) = true := by
  induction m generalizing lo with
  | nil =>
    by_cases hb : b = Config.unlistedByte
    · simp [memWrite, hb, memWfFrom]
    · rw [memWrite, if_neg hb, memWfFrom_cons]; exact ⟨⟨hl, ha, hb⟩, rfl⟩
  | cons c m ih =>
    obtain ⟨k, v⟩ := c
    have hm' := memWfFrom_cons.mp hm
    by_cases h1 : a = k
    · subst h1
      by_cases hb : b = Config.unlistedByte
      · simp only [memWrite, if_true, hb]
        exact memWfFrom_mono (by omega) hm'.2
      · simp only [memWrite, if_true, if_neg hb]
        exact memWfFrom_cons.mpr ⟨⟨hl, ha, hb⟩, hm'.2⟩
    · by_cases h2 : a < k
      · by_cases hb : b = Config.unlistedByte
        · simpa only [memWrite, if_neg h1, if_pos h2, if_pos hb] using hm
        · simp only [memWrite, if_neg h1, if_pos h2, if_neg hb]
          exact memWfFrom_cons.mpr ⟨⟨hl, ha, hb⟩, memWfFrom_cons.mpr ⟨⟨by omega, hm'.1.2⟩, hm'.2⟩⟩
      · simp only [memWrite, if_neg h1, if_neg h2]
        exact memWfFrom_cons.mpr ⟨hm'.1, ih hm'.2 (by omega)⟩

/-- Reading after a write: the byte written at its address, what was there elsewhere. -/
theorem memRead_memWrite {lo a : Nat} {b : Byte} {m : Memory} (hm : memWfFrom lo m = true) (x : Nat) :
    memRead (memWrite m a b) x = if x = a then b else memRead m x := by
  induction m generalizing lo with
  | nil =>
    by_cases hb : b = Config.unlistedByte <;> by_cases hx : x = a <;> simp [memWrite, memRead, hb, hx]
  | cons c m ih =>
    obtain ⟨k, v⟩ := c
    have hm' := memWfFrom_cons.mp hm
    by_cases h1 : a = k
    · subst h1
      by_cases hb : b = Config.unlistedByte
      · simp only [memWrite, if_true, if_pos hb]
        by_cases hx : x = a
        · subst hx; rw [if_pos rfl, hb]; exact memRead_below hm'.2 (by omega)
        · rw [if_neg hx, memRead, if_neg hx]
          by_cases hlt : x < a
          · rw [if_pos hlt]; exact memRead_below hm'.2 (by omega)
          · rw [if_neg hlt]
      · simp only [memWrite, if_true, if_neg hb, memRead]
        by_cases hx : x = a <;> simp [hx]
    · by_cases h2 : a < k
      · by_cases hb : b = Config.unlistedByte
        · simp only [memWrite, if_neg h1, if_pos h2, if_pos hb]
          by_cases hx : x = a
          · subst hx; simp [memRead, h1, h2, hb]
          · simp [hx]
        · simp only [memWrite, if_neg h1, if_pos h2, if_neg hb, memRead]
          by_cases hx : x = a
          · simp [hx]
          · by_cases hlt : x < a
            · have : x ≠ k := by omega
              have : x < k := by omega
              simp [*]
            · simp [hx, hlt]
      · simp only [memWrite, if_neg h1, if_neg h2, memRead]
        by_cases hk : x = k
        · have : x ≠ a := fun e => h1 (e ▸ hk)
          simp [hk, Ne.symm h1]
        · by_cases hlt : x < k
          · have : x ≠ a := by omega
            simp [hk, hlt, this]
          · simp only [if_neg hk, if_neg hlt]; exact ih hm'.2

/-- A write of a 32-bit address keeps the memory canonical. -/
theorem memWrite_wf {m : Memory} (hm : Memory.wf m = true) (a : Word) (b : Byte) :
    Memory.wf (memWrite m a.toNat b) = true :=
  memWrite_wfFrom hm (Nat.zero_le _) a.isLt

/-- A run of byte writes keeps the memory canonical. -/
theorem memWriteBytes_wf {m : Memory} (hm : Memory.wf m = true) (a : Word) (bs : List Byte) :
    Memory.wf (memWriteBytes m a bs) = true := by
  induction bs generalizing m a with
  | nil => exact hm
  | cons b bs ih => exact ih (memWrite_wf hm a b) _

/-- Storing a word keeps the memory canonical. -/
theorem setWord_wf {s : State} (hm : Memory.wf s.mem = true) (a v : Word) : Memory.wf (s.setWord a v).mem = true :=
  memWriteBytes_wf hm a _

/-- The byte at `x` after a word is stored at `a` (20 R79): byte `k` of the word at `a + k`, the old byte elsewhere. -/
theorem byteAt_setWord {s : State} (hm : Memory.wf s.mem = true) (a v x : Word) :
    (s.setWord a v).byteAt x =
      if x = a + 3#32 then v.extractLsb' 24 8
      else if x = a + 2#32 then v.extractLsb' 16 8
      else if x = a + 1#32 then v.extractLsb' 8 8
      else if x = a then v.extractLsb' 0 8
      else s.byteAt x := by
  have w1 := memWrite_wf hm a (v.extractLsb' 0 8)
  have w2 := memWrite_wf w1 (a + 1#32) (v.extractLsb' 8 8)
  have w3 := memWrite_wf w2 (a + 1#32 + 1#32) (v.extractLsb' 16 8)
  have e2 : a + 1#32 + 1#32 = a + 2#32 := by bv_omega
  have e3 : a + 1#32 + 1#32 + 1#32 = a + 3#32 := by bv_omega
  simp only [State.byteAt, State.setWord_mem, codeBytes, memWriteBytes]
  rw [memRead_memWrite w3, memRead_memWrite w2, memRead_memWrite w1, memRead_memWrite hm, e3, e2]
  simp only [BitVec.toNat_inj]

/-- The bytes of a word give it back (20 R79). -/
theorem wordOfBytes_extract (v : Word) :
    wordOfBytes (v.extractLsb' 0 8) (v.extractLsb' 8 8) (v.extractLsb' 16 8) (v.extractLsb' 24 8) = v := by
  apply BitVec.eq_of_getLsbD_eq
  intro i hi
  simp only [wordOfBytes, BitVec.getLsbD_append, BitVec.getLsbD_extractLsb']
  by_cases h0 : i < 8
  · simp [h0]
  · by_cases h1 : i < 16
    · simp [h0, show i - 8 < 8 by omega, show 8 + (i - 8) = i by omega]
    · by_cases h2 : i < 24
      · simp [h0, show ¬ i - 8 < 8 by omega, show i - 8 - 8 < 8 by omega, show 16 + (i - 8 - 8) = i by omega]
      · simp [h0, show ¬ i - 8 < 8 by omega, show ¬ i - 8 - 8 < 8 by omega, show i - 8 - 8 - 8 < 8 by omega,
          show 24 + (i - 8 - 8 - 8) = i by omega]

/-- A word stored is the word read back. -/
theorem wordAt_setWord_self {s : State} (hm : Memory.wf s.mem = true) (a v : Word) : (s.setWord a v).wordAt a = v := by
  have h : (s.setWord a v).wordAt a =
      wordOfBytes (v.extractLsb' 0 8) (v.extractLsb' 8 8) (v.extractLsb' 16 8) (v.extractLsb' 24 8) := by
    have d1 : ¬ a = a + 3#32 := by bv_omega
    have d2 : ¬ a = a + 2#32 := by bv_omega
    have d3 : ¬ a = a + 1#32 := by bv_omega
    have d4 : ¬ a + 1#32 = a + 3#32 := by bv_omega
    have d5 : ¬ a + 1#32 = a + 2#32 := by bv_omega
    have d6 : ¬ a + 2#32 = a + 3#32 := by bv_omega
    simp only [State.wordAt, byteAt_setWord hm, d1, d2, d3, d4, d5, d6, if_true, if_false]
  rw [h, wordOfBytes_extract]

/-- Storing a word leaves every byte outside its four. -/
theorem byteAt_setWord_of_far {s : State} (hm : Memory.wf s.mem = true) {a x : Word} (v : Word)
    (h : ¬ (x - a).toNat < 4) : (s.setWord a v).byteAt x = s.byteAt x := by
  have d0 : ¬ x = a := by intro e; subst e; apply h; bv_omega
  have d1 : ¬ x = a + 1#32 := by intro e; subst e; apply h; bv_omega
  have d2 : ¬ x = a + 2#32 := by intro e; subst e; apply h; bv_omega
  have d3 : ¬ x = a + 3#32 := by intro e; subst e; apply h; bv_omega
  simp only [byteAt_setWord hm, d0, d1, d2, d3, if_false]

end Sys2Proof.Machine
end

