-- ==== Sys2Proof/Laws/Transfer.lean ====
section
/-! SUPPORT. The port and the block-transfer loops: what each can do, said once (43 R200 to R205, R211). -/

namespace Sys2Proof.Machine

/-! ### One access -/

theorem readWord_ok {a : Word} {s : State} (h : s.dataFault a = none) : readWord a s = .ok (s.wordAt a) s := by
  simp [readWord, h]

theorem writeWord_ok {a v : Word} {s : State} (h : s.dataFault a = none) : writeWord a v s = .ok () (s.setWord a v) := by
  simp [writeWord, h]

/-- A read answers the word at an address that passes the checks, and changes nothing. -/
theorem readWord_eq_ok {a v : Word} {s t : State} :
    readWord a s = .ok v t ↔ s.dataFault a = none ∧ v = s.wordAt a ∧ t = s := by
  cases h : s.dataFault a <;> simp [readWord, h, eq_comm]

theorem readWord_eq_stop {a : Word} {s t : State} {c : Fault} :
    readWord a s = .stop c t ↔ s.dataFault a = some c ∧ t = s := by
  cases h : s.dataFault a <;> simp [readWord, h, eq_comm]

theorem writeWord_eq_ok {a v : Word} {s t : State} :
    writeWord a v s = .ok () t ↔ s.dataFault a = none ∧ t = s.setWord a v := by
  cases h : s.dataFault a <;> simp [writeWord, h, eq_comm]

theorem writeWord_eq_stop {a v : Word} {s t : State} {c : Fault} :
    writeWord a v s = .stop c t ↔ s.dataFault a = some c ∧ t = s := by
  cases h : s.dataFault a <;> simp [writeWord, h, eq_comm]

/-- Which accesses stop depends on the memory unit's ranges alone. -/
theorem dataFault_congr {s t : State} (h : t.unadmitted = s.unadmitted) (a : Word) : t.dataFault a = s.dataFault a := by
  simp [State.dataFault, State.admits, h]

@[simp] theorem dataFault_setPhys (s : State) (p : PhysReg) (v a : Word) : (s.setPhys p v).dataFault a = s.dataFault a := rfl
@[simp] theorem dataFault_setReg (s : State) (i : RegIdx) (v a : Word) : (s.setReg i v).dataFault a = s.dataFault a := rfl
@[simp] theorem dataFault_setBank (s : State) (b : Bank) (a : Word) : (s.setBank b).dataFault a = s.dataFault a := rfl
@[simp] theorem dataFault_setWord (s : State) (b v a : Word) : (s.setWord b v).dataFault a = s.dataFault a := rfl
@[simp] theorem wordAt_setPhys (s : State) (p : PhysReg) (v a : Word) : (s.setPhys p v).wordAt a = s.wordAt a := rfl
@[simp] theorem wordAt_setReg (s : State) (i : RegIdx) (v a : Word) : (s.setReg i v).wordAt a = s.wordAt a := rfl
@[simp] theorem wordAt_setBank (s : State) (b : Bank) (a : Word) : (s.setBank b).wordAt a = s.wordAt a := rfl
@[simp] theorem reg_setWord (s : State) (a v : Word) (i : RegIdx) : (s.setWord a v).reg i = s.reg i := rfl
@[simp] theorem bankReg_setBank (s : State) (b c : Bank) (i : RegIdx) : (s.setBank b).bankReg c i = s.bankReg c i := rfl
@[simp] theorem reg_setBank (s : State) (b : Bank) (i : RegIdx) : (s.setBank b).reg i = s.bankReg b i := rfl

/-- The address after `j` words. -/
theorem add_fourTimes_succ (a : Word) (j : Nat) : a + fourTimes (j + 1) = a + 4#32 + fourTimes j := by
  simp only [fourTimes]; bv_omega

@[simp] theorem add_fourTimes_zero (a : Word) : a + fourTimes 0 = a := by simp [fourTimes]

/-! ### The load loop -/

/-- What a finished load loop leaves alone, and the address it ends at. -/
theorem loadRegs_frame {is : List RegIdx} {a b : Word} {s t : State} (h : loadRegs is a s = .ok b t) :
    b = a + fourTimes is.length ∧ t.bankSel = s.bankSel ∧ t.cpsr = s.cpsr ∧ t.spsr = s.spsr ∧ t.halted = s.halted ∧
      t.mem = s.mem ∧ t.unadmitted = s.unadmitted := by
  induction is generalizing a s with
  | nil => simp only [loadRegs, Res.ok.injEq] at h; simp [← h.1, ← h.2]
  | cons i is ih =>
    obtain ⟨v, u, hr, hl⟩ := Res.bind_eq_ok.mp h
    obtain ⟨-, rfl, rfl⟩ := readWord_eq_ok.mp hr
    obtain ⟨hb, hrest⟩ := ih hl
    exact ⟨by rw [hb, List.length_cons, add_fourTimes_succ], by simpa using hrest⟩

/-- A load loop finishes exactly when every access passes its checks. -/
theorem loadRegs_ok {is : List RegIdx} {a : Word} {s : State}
    (h : ∀ j < is.length, s.dataFault (a + fourTimes j) = none) :
    ∃ t, loadRegs is a s = .ok (a + fourTimes is.length) t := by
  induction is generalizing a s with
  | nil => exact ⟨s, by simp [loadRegs]⟩
  | cons i is ih =>
    have h0 := h 0 (by simp)
    rw [add_fourTimes_zero] at h0
    obtain ⟨t, ht⟩ := @ih (a + 4#32) (s.setReg i (s.wordAt a)) fun j hj => by
      have := h (j + 1) (by simpa using hj)
      rwa [add_fourTimes_succ] at this
    exact ⟨t, by simp [loadRegs, readWord_ok h0, ht, add_fourTimes_succ]⟩

/-- A load loop that stops does so at an access that fails its checks; the cause is that access's. -/
theorem loadRegs_stop {is : List RegIdx} {a : Word} {s t : State} {c : Fault} (h : loadRegs is a s = .stop c t) :
    ∃ j < is.length, s.dataFault (a + fourTimes j) = some c := by
  induction is generalizing a s with
  | nil => simp [loadRegs] at h
  | cons i is ih =>
    cases hr : s.dataFault a with
    | some d =>
      have : readWord a s = .stop d s := readWord_eq_stop.mpr ⟨hr, rfl⟩
      simp only [loadRegs, this, Res.bind_stop, Res.stop.injEq] at h
      exact ⟨0, by simp, by rw [add_fourTimes_zero, hr, h.1]⟩
    | none =>
      simp only [loadRegs, readWord_ok hr, Res.bind_ok] at h
      obtain ⟨j, hj, he⟩ := ih h
      exact ⟨j + 1, by simpa using hj, by rw [add_fourTimes_succ]; exact he⟩

/-- A physical register that is none of the listed ones' keeps its value. -/
theorem loadRegs_other {is : List RegIdx} {a b : Word} {s t : State} (h : loadRegs is a s = .ok b t) (p : PhysReg)
    (hp : p ∉ is.map (phys s.bankSel)) : t.physReg p = s.physReg p := by
  induction is generalizing a s with
  | nil => simp only [loadRegs, Res.ok.injEq] at h; rw [← h.2]
  | cons i is ih =>
    obtain ⟨v, u, hr, hl⟩ := Res.bind_eq_ok.mp h
    obtain ⟨-, rfl, rfl⟩ := readWord_eq_ok.mp hr
    simp only [List.map_cons, List.mem_cons, not_or] at hp
    rw [ih hl (by simpa using hp.2), physReg_setReg, if_neg hp.1]

/-- The `j`-th listed register holds the word at `a + 4j` (43 R211). -/
theorem loadRegs_loaded {is : List RegIdx} {a b : Word} {s t : State} (h : loadRegs is a s = .ok b t) (hn : is.Nodup)
    (j : Nat) (hj : j < is.length) : t.physReg (phys s.bankSel is[j]) = s.wordAt (a + fourTimes j) := by
  induction is generalizing a s j with
  | nil => simp at hj
  | cons i is ih =>
    obtain ⟨v, u, hr, hl⟩ := Res.bind_eq_ok.mp h
    obtain ⟨-, rfl, rfl⟩ := readWord_eq_ok.mp hr
    obtain ⟨hi, hn'⟩ := List.nodup_cons.mp hn
    cases j with
    | zero =>
      have : phys u.bankSel i ∉ is.map (phys u.bankSel) := by simpa [phys_inj] using hi
      rw [List.getElem_cons_zero, loadRegs_other hl _ (by simpa using this), physReg_setReg, if_pos rfl, add_fourTimes_zero]
    | succ j =>
      have := ih hl hn' j (by simpa using hj)
      simpa [add_fourTimes_succ] using this

/-! ### The store loop -/

/-- What a finished store loop leaves alone: all but the memory. -/
theorem storeRegs_frame {is : List RegIdx} {a : Word} {s t : State} (h : storeRegs is a s = .ok () t) :
    t.regs = s.regs ∧ t.bankSel = s.bankSel ∧ t.cpsr = s.cpsr ∧ t.spsr = s.spsr ∧ t.halted = s.halted ∧
      t.unadmitted = s.unadmitted := by
  induction is generalizing a s with
  | nil => simp only [storeRegs, Res.ok.injEq] at h; simp [← h.2]
  | cons i is ih =>
    obtain ⟨v, u, hr, hl⟩ := Res.bind_eq_ok.mp h
    obtain ⟨-, rfl⟩ := writeWord_eq_ok.mp hr
    simpa using ih hl

theorem storeRegs_ok {is : List RegIdx} {a : Word} {s : State}
    (h : ∀ j < is.length, s.dataFault (a + fourTimes j) = none) : ∃ t, storeRegs is a s = .ok () t := by
  induction is generalizing a s with
  | nil => exact ⟨s, rfl⟩
  | cons i is ih =>
    have h0 := h 0 (by simp)
    rw [add_fourTimes_zero] at h0
    obtain ⟨t, ht⟩ := @ih (a + 4#32) (s.setWord a (s.reg i)) fun j hj => by
      have := h (j + 1) (by simpa using hj)
      rwa [add_fourTimes_succ] at this
    exact ⟨t, by simp [storeRegs, writeWord_ok h0, ht]⟩

theorem storeRegs_stop {is : List RegIdx} {a : Word} {s t : State} {c : Fault} (h : storeRegs is a s = .stop c t) :
    ∃ j < is.length, s.dataFault (a + fourTimes j) = some c := by
  induction is generalizing a s with
  | nil => simp [storeRegs] at h
  | cons i is ih =>
    cases hr : s.dataFault a with
    | some d =>
      have : writeWord a (s.reg i) s = .stop d s := writeWord_eq_stop.mpr ⟨hr, rfl⟩
      simp only [storeRegs, this, Res.bind_stop, Res.stop.injEq] at h
      exact ⟨0, by simp, by rw [add_fourTimes_zero, hr, h.1]⟩
    | none =>
      simp only [storeRegs, writeWord_ok hr, Res.bind_ok] at h
      obtain ⟨j, hj, he⟩ := ih h
      exact ⟨j + 1, by simpa using hj, by rw [add_fourTimes_succ]; exact he⟩

/-- A store loop keeps the memory canonical. -/
theorem storeRegs_wf {is : List RegIdx} {a : Word} {s t : State} (h : storeRegs is a s = .ok () t)
    (hm : Memory.wf s.mem = true) : Memory.wf t.mem = true := by
  induction is generalizing a s with
  | nil => simp only [storeRegs, Res.ok.injEq] at h; rwa [← h.2]
  | cons i is ih =>
    obtain ⟨v, u, hr, hl⟩ := Res.bind_eq_ok.mp h
    obtain ⟨-, rfl⟩ := writeWord_eq_ok.mp hr
    exact ih hl (setWord_wf hm _ _)

/-- A byte outside the words stored keeps its value. -/
theorem storeRegs_far {is : List RegIdx} {a : Word} {s t : State} (h : storeRegs is a s = .ok () t)
    (hm : Memory.wf s.mem = true) {x : Word} (hx : ∀ j < is.length, ¬ (x - (a + fourTimes j)).toNat < 4) :
    t.byteAt x = s.byteAt x := by
  induction is generalizing a s with
  | nil => simp only [storeRegs, Res.ok.injEq] at h; rw [← h.2]
  | cons i is ih =>
    obtain ⟨v, u, hr, hl⟩ := Res.bind_eq_ok.mp h
    obtain ⟨-, rfl⟩ := writeWord_eq_ok.mp hr
    have h0 := hx 0 (by simp)
    rw [add_fourTimes_zero] at h0
    rw [ih hl (setWord_wf hm _ _) fun j hj => by
      have := hx (j + 1) (by simpa using hj); rwa [add_fourTimes_succ] at this]
    exact byteAt_setWord_of_far hm _ h0

theorem wordAt_congr {s t : State} {a : Word} (h : ∀ k < 4, t.byteAt (a + BitVec.ofNat 32 k) = s.byteAt (a + BitVec.ofNat 32 k)) :
    t.wordAt a = s.wordAt a := by
  have h0 := h 0 (by omega); have h1 := h 1 (by omega); have h2 := h 2 (by omega); have h3 := h 3 (by omega)
  simp at h0 h1 h2 h3
  simp [State.wordAt, h0, h1, h2, h3]

/-- The `j`-th listed register's value is the word at `a + 4j` (43 R211). -/
theorem storeRegs_stored {is : List RegIdx} {a : Word} {s t : State} (h : storeRegs is a s = .ok () t)
    (hm : Memory.wf s.mem = true) (hlen : is.length ≤ 16) (j : Nat) (hj : j < is.length) :
    t.wordAt (a + fourTimes j) = s.reg is[j] := by
  induction is generalizing a s j with
  | nil => simp at hj
  | cons i is ih =>
    obtain ⟨v, u, hr, hl⟩ := Res.bind_eq_ok.mp h
    obtain ⟨-, rfl⟩ := writeWord_eq_ok.mp hr
    simp only [List.length_cons] at hlen hj
    cases j with
    | zero =>
      rw [List.getElem_cons_zero, add_fourTimes_zero,
        wordAt_congr (s := s.setWord a (s.reg i)) fun k hk =>
          storeRegs_far hl (setWord_wf hm _ _) fun j hj => by simp only [fourTimes]; bv_omega]
      exact wordAt_setWord_self hm _ _
    | succ j =>
      have := ih hl (setWord_wf hm _ _) (by omega) j (by omega)
      simpa [add_fourTimes_succ] using this

/-! ### The register list -/

theorem selectedRegs_nodup (list : BitVec 16) : (selectedRegs list).Nodup :=
  (show allRegs.Nodup by decide).filter _

theorem selectedLow_nodup (list : BitVec 16) : (selectedLow list).Nodup := (selectedRegs_nodup list).filter _

theorem mem_allRegs (i : RegIdx) : i ∈ allRegs := by revert i; decide

@[simp] theorem mem_selectedRegs {list : BitVec 16} {i : RegIdx} : i ∈ selectedRegs list ↔ list.getLsbD i.val = true := by
  simp [selectedRegs, mem_allRegs]

@[simp] theorem mem_selectedLow {list : BitVec 16} {i : RegIdx} :
    i ∈ selectedLow list ↔ list.getLsbD i.val = true ∧ i.val < 15 := by
  simp [selectedLow]

theorem selectedRegs_length (list : BitVec 16) : (selectedRegs list).length ≤ 16 :=
  Nat.le_trans (List.length_filter_le _ _) (by decide)

/-- Register 15, when listed, is the last of the list. -/
theorem selectedRegs_eq (list : BitVec 16) :
    selectedRegs list = selectedLow list ++ (if list.getLsbD 15 then [15] else []) := by
  have split : ∀ (low : List RegIdx), (∀ i ∈ low, i.val < 15) →
      (low ++ [15]).filter (fun i : RegIdx => list.getLsbD i.val) =
        ((low ++ [15]).filter (fun i : RegIdx => list.getLsbD i.val)).filter (fun i => decide (i.val < 15)) ++
          (if list.getLsbD 15 then [15] else []) := by
    intro low hl
    have keep : (low.filter fun i : RegIdx => list.getLsbD i.val).filter (fun i => decide (i.val < 15)) =
        low.filter fun i : RegIdx => list.getLsbD i.val :=
      List.filter_eq_self.mpr fun i hi => by simpa using hl i (List.mem_of_mem_filter hi)
    have last : [(15 : RegIdx)].filter (fun i : RegIdx => list.getLsbD i.val) = if list.getLsbD 15 then [15] else [] :=
      List.filter_cons
    have gone : (if list.getLsbD 15 then [(15 : RegIdx)] else []).filter (fun i => decide (i.val < 15)) = [] := by
      split <;> rfl
    rw [List.filter_append, List.filter_append, keep, last, gone, List.append_nil]
  exact split [0, 1, 2, 3, 4, 5, 6, 7, 8, 9, 10, 11, 12, 13, 14] (by decide)

end Sys2Proof.Machine
end

