-- ==== Sys2Proof/Laws/Exec.lean ====
section
/-! SUPPORT. What the shared parts of the handlers and the step can do, said once: the register list's order, the checks before
an access, the skip rule, the common skeleton, the user bank, the exception return, `exec` as its handler, and the decoder's
well-formedness. -/

namespace Sys2Proof.Machine

/-! ### The register list -/

/-- An element kept by a filter stands at the number of kept elements before it. -/
theorem getElem?_filter_countP {α : Type} (p : α → Bool) (l : List α) (k : Nat) (x : α) (h : l[k]? = some x) (hp : p x = true) :
    (l.filter p)[(l.take k).countP p]? = some x := by
  induction l generalizing k with
  | nil => simp at h
  | cons a l ih =>
    cases k with
    | zero => simp only [List.getElem?_cons_zero, Option.some.injEq] at h; subst h; simp [hp]
    | succ k =>
      have := ih k (by simpa using h)
      by_cases ha : p a = true
      · simpa [List.filter_cons, ha, List.countP_cons] using this
      · simpa [List.filter_cons, ha, List.countP_cons] using this

theorem allRegs_take_val (i : RegIdx) : (allRegs.take i.val).map Fin.val = List.range i.val := by revert i; decide

theorem allRegs_getElem? (i : RegIdx) : allRegs[i.val]? = some i := by revert i; decide

/-- A selected register stands in the transfer at the number of selected registers below it (43 R211). -/
theorem selectedRegs_getElem? {list : BitVec 16} {i : RegIdx} (h : list.getLsbD i.val = true) :
    (selectedRegs list)[(List.range i.val).countP fun k => list.getLsbD k]? = some i := by
  rw [← allRegs_take_val i, List.countP_map]
  exact getElem?_filter_countP (fun j : RegIdx => list.getLsbD j.val) allRegs i.val i (allRegs_getElem? i) h

/-- The population count (40 R137). -/
theorem popcount_eq (list : BitVec 16) : popcount list = (List.range 16).countP fun k => list.getLsbD k := by
  rw [popcount, selectedRegs, ← List.countP_eq_length_filter, show List.range 16 = allRegs.map Fin.val by decide,
    List.countP_map]
  rfl

/-- The load loops leave out register 15 alone. -/
theorem selectedLow_getElem? {list : BitVec 16} {i : RegIdx} (h : list.getLsbD i.val = true) (hi : i.val < 15) :
    (selectedLow list)[(List.range i.val).countP fun k => list.getLsbD k]? = some i := by
  have hs := selectedRegs_getElem? h
  rw [selectedRegs_eq, List.getElem?_append] at hs
  split at hs
  · exact hs
  · exfalso
    split at hs
    · have := List.mem_of_getElem? hs
      simp only [List.mem_singleton] at this
      subst this
      exact absurd hi (by decide)
    · simp at hs

theorem selectedLow_length (list : BitVec 16) :
    (selectedLow list).length + (if list.getLsbD 15 then 1 else 0) = popcount list := by
  rw [popcount, selectedRegs_eq]
  cases list.getLsbD 15 <;> simp

/-! ### The checks before an access -/

theorem aligned4_add_fourTimes (a : Word) (j : Nat) : aligned4 (a + fourTimes j) = aligned4 a := by
  have h : (a + fourTimes j).extractLsb' 0 2 = a.extractLsb' 0 2 := by
    apply BitVec.eq_of_toNat_eq
    simp only [BitVec.extractLsb'_toNat, BitVec.toNat_add, fourTimes, BitVec.toNat_ofNat, Nat.shiftRight_zero]
    omega
  simp [aligned4, h]

/-- An access passes its checks when it is aligned and admitted (20 R65, R71). -/
theorem dataFault_eq_none {s : State} {a : Word} : s.dataFault a = none ↔ aligned4 a = true ∧ s.admits a 4 = true := by
  cases h : aligned4 a <;> cases h' : s.admits a 4 <;> simp [State.dataFault, h, h']

theorem dataFault_misaligned {s : State} {a : Word} (h : aligned4 a = false) : s.dataFault a = some .misalignedData := by
  simp [State.dataFault, h]

/-- Aligned accesses fail as memory faults only. -/
theorem dataFault_of_aligned {s : State} {a : Word} {c : Fault} (h : aligned4 a = true) (hc : s.dataFault a = some c) :
    c = .memoryFault := by
  cases h' : s.admits a 4 <;> simp [State.dataFault, h, h'] at hc
  exact hc.symm

theorem admits_eq_true {s : State} {a : Word} {n : Nat} :
    s.admits a n = true ↔ ∀ k < n, ∀ r ∈ s.unadmitted, ¬ (r.base ≤ (a + BitVec.ofNat 32 k).toNat ∧
      (a + BitVec.ofNat 32 k).toNat < r.base + r.size) := by
  simp only [State.admits, byteAddr, inRange, List.all_eq_true, List.mem_range, Bool.not_eq_true', List.any_eq_false,
    Bool.and_eq_true]
  constructor <;> exact fun h k hk r hr hb => h k hk r hr ⟨by simpa using hb.1, by simpa using hb.2⟩

/-! ### The shared parts -/

theorem conditional_pass {c : Cond} {s : State} (body : State → Res Status) (h : condPassed s.cpsr c = true) :
    conditional c s body = body s := by simp [conditional, h]

theorem conditional_fail {c : Cond} {s : State} (body : State → Res Status) (h : condPassed s.cpsr c = false) :
    conditional c s body = .ok .continues s := by simp [conditional, h]

theorem blockStart_ok {op : BlockOp} {s : State} (h : op.rn ≠ 15) (h' : op.list ≠ 0#16) :
    blockStart op s = .ok (resolve (s.reg op.rn) (popcount op.list) op.p op.u) s := by simp [blockStart, h, h']

theorem blockStart_refused {op : BlockOp} {s : State} (h : op.rn = 15 ∨ op.list = 0#16) :
    blockStart op s = .stop .unpredictableForm s := by simp [blockStart, h]

theorem blockStart_eq_ok {op : BlockOp} {s t : State} {adr : Word × Word} :
    blockStart op s = .ok adr t ↔
      (op.rn ≠ 15 ∧ op.list ≠ 0#16) ∧ adr = resolve (s.reg op.rn) (popcount op.list) op.p op.u ∧ t = s := by
  by_cases h : op.rn = 15 ∨ op.list = 0#16
  · rw [blockStart_refused h]; simp only [reduceCtorEq, false_iff]; tauto
  · have h' := not_or.mp h
    rw [blockStart_ok h'.1 h'.2]; simp [h'.1, h'.2, eq_comm]

theorem blockStart_eq_stop {op : BlockOp} {s t : State} {c : Fault} :
    blockStart op s = .stop c t ↔ (op.rn = 15 ∨ op.list = 0#16) ∧ c = .unpredictableForm ∧ t = s := by
  by_cases h : op.rn = 15 ∨ op.list = 0#16
  · rw [blockStart_refused h]
    exact ⟨fun e => by cases e; exact ⟨h, rfl, rfl⟩, fun e => by rw [e.2.1, e.2.2]⟩
  · have h' := not_or.mp h
    rw [blockStart_ok h'.1 h'.2]; simp [h'.1, h'.2]

@[simp] theorem writeback_bankSel (op : BlockOp) (wb : Word) (s : State) : (writeback op wb s).bankSel = s.bankSel := by
  cases h : op.w <;> simp [writeback, h]
@[simp] theorem writeback_cpsr (op : BlockOp) (wb : Word) (s : State) : (writeback op wb s).cpsr = s.cpsr := by
  cases h : op.w <;> simp [writeback, h]
@[simp] theorem writeback_spsr (op : BlockOp) (wb : Word) (s : State) : (writeback op wb s).spsr = s.spsr := by
  cases h : op.w <;> simp [writeback, h]
@[simp] theorem writeback_halted (op : BlockOp) (wb : Word) (s : State) : (writeback op wb s).halted = s.halted := by
  cases h : op.w <;> simp [writeback, h]
@[simp] theorem writeback_mem (op : BlockOp) (wb : Word) (s : State) : (writeback op wb s).mem = s.mem := by
  cases h : op.w <;> simp [writeback, h]
@[simp] theorem writeback_unadmitted (op : BlockOp) (wb : Word) (s : State) :
    (writeback op wb s).unadmitted = s.unadmitted := by
  cases h : op.w <;> simp [writeback, h]

theorem physReg_writeback (op : BlockOp) (wb : Word) (s : State) (p : PhysReg) :
    (writeback op wb s).physReg p = if op.w = true ∧ p = phys s.bankSel op.rn then wb else s.physReg p := by
  cases h : op.w <;> simp [writeback, h, physReg_setReg]

@[simp] theorem dataFault_writeback (op : BlockOp) (wb : Word) (s : State) (a : Word) :
    (writeback op wb s).dataFault a = s.dataFault a := dataFault_congr (by simp) a

@[simp] theorem wordAt_writeback (op : BlockOp) (wb : Word) (s : State) (a : Word) :
    (writeback op wb s).wordAt a = s.wordAt a := by simp [State.wordAt, State.byteAt]

/-- A transfer in the user bank answers when its body does, with the selection put back (40 R135). -/
theorem inUserBank_eq_ok {α : Type} {body : State → Res α} {s t : State} {a : α} :
    inUserBank body s = .ok a t ↔ ∃ u, body (s.setBank .usr) = .ok a u ∧ t = u.setBank s.bankSel := by
  simp only [inUserBank, Res.bind_eq_ok, swapBank_fst, swapBank_snd]
  constructor
  · rintro ⟨a', u, hb, h⟩; cases h; exact ⟨u, hb, rfl⟩
  · rintro ⟨u, hb, rfl⟩; exact ⟨a, u, hb, rfl⟩

theorem inUserBank_eq_stop {α : Type} {body : State → Res α} {s t : State} {c : Fault} :
    inUserBank body s = .stop c t ↔ body (s.setBank .usr) = .stop c t := by
  simp only [inUserBank, swapBank_fst, swapBank_snd]
  cases body (s.setBank .usr) <;> simp

/-- An exception return to a mode (43 R203). -/
theorem exceptionReturn_ok {k : Fin 5} {v : Word} {s : State} {b : Bank} (h : bankOf (psrMode s.spsr[k.val]) = some b) :
    exceptionReturn k v s = .ok .branched (((s.setCpsr s.spsr[k.val]).setBank b).branch (clearBit0 v)) := by
  simp [exceptionReturn, swapBankTo, h]

/-- An exception return to a reserved mode stops with CPSR replaced and the selection as it was (40 R134). -/
theorem exceptionReturn_stop {k : Fin 5} {v : Word} {s : State} (h : bankOf (psrMode s.spsr[k.val]) = none) :
    exceptionReturn k v s = .stop .badMode (s.setCpsr s.spsr[k.val]) := by
  simp [exceptionReturn, swapBankTo, h]

/-! ### `exec` and the step -/

/-- `exec` is the handler completed by the dispatcher's update, for every descriptor the decoder can produce. -/
theorem exec_eq (i : Instr) (s : State) :
    exec i s = if i.wellFormed then complete i.instrSet (handle i s) else .refused .illFormed := by
  cases i <;> rfl

theorem exec_of_wellFormed {i : Instr} (h : i.wellFormed = true) (s : State) :
    exec i s = complete i.instrSet (handle i s) := by rw [exec_eq, if_pos h]

theorem exec_eq_next {i : Instr} {s t : State} :
    exec i s = .next t ↔ i.wellFormed = true ∧ ∃ st u, handle i s = .ok st u ∧ retire i.instrSet st u = t := by
  rw [exec_eq]
  split
  · simp [complete_eq_next, *]
  · simp [*]

/-- What the primary decoder answers is well-formed and of the primary set (30 R97, R112). -/
theorem decodePrimary_wellFormed {refuse : Bool} {raw : Word} {i : Instr} (h : decodePrimary refuse raw = .ok i) :
    i.wellFormed = true ∧ i.instrSet = .primary ∧ i.reserved = false := by
  simp only [decodePrimary] at h
  split at h; · cases h
  split at h; · cases h; exact ⟨rfl, rfl, rfl⟩
  split at h; · cases h; exact ⟨rfl, rfl, rfl⟩
  split at h; · cases h; exact ⟨rfl, rfl, rfl⟩
  split at h; · cases h; exact ⟨rfl, rfl, rfl⟩
  split at h
  · cases h
    have hl : (raw.extractLsb' 0 16).getLsbD 15 = raw.getLsbD 15 := by simp
    simp only [decodeBlock]
    split
    · exact ⟨rfl, rfl, rfl⟩
    · split
      · exact ⟨by simpa [Instr.wellFormed, blockFields] using ‹raw.getLsbD 15 = true›, rfl, rfl⟩
      · exact ⟨by simpa [Instr.wellFormed, blockFields] using ‹¬ raw.getLsbD 15 = true›, rfl, rfl⟩
    · exact ⟨rfl, rfl, rfl⟩
    · exact ⟨rfl, rfl, rfl⟩
  · cases h

theorem condOfBits_le (c : BitVec 4) : c ≠ 14#4 → c ≠ 15#4 → condOfBits c ≠ .al ∧ condOfBits c ≠ .nv := by
  revert c; decide

/-- What the compressed decoder answers is well-formed and of the compressed set (30 R97, R106). -/
theorem decodeCompressed_wellFormed {raw : Half} {i : Instr} (h : decodeCompressed raw = .ok i) :
    i.wellFormed = true ∧ i.instrSet = .compressed := by
  simp only [decodeCompressed] at h
  split at h; · cases h; exact ⟨rfl, rfl⟩
  split at h; · cases h; exact ⟨rfl, rfl⟩
  split at h
  · rename_i h1 h2 h3
    cases h
    have hc : raw.extractLsb' 8 8 = raw.extractLsb' 12 4 ++ raw.extractLsb' 8 4 := by
      apply BitVec.eq_of_getLsbD_eq
      intro i hi
      simp only [BitVec.getLsbD_append, BitVec.getLsbD_extractLsb']
      by_cases h : i < 4
      · simp [h, hi]
      · simp [h, hi, show i - 4 < 4 by omega, show 12 + (i - 4) = 8 + i by omega]
    rw [hc, h3] at h1 h2
    have := condOfBits_le (raw.extractLsb' 8 4) (fun e => h1 (by rw [e]; rfl)) (fun e => h2 (by rw [e]; rfl))
    exact ⟨by simp [Instr.wellFormed, this.1, this.2], rfl⟩
  split at h; · cases h; exact ⟨rfl, rfl⟩
  split at h; · cases h; exact ⟨rfl, rfl⟩
  split at h; · cases h; exact ⟨rfl, rfl⟩
  split at h; · cases h; exact ⟨rfl, rfl⟩
  split at h; · cases h; exact ⟨rfl, rfl⟩
  cases h

/-- Whatever decodes is well-formed and of its value's set. -/
theorem decodeCode_wellFormed {refuse : Bool} {code : Code} {i : Instr} (h : decodeCode refuse code = .ok i) :
    i.wellFormed = true ∧ i.instrSet = codeSet code := by
  cases code with
  | word raw => exact ⟨(decodePrimary_wellFormed h).1, (decodePrimary_wellFormed h).2.1⟩
  | half raw => exact decodeCompressed_wellFormed h

/-- A descriptor the step runs is well-formed, of its value's set, no reserved row and not taken out by `REFUSE_COND_NV`,
whatever the decoder. -/
theorem describe_eq_some {refuse : Bool} {decode : Decoder} {code : Code} {i : Instr} :
    describe refuse decode code = some i ↔ decode code = some i ∧ i.wellFormed = true ∧ i.instrSet = codeSet code ∧
      i.reserved = false ∧ (refuse = true → i.condNv = false) := by
  rw [describe, Option.filter_eq_some_iff]
  cases refuse <;> simp [and_assoc]

theorem specDecoder_eq_some {code : Code} {i : Instr} : specDecoder code = some i ↔ decodeCode false code = .ok i := by
  cases h : decodeCode false code <;> simp [specDecoder, h]

/-- What the primary decoder answers carries the condition in bits 31:28. -/
theorem decodePrimary_cond {refuse : Bool} {raw : Word} {i : Instr} (h : decodePrimary refuse raw = .ok i) :
    i.cond? = some (condOfBits (raw.extractLsb' 28 4)) := by
  simp only [decodePrimary] at h
  split at h; · cases h
  split at h; · cases h; rfl
  split at h; · cases h; rfl
  split at h; · cases h; rfl
  split at h; · cases h; rfl
  split at h
  · cases h
    simp only [decodeBlock]
    split
    · rfl
    · split <;> rfl
    · rfl
    · rfl
  · cases h

/-- `REFUSE_COND_NV` takes out of the decoder's answers those with condition field 0b1111 (30 R105). -/
theorem decodeCode_eq_ok {refuse : Bool} {code : Code} {i : Instr} :
    decodeCode refuse code = .ok i ↔ decodeCode false code = .ok i ∧ (refuse = true → i.condNv = false) := by
  cases refuse
  · simp
  cases code with
  | half raw =>
    refine ⟨fun h => ⟨h, fun _ => ?_⟩, And.left⟩
    simp [Instr.condNv, (decodeCompressed_wellFormed h).2]
  | word raw =>
    simp only [decodeCode, forall_const]
    by_cases hc : condOfBits (raw.extractLsb' 28 4) = .nv
    · refine ⟨fun h => by simp [decodePrimary, hc] at h, fun ⟨h, hn⟩ => ?_⟩
      simp [Instr.condNv, (decodePrimary_wellFormed h).2.1, decodePrimary_cond h, hc] at hn
    · have same : decodePrimary true raw = decodePrimary false raw := by simp [decodePrimary, hc]
      rw [same]
      exact ⟨fun h => ⟨h, by simp [Instr.condNv, decodePrimary_cond h, hc]⟩, And.left⟩

/-- With the decoder of 30 R92 the step runs what it decodes, but for the reserved rows. -/
theorem describe_spec {refuse : Bool} {code : Code} {i : Instr} :
    describe refuse specDecoder code = some i ↔ decodeCode refuse code = .ok i ∧ i.reserved = false := by
  rw [describe_eq_some, specDecoder_eq_some, decodeCode_eq_ok (refuse := refuse)]
  constructor
  · rintro ⟨h, -, -, hr, hn⟩; exact ⟨⟨h, hn⟩, hr⟩
  · rintro ⟨⟨h, hn⟩, hr⟩; exact ⟨h, (decodeCode_wellFormed h).1, (decodeCode_wellFormed h).2, hr, hn⟩

@[simp] theorem fetchBytes_primary : fetchBytes .primary = 4 := rfl
@[simp] theorem fetchBytes_compressed : fetchBytes .compressed = 2 := rfl

/-- A fetch that answers leaves the state as it was (44 R241). -/
theorem fetch_eq_ok {s t : State} {code : Code} :
    fetch s = .ok code t ↔ fetchAligned s.instrSet s.fetchAddr = true ∧
      s.admits s.fetchAddr (fetchBytes s.instrSet) = true ∧ code = s.codeAt s.instrSet s.fetchAddr ∧ t = s := by
  cases h : fetchAligned s.instrSet s.fetchAddr <;> cases h' : s.admits s.fetchAddr (fetchBytes s.instrSet) <;>
    simp [fetch, h, h', eq_comm]

theorem codeSet_codeAt (s : State) (iset : InstrSet) (a : Word) : codeSet (s.codeAt iset a) = iset := by
  cases iset <;> rfl

/-- A step that answers fetched a value, and either ran the handler of its descriptor or an external handler. -/
theorem stepWith_eq_next {p : Params} {s t : State} :
    stepWith p s = .next t ↔ s.halted = none ∧ ∃ code, fetch s = .ok code s ∧
      ((∃ i, describe p.refuseCondNv p.decode code = some i ∧ exec i s = .next t) ∨
        (describe p.refuseCondNv p.decode code = none ∧ complete (codeSet code) (unknownOrExt p code s) = .next t)) := by
  cases hh : s.halted with
  | some c => simp [stepWith, hh]
  | none =>
    cases hf : fetch s with
    | stop c u => simp [stepWith, hh, hf]
    | ok code u =>
      obtain ⟨-, -, -, rfl⟩ := fetch_eq_ok.mp hf
      cases hd : describe p.refuseCondNv p.decode code with
      | some i => simp [stepWith, hh, hf, hd]
      | none => simp [stepWith, hh, hf, hd]

/-- A run has ended where `STOP` holds of a machine that is not stopped (44 R245). -/
theorem finished_eq_true {p : Params} {s : State} : finished p s = true ↔ s.halted = none ∧ p.stopWhen s = true := by
  simp [finished]

theorem finished_of_halted {p : Params} {s : State} {c : Fault} (h : s.halted = some c) : finished p s = false := by
  simp [finished, h]

/-- The run loop goes on from a machine that is neither stopped nor at its end (44 R245). -/
theorem runFor_succ {p : Params} {s : State} (n : Nat) (h : s.halted = none) (hf : finished p s = false) :
    runFor p (n + 1) s = runFor p n (cycle p s) := by
  simp [runFor, h, hf]

/-- The run loop leaves a stopped machine and an ended run as they are. -/
theorem runFor_stays {p : Params} {s : State} (n : Nat) (h : s.halted.isSome = true ∨ finished p s = true) : runFor p n s = s := by
  cases n with
  | zero => rfl
  | succ n => obtain h | h := h <;> simp [runFor, h]

/-- With no external handler a step that answers ran a decoded instruction. -/
theorem step_eq_next {s t : State} :
    step s = .next t ↔ s.halted = none ∧ ∃ code i, fetch s = .ok code s ∧
      describe Config.refuseCondNv specDecoder code = some i ∧ exec i s = .next t := by
  rw [step, stepWith_eq_next]
  constructor
  · rintro ⟨hh, code, hf, ⟨i, hd, he⟩ | ⟨-, he⟩⟩
    · exact ⟨hh, code, i, hf, hd, he⟩
    · simp [unknownOrExt, handlerRun, standardParams, handleUnknown] at he
  · rintro ⟨hh, code, i, hf, hd, he⟩
    exact ⟨hh, code, hf, .inl ⟨i, hd, he⟩⟩

end Sys2Proof.Machine
end

