-- ==== Sys2Proof/Laws/External.lean ====
section
/-! SUPPORT. The external handler: what one access and a whole run can do, and what a run puts on the port (44 R246, R248). -/

namespace Sys2Proof.Machine

theorem readPort_eq_ok {w : PortWidth} {a v : Word} {s t : State} :
    readPort w a s = .ok v t ↔ s.portFault w a = none ∧ v = s.valueAt w a ∧ t = s := by
  cases h : s.portFault w a <;> simp [readPort, h, eq_comm]

theorem writePort_eq_ok {w : PortWidth} {a v : Word} {s t : State} {x : Unit} :
    writePort w a v s = .ok x t ↔ s.portFault w a = none ∧ t = s.setValue w a v := by
  cases h : s.portFault w a <;> simp [writePort, h, eq_comm]

/-- An access passes its checks when it is aligned and admitted (20 R65, R71). -/
theorem portFault_eq_none {s : State} {w : PortWidth} {a : Word} :
    s.portFault w a = none ↔ w.aligned a = true ∧ s.admits a w.bytes = true := by
  cases h : w.aligned a <;> cases h' : s.admits a w.bytes <;> simp [State.portFault, h, h']

/-- A run that answers leaves the latch and the memory unit's ranges, keeps the memory canonical, and its effect on memory is
that of its requests (44 R246 (b)). -/
theorem runExt_frame {run : ExtRun} {s t : State} {st : Status} (h : runExt run s = .ok st t) :
    t.halted = s.halted ∧ t.unadmitted = s.unadmitted ∧ (Memory.wf s.mem = true → Memory.wf t.mem = true) ∧
      t.mem = (extRequests run s).foldl applyRequest s.mem := by
  induction run generalizing s with
  | continues => cases h; exact ⟨rfl, rfl, id, rfl⟩
  | branch a => cases h; exact ⟨rfl, rfl, id, rfl⟩
  | stop c => cases h
  | setRegs r next ih => exact ih h
  | memRead w a next ih =>
    obtain ⟨v, u, hr, h⟩ := Res.bind_eq_ok.mp h
    obtain ⟨hf, rfl, rfl⟩ := readPort_eq_ok.mp hr
    simpa [extRequests, hf, applyRequest] using ih _ h
  | memWrite w a v next ih =>
    obtain ⟨x, u, hr, h⟩ := Res.bind_eq_ok.mp h
    obtain ⟨hf, rfl⟩ := writePort_eq_ok.mp hr
    obtain ⟨hh, hu, hw, hm⟩ := ih h
    exact ⟨hh, hu, fun hs => hw (memWriteBytes_wf hs a _), by simpa [extRequests, hf, applyRequest] using hm⟩

/-- A run that answers ends as `ExtRun.Ends` says of it (44 R246 (c), (d), (e)). -/
theorem runExt_ends {P Q : ExtRegs → Prop} {run : ExtRun} {s t : State} {st : Status} (hr : run.Ends P Q s.extRegs)
    (h : runExt run s = .ok st t) :
    (st = .continues ∧ P t.extRegs) ∨ ∃ u a, st = .branched ∧ Q (State.extRegs u) ∧ t = u.branch a := by
  induction run generalizing s with
  | continues => cases h; exact .inl ⟨rfl, hr⟩
  | branch a => cases h; exact .inr ⟨s, a, rfl, hr, rfl⟩
  | stop c => cases h
  | setRegs r next ih => exact ih (s := s.withRegs r) hr h
  | memRead w a next ih =>
    obtain ⟨v, u, hp, h⟩ := Res.bind_eq_ok.mp h
    obtain ⟨-, rfl, rfl⟩ := readPort_eq_ok.mp hp
    exact ih _ (hr _) h
  | memWrite w a v next ih =>
    obtain ⟨x, u, hp, h⟩ := Res.bind_eq_ok.mp h
    obtain ⟨-, rfl⟩ := writePort_eq_ok.mp hp
    exact ih (s := s.setValue w a v) hr h

/-- A run one of whose requests is not admitted stops with MemoryFault (20 R71). -/
theorem runExt_unadmitted {run : ExtRun} {s : State} {r : PortRequest} (hr : r ∈ extRequests run s)
    (ha : s.admits r.addr r.width.bytes = false) : ∃ t, runExt run s = .stop .memoryFault t := by
  induction run generalizing s with
  | continues => cases hr
  | branch a => cases hr
  | stop c => cases hr
  | setRegs r' next ih => exact ih (s := s.withRegs r') hr ha
  | memRead w a next ih =>
    simp only [extRequests] at hr
    split at hr
    · rename_i hf
      simp only [runExt, readPort, hf, Res.bind_ok]
      obtain rfl | hr := List.mem_cons.mp hr
      · exact absurd ((portFault_eq_none.mp hf).2.symm.trans ha) (by simp)
      · exact ih _ hr ha
    · rename_i hf
      exact ⟨s, by simp [runExt, readPort, hf]⟩
    · cases hr
  | memWrite w a v next ih =>
    simp only [extRequests] at hr
    split at hr
    · rename_i hf
      simp only [runExt, writePort, hf, Res.bind_ok]
      obtain rfl | hr := List.mem_cons.mp hr
      · exact absurd ((portFault_eq_none.mp hf).2.symm.trans ha) (by simp)
      · exact ih hr ha
    · rename_i hf
      exact ⟨s, by simp [runExt, writePort, hf]⟩
    · cases hr

end Sys2Proof.Machine
end

