-- ==== Sys2Proof/Laws/Handlers.lean ====
section
/-! SUPPORT. What each block-transfer handler does when its condition passes, and what every handler leaves alone. -/

namespace Sys2Proof.Machine

/-- The address pair of a block transfer (43 R200 steps 3 to 5). -/
abbrev blockAdr (op : BlockOp) (s : State) : Word × Word := resolve (s.reg op.rn) (popcount op.list) op.p op.u

/-- What the loads of LDM and LDM_RET leave alone, and where they end (43 R201). -/
theorem loadWithWriteback_frame {op : BlockOp} {adr : Word × Word} {s u : State} {a : Word}
    (h : loadWithWriteback op adr s = .ok a u) :
    a = adr.1 + fourTimes (selectedLow op.list).length ∧ u.bankSel = s.bankSel ∧ u.cpsr = s.cpsr ∧ u.spsr = s.spsr ∧
      u.halted = s.halted ∧ u.mem = s.mem ∧ u.unadmitted = s.unadmitted := by
  have := loadRegs_frame h
  simpa using this

/-- The listed registers hold their words (43 R201, R211). -/
theorem loadWithWriteback_loaded {op : BlockOp} {adr : Word × Word} {s u : State} {a : Word}
    (h : loadWithWriteback op adr s = .ok a u) {i : RegIdx} (hi : i.val < 15) (hl : op.list.getLsbD i.val = true) :
    u.physReg (phys s.bankSel i) =
      s.wordAt (adr.1 + fourTimes ((List.range i.val).countP fun k => op.list.getLsbD k)) := by
  obtain ⟨hj, he⟩ := List.getElem?_eq_some_iff.mp (selectedLow_getElem? hl hi)
  have := loadRegs_loaded h (selectedLow_nodup _) _ hj
  simpa [he] using this

/-- A register copy that is neither a listed one's nor a written-back base's keeps its value. -/
theorem loadWithWriteback_other {op : BlockOp} {adr : Word × Word} {s u : State} {a : Word}
    (h : loadWithWriteback op adr s = .ok a u) {p : PhysReg}
    (hp : ∀ i : RegIdx, i.val < 15 → op.list.getLsbD i.val = true → p ≠ phys s.bankSel i)
    (hw : op.w = true → p ≠ phys s.bankSel op.rn) : u.physReg p = s.physReg p := by
  rw [loadRegs_other h p, physReg_writeback, if_neg fun e => hw e.1 e.2]
  simp only [List.mem_map, mem_selectedLow, writeback_bankSel]
  rintro ⟨i, ⟨hl, hi⟩, rfl⟩
  exact hp i hi hl rfl

/-- The base, written back and not listed, holds the writeback address. -/
theorem loadWithWriteback_base {op : BlockOp} {adr : Word × Word} {s u : State} {a : Word}
    (h : loadWithWriteback op adr s = .ok a u) (hw : op.w = true) (hl : op.list.getLsbD op.rn.val = false) :
    u.physReg (phys s.bankSel op.rn) = adr.2 := by
  rw [loadRegs_other h, physReg_writeback, if_pos ⟨hw, rfl⟩]
  simp only [List.mem_map, mem_selectedLow, writeback_bankSel]
  rintro ⟨i, ⟨hl', -⟩, e⟩
  rw [(phys_inj _ _ _).mp e, hl] at hl'
  exact Bool.noConfusion hl'

/-- The loads finish when every access passes its checks. -/
theorem loadWithWriteback_ok {op : BlockOp} {adr : Word × Word} {s : State}
    (h : ∀ j < (selectedLow op.list).length, s.dataFault (adr.1 + fourTimes j) = none) :
    ∃ u, loadWithWriteback op adr s = .ok (adr.1 + fourTimes (selectedLow op.list).length) u :=
  loadRegs_ok fun j hj => by rw [dataFault_writeback]; exact h j hj

/-- LDM, its condition passed: it answers exactly when the form is not refused, the loads finish and, with register 15 listed,
the last read does (43 R201). -/
theorem handleLdm_eq_ok {c : Cond} {op : BlockOp} {s t : State} {st : Status} (hc : condPassed s.cpsr c = true) :
    handleLdm c op s = .ok st t ↔ (op.rn ≠ 15 ∧ op.list ≠ 0#16) ∧ ∃ a u, loadWithWriteback op (blockAdr op s) s = .ok a u ∧
      ((op.list.getLsbD 15 = false ∧ st = .continues ∧ t = u) ∨
        (op.list.getLsbD 15 = true ∧ s.dataFault a = none ∧ st = .branched ∧ t = u.exchange (s.wordAt a))) := by
  rw [handleLdm, conditional_pass _ hc, Res.bind_eq_ok]
  constructor
  · rintro ⟨adr, v, hb, h⟩
    obtain ⟨hf, rfl, rfl⟩ := blockStart_eq_ok.mp hb
    obtain ⟨a, u, hl, h⟩ := Res.bind_eq_ok.mp h
    have hfr := loadWithWriteback_frame hl
    refine ⟨hf, a, u, hl, ?_⟩
    cases h15 : op.list.getLsbD 15
    · simp only [h15, Bool.false_eq_true, if_false, Res.ok.injEq] at h
      exact .inl ⟨rfl, h.1.symm, h.2.symm⟩
    · simp only [h15, if_true] at h
      obtain ⟨w, x, hr, h⟩ := Res.bind_eq_ok.mp h
      obtain ⟨hd, rfl, rfl⟩ := readWord_eq_ok.mp hr
      cases h
      refine .inr ⟨rfl, ?_, rfl, ?_⟩
      · rwa [dataFault_congr hfr.2.2.2.2.2.2] at hd
      · simp [State.wordAt, State.byteAt, hfr.2.2.2.2.2.1]
  · rintro ⟨hf, a, u, hl, h⟩
    have hfr := loadWithWriteback_frame hl
    refine ⟨_, s, blockStart_eq_ok.mpr ⟨hf, rfl, rfl⟩, Res.bind_eq_ok.mpr ⟨a, u, hl, ?_⟩⟩
    obtain ⟨h15, rfl, rfl⟩ | ⟨h15, hd, rfl, rfl⟩ := h
    · simp only [h15, Bool.false_eq_true, if_false]
    · simp only [h15, if_true]
      refine Res.bind_eq_ok.mpr ⟨u.wordAt a, u, readWord_eq_ok.mpr ⟨?_, rfl, rfl⟩, ?_⟩
      · rwa [dataFault_congr hfr.2.2.2.2.2.2]
      · simp [State.wordAt, State.byteAt, hfr.2.2.2.2.2.1]

/-- LDM_USER, its condition passed (43 R202). -/
theorem handleLdmUser_eq_ok {c : Cond} {op : BlockOp} {s t : State} {st : Status} (hc : condPassed s.cpsr c = true) :
    handleLdmUser c op s = .ok st t ↔ (op.rn ≠ 15 ∧ op.list ≠ 0#16) ∧ st = .continues ∧
      ∃ a u, loadRegs (selectedLow op.list) (blockAdr op s).1 (s.setBank .usr) = .ok a u ∧ t = u.setBank s.bankSel := by
  rw [handleLdmUser, conditional_pass _ hc, Res.bind_eq_ok]
  constructor
  · rintro ⟨adr, v, hb, h⟩
    obtain ⟨hf, rfl, rfl⟩ := blockStart_eq_ok.mp hb
    obtain ⟨a, x, hx, h⟩ := Res.bind_eq_ok.mp h
    obtain ⟨u, hl, hu⟩ := inUserBank_eq_ok.mp hx
    cases h
    exact ⟨hf, rfl, a, u, hl, hu⟩
  · rintro ⟨hf, rfl, a, u, hl, rfl⟩
    exact ⟨_, s, blockStart_eq_ok.mpr ⟨hf, rfl, rfl⟩,
      Res.bind_eq_ok.mpr ⟨a, _, inUserBank_eq_ok.mpr ⟨u, hl, rfl⟩, rfl⟩⟩

/-- LDM_RET, its condition passed (43 R203). -/
theorem handleLdmRet_eq_ok {c : Cond} {op : BlockOp} {s t : State} {st : Status} (hc : condPassed s.cpsr c = true) :
    handleLdmRet c op s = .ok st t ↔ (op.rn ≠ 15 ∧ op.list ≠ 0#16) ∧ st = .branched ∧
      ∃ k b a u, spsrIndex (psrMode s.cpsr) = some k ∧ loadWithWriteback op (blockAdr op s) s = .ok a u ∧
        s.dataFault a = none ∧ bankOf (psrMode s.spsr[k.val]) = some b ∧
        t = ((u.setCpsr s.spsr[k.val]).setBank b).branch (clearBit0 (s.wordAt a)) := by
  rw [handleLdmRet, conditional_pass _ hc, Res.bind_eq_ok]
  constructor
  · rintro ⟨adr, v, hb, h⟩
    obtain ⟨hf, rfl, rfl⟩ := blockStart_eq_ok.mp hb
    cases hk : spsrIndex (psrMode v.cpsr) with
    | none => simp [hk] at h
    | some k =>
      simp only [hk] at h
      obtain ⟨a, u, hl, h⟩ := Res.bind_eq_ok.mp h
      have hfr := loadWithWriteback_frame hl
      obtain ⟨w, x, hr, h⟩ := Res.bind_eq_ok.mp h
      obtain ⟨hd, rfl, rfl⟩ := readWord_eq_ok.mp hr
      cases hbk : bankOf (psrMode x.spsr[k.val]) with
      | none => rw [exceptionReturn_stop hbk] at h; cases h
      | some b =>
        rw [exceptionReturn_ok hbk] at h
        cases h
        refine ⟨hf, rfl, k, b, a, x, rfl, hl, ?_, ?_, ?_⟩
        · rwa [dataFault_congr hfr.2.2.2.2.2.2] at hd
        · rwa [hfr.2.2.2.1] at hbk
        · simp [State.wordAt, State.byteAt, hfr.2.2.2.2.2.1, hfr.2.2.2.1]
  · rintro ⟨hf, rfl, k, b, a, u, hk, hl, hd, hb, rfl⟩
    have hfr := loadWithWriteback_frame hl
    refine ⟨_, s, blockStart_eq_ok.mpr ⟨hf, rfl, rfl⟩, ?_⟩
    simp only [hk]
    refine Res.bind_eq_ok.mpr ⟨a, u, hl, Res.bind_eq_ok.mpr ⟨u.wordAt a, u, readWord_eq_ok.mpr ⟨?_, rfl, rfl⟩, ?_⟩⟩
    · rwa [dataFault_congr hfr.2.2.2.2.2.2]
    · rw [exceptionReturn_ok (b := b) (by rw [hfr.2.2.2.1]; exact hb)]
      simp [State.wordAt, State.byteAt, hfr.2.2.2.2.2.1, hfr.2.2.2.1]

/-- STM, its condition passed (43 R204). -/
theorem handleStm_eq_ok {c : Cond} {op : BlockOp} {s t : State} {st : Status} (hc : condPassed s.cpsr c = true) :
    handleStm c op s = .ok st t ↔ (op.rn ≠ 15 ∧ op.list ≠ 0#16) ∧ st = .continues ∧
      ∃ u, storeRegs (selectedRegs op.list) (blockAdr op s).1 s = .ok () u ∧ t = writeback op (blockAdr op s).2 u := by
  rw [handleStm, conditional_pass _ hc, Res.bind_eq_ok]
  constructor
  · rintro ⟨adr, v, hb, h⟩
    obtain ⟨hf, rfl, rfl⟩ := blockStart_eq_ok.mp hb
    obtain ⟨_, u, hl, h⟩ := Res.bind_eq_ok.mp h
    cases h
    exact ⟨hf, rfl, u, hl, rfl⟩
  · rintro ⟨hf, rfl, u, hl, rfl⟩
    exact ⟨_, s, blockStart_eq_ok.mpr ⟨hf, rfl, rfl⟩, Res.bind_eq_ok.mpr ⟨(), u, hl, rfl⟩⟩

/-- STM_USER, its condition passed (43 R205). -/
theorem handleStmUser_eq_ok {c : Cond} {op : BlockOp} {s t : State} {st : Status} (hc : condPassed s.cpsr c = true) :
    handleStmUser c op s = .ok st t ↔ (op.rn ≠ 15 ∧ op.list ≠ 0#16) ∧ st = .continues ∧
      ∃ u, storeRegs (selectedRegs op.list) (blockAdr op s).1 (s.setBank .usr) = .ok () u ∧ t = u.setBank s.bankSel := by
  rw [handleStmUser, conditional_pass _ hc, Res.bind_eq_ok]
  constructor
  · rintro ⟨adr, v, hb, h⟩
    obtain ⟨hf, rfl, rfl⟩ := blockStart_eq_ok.mp hb
    obtain ⟨_, x, hx, h⟩ := Res.bind_eq_ok.mp h
    obtain ⟨u, hl, hu⟩ := inUserBank_eq_ok.mp hx
    cases h
    exact ⟨hf, rfl, u, hl, hu⟩
  · rintro ⟨hf, rfl, u, hl, rfl⟩
    exact ⟨_, s, blockStart_eq_ok.mpr ⟨hf, rfl, rfl⟩,
      Res.bind_eq_ok.mpr ⟨(), _, inUserBank_eq_ok.mpr ⟨u, hl, rfl⟩, rfl⟩⟩

/-- A handler with a failed condition. -/
theorem handle_skip {i : Instr} {c : Cond} {s : State} (hi : i.cond? = some c) (hc : condPassed s.cpsr c = false) :
    handle i s = .ok .continues s := by
  cases i <;> simp only [Instr.cond?, Option.some.injEq, reduceCtorEq] at hi <;> subst hi <;>
    simp [handle, handleBx, handleBlxReg, handleB, handleBl, handleTBcc, handleLdm, handleLdmUser, handleLdmRet, handleStm,
      handleStmUser, conditional, hc]

/-- Who writes `T` by an exchange: the four exchanges, and a load with register 15 listed (10 R37, 42 R180, 43 R201). -/
def WritesT : Instr → Prop
  | .bx _ _ | .blxReg _ _ | .tBx _ | .tBlxReg _ => True
  | .ldm _ op => op.list.getLsbD 15 = true
  | .b _ _ | .bl _ _ | .ldmUser _ _ | .ldmRet _ _ | .stm _ _ | .stmUser _ _ => False
  | .tReservedCond14 _ | .tReservedCond15 _ | .tBcc _ _ | .tB _ | .tBlHi _ | .tBlLo _ => False

/-- What a handler that answers did beside its registers, for the eleven instructions that are no block transfer. -/
theorem handle_frame_of_no_block {i : Instr} {s t : State} {st : Status} (h : handle i s = .ok st t)
    (hi : ∀ c op, i ≠ .ldm c op ∧ i ≠ .ldmUser c op ∧ i ≠ .ldmRet c op ∧ i ≠ .stm c op ∧ i ≠ .stmUser c op) :
    t.bankSel = s.bankSel ∧ t.spsr = s.spsr ∧ t.halted = s.halted ∧ t.mem = s.mem ∧ t.unadmitted = s.unadmitted ∧
      (t.cpsr = s.cpsr ∨ WritesT i ∧ (∀ c, i.cond? = some c → condPassed s.cpsr c = true) ∧ st = .branched ∧
        ∃ b, t.cpsr = psrSetT s.cpsr b) := by
  cases i with
  | ldm c op => exact absurd rfl (hi c op).1
  | ldmUser c op => exact absurd rfl (hi c op).2.1
  | ldmRet c op => exact absurd rfl (hi c op).2.2.1
  | stm c op => exact absurd rfl (hi c op).2.2.2.1
  | stmUser c op => exact absurd rfl (hi c op).2.2.2.2
  | tReservedCond14 low => cases h
  | tReservedCond15 low => cases h
  | tB imm11 => cases h; simp
  | tBlHi imm11 => cases h; simp
  | tBlLo imm11 => cases h; simp
  | tBx rm => cases h; simp [WritesT, Instr.cond?]
  | tBlxReg rm => cases h; simp [WritesT, Instr.cond?]
  | b c imm => cases hc : condPassed s.cpsr c <;> simp [handle, handleB, conditional, hc] at h <;> obtain ⟨rfl, rfl⟩ := h <;> simp
  | bl c imm => cases hc : condPassed s.cpsr c <;> simp [handle, handleBl, conditional, hc] at h <;> obtain ⟨rfl, rfl⟩ := h <;> simp
  | tBcc c imm => cases hc : condPassed s.cpsr c <;> simp [handle, handleTBcc, conditional, hc] at h <;> obtain ⟨rfl, rfl⟩ := h <;> simp
  | bx c rm => cases hc : condPassed s.cpsr c <;> simp [handle, handleBx, conditional, hc] at h <;> obtain ⟨rfl, rfl⟩ := h <;> simp [WritesT, Instr.cond?, hc]
  | blxReg c rm => cases hc : condPassed s.cpsr c <;> simp [handle, handleBlxReg, conditional, hc] at h <;> obtain ⟨rfl, rfl⟩ := h <;> simp [WritesT, Instr.cond?, hc]

/-- How a handler that answers may change the status register: not at all; its `T` bit, by an exchange and with `Branched`; or,
by an exception return, whole, with the bank following (10 R37, 43 R203). -/
def CpsrEffect (i : Instr) (s t : State) (st : Status) : Prop :=
  (t.bankSel = s.bankSel ∧ (t.cpsr = s.cpsr ∨ WritesT i ∧ (∀ c, i.cond? = some c → condPassed s.cpsr c = true) ∧
      st = .branched ∧ ∃ b, t.cpsr = psrSetT s.cpsr b)) ∨
    ∃ c op k, i = .ldmRet c op ∧ condPassed s.cpsr c = true ∧ st = .branched ∧ spsrIndex (psrMode s.cpsr) = some k ∧
      t.cpsr = s.spsr[k.val] ∧ bankOf (psrMode s.spsr[k.val]) = some t.bankSel

/-- What every handler that answers does beside its registers: SPSR entries, latch and ranges stay, the memory stays canonical,
the status register changes as `CpsrEffect` says. -/
theorem handle_effect {i : Instr} {s t : State} {st : Status} (h : handle i s = .ok st t) :
    t.spsr = s.spsr ∧ t.halted = s.halted ∧ t.unadmitted = s.unadmitted ∧
      (Memory.wf s.mem = true → Memory.wf t.mem = true) ∧ CpsrEffect i s t st := by
  by_cases hi : ∀ c op, i ≠ .ldm c op ∧ i ≠ .ldmUser c op ∧ i ≠ .ldmRet c op ∧ i ≠ .stm c op ∧ i ≠ .stmUser c op
  · obtain ⟨hb, hsp, hh, hm, hu, hcp⟩ := handle_frame_of_no_block h hi
    exact ⟨hsp, hh, hu, by rw [hm]; exact id, .inl ⟨hb, hcp⟩⟩
  · by_cases hskip : ∃ c, i.cond? = some c ∧ condPassed s.cpsr c = false
    · obtain ⟨c, hc, hp⟩ := hskip
      rw [handle_skip hc hp] at h
      cases h
      exact ⟨rfl, rfl, rfl, id, .inl ⟨rfl, .inl rfl⟩⟩
    have pass : ∀ c, i.cond? = some c → condPassed s.cpsr c = true := fun c hc => by
      cases hp : condPassed s.cpsr c
      · exact absurd ⟨c, hc, hp⟩ hskip
      · rfl
    cases i with
    | ldm c op =>
      obtain ⟨-, a, u, hl, ⟨-, -, rfl⟩ | ⟨h15, -, rfl, rfl⟩⟩ := (handleLdm_eq_ok (pass c rfl)).mp h
      all_goals obtain ⟨-, hb, hcp, hsp, hh, hm, hu⟩ := loadWithWriteback_frame hl
      · exact ⟨hsp, hh, hu, by rw [hm]; exact id, .inl ⟨hb, .inl hcp⟩⟩
      · exact ⟨hsp, hh, hu, by simp only [State.exchange_mem, hm]; exact id, .inl ⟨hb, .inr ⟨h15, pass, rfl, _, by simp [hcp]; rfl⟩⟩⟩
    | ldmUser c op =>
      obtain ⟨-, -, a, u, hl, rfl⟩ := (handleLdmUser_eq_ok (pass c rfl)).mp h
      obtain ⟨-, hb, hcp, hsp, hh, hm, hu⟩ := loadRegs_frame hl
      simp only [State.setBank_mem, State.setBank_cpsr, State.setBank_spsr, State.setBank_halted, State.setBank_unadmitted] at *
      exact ⟨hsp, hh, hu, by rw [hm]; exact id, .inl ⟨rfl, .inl hcp⟩⟩
    | ldmRet c op =>
      obtain ⟨-, rfl, k, b, a, u, hk, hl, -, hbk, rfl⟩ := (handleLdmRet_eq_ok (pass c rfl)).mp h
      obtain ⟨-, hb, hcp, hsp, hh, hm, hu⟩ := loadWithWriteback_frame hl
      exact ⟨hsp, hh, hu, by simp only [State.branch_mem, State.setBank_mem, State.setCpsr_mem, hm]; exact id,
        .inr ⟨c, op, k, rfl, pass c rfl, rfl, hk, rfl, hbk⟩⟩
    | stm c op =>
      obtain ⟨-, -, u, hl, rfl⟩ := (handleStm_eq_ok (pass c rfl)).mp h
      obtain ⟨hr, hb, hcp, hsp, hh, hu⟩ := storeRegs_frame hl
      exact ⟨by simp [hsp], by simp [hh], by simp [hu], fun hm => by simpa using storeRegs_wf hl hm, .inl ⟨by simp [hb], .inl (by simp [hcp])⟩⟩
    | stmUser c op =>
      obtain ⟨-, -, u, hl, rfl⟩ := (handleStmUser_eq_ok (pass c rfl)).mp h
      obtain ⟨hr, hb, hcp, hsp, hh, hu⟩ := storeRegs_frame hl
      have hwf : Memory.wf s.mem = true → Memory.wf u.mem = true := storeRegs_wf (s := s.setBank .usr) hl
      exact ⟨hsp, hh, hu, hwf, .inl ⟨rfl, .inl hcp⟩⟩
    | _ => exact absurd (fun c op => ⟨Instr.noConfusion, Instr.noConfusion, Instr.noConfusion, Instr.noConfusion, Instr.noConfusion⟩) hi

/-- A handler that continues leaves register 15 and CPSR: the advance is the dispatcher's (10 R30, R37). -/
theorem handle_continues {i : Instr} {s t : State} (h : handle i s = .ok .continues t) : t.physReg 15 = s.physReg 15 ∧ t.cpsr = s.cpsr := by
  refine ⟨?_, ?_⟩
  swap
  · obtain ⟨-, -, -, -, ⟨-, h | ⟨-, -, h, -⟩⟩ | ⟨_, _, _, -, -, h, -⟩⟩ := handle_effect h
    · exact h
    · cases h
    · cases h
  by_cases hskip : ∃ c, i.cond? = some c ∧ condPassed s.cpsr c = false
  · obtain ⟨c, hc, hp⟩ := hskip
    rw [handle_skip hc hp] at h
    cases h; rfl
  have pass : ∀ c, i.cond? = some c → condPassed s.cpsr c = true := fun c hc => by
    cases hp : condPassed s.cpsr c
    · exact absurd ⟨c, hc, hp⟩ hskip
    · rfl
  have n15 : ∀ (b : Bank) (r : RegIdx), r ≠ 15 → (15 : PhysReg) ≠ phys b r := fun b r hr e => hr ((phys_eq_fifteen b r).mp e.symm)
  have lt15 : ∀ r : RegIdx, r.val < 15 → r ≠ 15 := fun r h e => by subst e; exact absurd h (by decide)
  cases i with
  | ldm c op =>
    obtain ⟨hf, a, v, hl, ⟨-, -, rfl⟩ | ⟨-, -, hst, -⟩⟩ := (handleLdm_eq_ok (pass c rfl)).mp h
    · exact loadWithWriteback_other hl (fun r hr _ => n15 _ r (lt15 r hr)) (fun _ => n15 _ _ hf.1)
    · cases hst
  | ldmUser c op =>
    obtain ⟨hf, -, a, v, hl, rfl⟩ := (handleLdmUser_eq_ok (pass c rfl)).mp h
    rw [physReg_setBank, loadRegs_other hl 15]; · rfl
    simp only [List.mem_map, mem_selectedLow, State.setBank_bankSel]
    rintro ⟨r, ⟨-, h1⟩, h2⟩
    exact n15 _ r (lt15 r h1) h2.symm
  | ldmRet c op =>
    obtain ⟨hf, hst, -⟩ := (handleLdmRet_eq_ok (pass c rfl)).mp h
    cases hst
  | stm c op =>
    obtain ⟨hf, -, v, hl, rfl⟩ := (handleStm_eq_ok (pass c rfl)).mp h
    obtain ⟨hr, hb, -⟩ := storeRegs_frame hl
    rw [physReg_writeback, hb, if_neg (fun e => n15 _ _ hf.1 e.2)]
    simp [State.physReg, hr]
  | stmUser c op =>
    obtain ⟨hf, -, v, hl, rfl⟩ := (handleStmUser_eq_ok (pass c rfl)).mp h
    obtain ⟨hr, hb, -⟩ := storeRegs_frame hl
    simp [State.physReg, hr]
  | tBlHi imm => cases h; rw [physReg_setReg, if_neg (n15 _ _ (by decide))]
  | tReservedCond14 low => cases h
  | tReservedCond15 low => cases h
  | tB imm11 => cases h
  | tBlLo imm11 => cases h
  | tBx rm => cases h
  | tBlxReg rm => cases h
  | b c imm => simp [handle, handleB, conditional, pass c rfl] at h
  | bl c imm => simp [handle, handleBl, conditional, pass c rfl] at h
  | tBcc c imm => simp [handle, handleTBcc, conditional, pass c rfl] at h
  | bx c rm => simp [handle, handleBx, conditional, pass c rfl] at h
  | blxReg c rm => simp [handle, handleBlxReg, conditional, pass c rfl] at h

end Sys2Proof.Machine
end

