-- ==== Sys2Proof/Laws/Operands.lean ====
section
/-! SUPPORT. The displacements of the compressed branch with link as one sign- or zero-extended value (30 R101), the pipeline
offset in terms of `T` (10 R29), and what the resolver keeps (40 R136). -/

namespace Sys2Proof.Machine

/-- The pipeline offset of the current set (10 R29). -/
theorem pcOffset_eq (s : State) : s.pcOffset = if s.cpsr.getLsbD 5 then 4#32 else 8#32 := by
  cases h : s.cpsr.getLsbD 5 <;> simp only [State.pcOffset, State.instrSet, psrT, h, pcOffsetOf] <;> rfl

/-- The first half's displacement, shifted before it is extended. -/
theorem offsetHi_eq (imm : BitVec 11) : offsetHi imm = (imm ++ 0#12).signExtend 32 := by
  apply BitVec.eq_of_getLsbD_eq
  intro i hi
  simp only [offsetHi, BitVec.getLsbD_shiftLeft, BitVec.getLsbD_signExtend, BitVec.getLsbD_append,
    BitVec.msb_eq_getLsbD_last]
  by_cases h : i < 12
  · simp [h, hi, show i < 23 by omega]
  · by_cases h2 : i < 23
    · simp [h, hi, h2, show i - 12 < 11 by omega, show i - 12 < 32 by omega]
    · simp [h, hi, h2, show ¬ i - 12 < 11 by omega, show i - 12 < 32 by omega]

/-- The second half's displacement, shifted before it is extended. -/
theorem offsetLo_eq (imm : BitVec 11) : offsetLo imm = (imm ++ 0#1).setWidth 32 := by
  apply BitVec.eq_of_getLsbD_eq
  intro i hi
  simp only [offsetLo, BitVec.getLsbD_shiftLeft, BitVec.getLsbD_setWidth, BitVec.getLsbD_append]
  by_cases h : i < 1
  · simp [h]
  · simp [h, hi, show i - 1 < 32 by omega]

/-- The two halves' displacements add up to the one they hold together. -/
theorem halves_add (hi lo : BitVec 11) :
    (hi ++ 0#12).signExtend 32 + (lo ++ 0#1).setWidth 32 = (hi ++ lo ++ 0#1).signExtend 32 := by
  have zero : ∀ i, ¬ i < 12 → (lo ++ 0#1).getLsbD i = false := fun i h => BitVec.getLsbD_of_ge _ _ (by omega)
  rw [BitVec.add_eq_or_of_and_eq_zero]
  · apply BitVec.eq_of_getLsbD_eq
    intro i hi'
    by_cases h : i < 12
    · simp only [BitVec.getLsbD_or, BitVec.getLsbD_signExtend, BitVec.getLsbD_setWidth, BitVec.getLsbD_append]
      by_cases h0 : i < 1
      · simp [h0, h, hi', show i < 23 by omega]
      · simp [h0, h, hi', show i < 23 by omega, show i - 1 < 11 by omega]
    · rw [BitVec.getLsbD_or, BitVec.getLsbD_setWidth, zero i h]
      simp only [BitVec.getLsbD_signExtend, BitVec.getLsbD_append, BitVec.msb_eq_getLsbD_last]
      by_cases h2 : i < 23
      · simp [h, hi', h2, show ¬ i < 1 by omega, show ¬ i - 1 < 11 by omega, show i - 1 - 11 = i - 12 by omega]
      · simp [h2, hi']
  · apply BitVec.eq_of_getLsbD_eq
    intro i hi'
    by_cases h : i < 12
    · simp only [BitVec.getLsbD_and, BitVec.getLsbD_signExtend, BitVec.getLsbD_append]
      simp [h, show i < 23 by omega]
    · rw [BitVec.getLsbD_and, BitVec.getLsbD_setWidth, zero i h]
      simp

end Sys2Proof.Machine
end

