-- ==== Sys2Proof/Laws/PerInstr.lean ====
section
/-! SUPPORT. Statements for all instructions, one lemma per constructor. -/

namespace Sys2Proof.Laws.EncodedSet

/-- An instruction's value is of the set the instruction belongs to, as wide as that set's fetch (30 R91, R109). -/
def Statement (i : Instr) : Prop :=
  codeSet (encode i) = i.instrSet ∧
    (codeBytes (encode i)).length = (match i.instrSet with | .primary => 4 | .compressed => 2)

theorem bx (c : Cond) (rm : RegIdx) : Statement (.bx c rm) := ⟨rfl, rfl⟩
theorem blxReg (c : Cond) (rm : RegIdx) : Statement (.blxReg c rm) := ⟨rfl, rfl⟩
theorem b (c : Cond) (imm24 : BitVec 24) : Statement (.b c imm24) := ⟨rfl, rfl⟩
theorem bl (c : Cond) (imm24 : BitVec 24) : Statement (.bl c imm24) := ⟨rfl, rfl⟩
theorem ldm (c : Cond) (op : BlockOp) : Statement (.ldm c op) := ⟨rfl, rfl⟩
theorem ldmUser (c : Cond) (op : BlockOp) : Statement (.ldmUser c op) := ⟨rfl, rfl⟩
theorem ldmRet (c : Cond) (op : BlockOp) : Statement (.ldmRet c op) := ⟨rfl, rfl⟩
theorem stm (c : Cond) (op : BlockOp) : Statement (.stm c op) := ⟨rfl, rfl⟩
theorem stmUser (c : Cond) (op : BlockOp) : Statement (.stmUser c op) := ⟨rfl, rfl⟩
theorem tReservedCond14 (low : BitVec 8) : Statement (.tReservedCond14 low) := ⟨rfl, rfl⟩
theorem tReservedCond15 (low : BitVec 8) : Statement (.tReservedCond15 low) := ⟨rfl, rfl⟩
theorem tBcc (c : Cond) (imm8 : BitVec 8) : Statement (.tBcc c imm8) := ⟨rfl, rfl⟩
theorem tB (imm11 : BitVec 11) : Statement (.tB imm11) := ⟨rfl, rfl⟩
theorem tBlHi (imm11 : BitVec 11) : Statement (.tBlHi imm11) := ⟨rfl, rfl⟩
theorem tBlLo (imm11 : BitVec 11) : Statement (.tBlLo imm11) := ⟨rfl, rfl⟩
theorem tBx (rm : RegIdx) : Statement (.tBx rm) := ⟨rfl, rfl⟩
theorem tBlxReg (rm : RegIdx) : Statement (.tBlxReg rm) := ⟨rfl, rfl⟩

end Sys2Proof.Laws.EncodedSet
end

