-- ==== Sys2Proof/Laws/Port.lean ====
section
/-! SUPPORT. The accesses of a block transfer: when its loops stop, and what they put on the port (43 R211, 44 R248). -/

namespace Sys2Proof.Machine

/-! ### The transfer's addresses -/

/-- The resolver keeps the base's alignment: a transfer is aligned as a whole or not at all (40 R136, 20 R65). -/
theorem aligned4_blockAdr (op : BlockOp) (s : State) : aligned4 (blockAdr op s).1 = aligned4 (s.reg op.rn) := by
  have up : ∀ a : Word, aligned4 (a + 4#32) = aligned4 a := fun a => aligned4_add_fourTimes a 1
  have down : ∀ (a : Word) n, aligned4 (a - fourTimes n) = aligned4 a := fun a n => by
    have := aligned4_add_fourTimes (a - fourTimes n) n
    rw [BitVec.sub_add_cancel] at this
    exact this.symm
  simp only [blockAdr, resolve]
  cases op.p <;> cases op.u <;> simp [up, down]

theorem popcount_pos {list : BitVec 16} (h : list ≠ 0#16) : 0 < popcount list := by
  by_contra hc
  apply h
  have h0 : selectedRegs list = [] := List.length_eq_zero_iff.mp (by unfold popcount at hc; omega)
  apply BitVec.eq_of_getLsbD_eq
  intro i hi
  by_contra hn
  have : (⟨i, hi⟩ : RegIdx) ∈ selectedRegs list := by rw [mem_selectedRegs]; simpa using hn
  rw [h0] at this
  simp at this

/-! ### When the loops stop -/

/-- In a finished load loop every access passed its checks. -/
theorem loadRegs_passed {is : List RegIdx} {a b : Word} {s t : State} (h : loadRegs is a s = .ok b t) :
    ∀ k < is.length, s.dataFault (a + fourTimes k) = none := by
  induction is generalizing a s with
  | nil => intro k hk; simp at hk
  | cons i is ih =>
    intro k hk
    obtain ⟨v, w, hr, hl⟩ := Res.bind_eq_ok.mp h
    obtain ⟨hd, rfl, rfl⟩ := readWord_eq_ok.mp hr
    cases k with
    | zero => simpa using hd
    | succ k => rw [add_fourTimes_succ]; exact ih hl k (by simpa using hk)

/-- In a finished store loop every access passed its checks. -/
theorem storeRegs_passed {is : List RegIdx} {a : Word} {s t : State} (h : storeRegs is a s = .ok () t) :
    ∀ k < is.length, s.dataFault (a + fourTimes k) = none := by
  induction is generalizing a s with
  | nil => intro k hk; simp at hk
  | cons i is ih =>
    intro k hk
    obtain ⟨v, w, hr, hl⟩ := Res.bind_eq_ok.mp h
    obtain ⟨hd, rfl⟩ := writeWord_eq_ok.mp hr
    cases k with
    | zero => simpa using hd
    | succ k => rw [add_fourTimes_succ]; exact ih hl k (by simpa using hk)

/-- A store loop one of whose accesses fails stops, with the one cause its failing accesses have. -/
theorem storeRegs_stops {is : List RegIdx} {a : Word} {s : State} {j : Nat} {c : Fault} (hj : j < is.length)
    (hf : s.dataFault (a + fourTimes j) ≠ none)
    (hall : ∀ j < is.length, ∀ d, s.dataFault (a + fourTimes j) = some d → d = c) : ∃ u, storeRegs is a s = .stop c u := by
  cases h : storeRegs is a s with
  | stop d u =>
    obtain ⟨k, hk, hd⟩ := storeRegs_stop h
    exact ⟨u, by rw [hall k hk d hd]⟩
  | ok x u => exact absurd (storeRegs_passed h j hj) hf

/-- The loads of LDM and LDM_RET, one of whose accesses fails: they stop, or the one for register 15 does, with the one cause
the failing accesses have. -/
theorem loadWithWriteback_stops {op : BlockOp} {adr : Word × Word} {s : State} {j : Nat} {c : Fault}
    (hj : j < popcount op.list) (hf : s.dataFault (adr.1 + fourTimes j) ≠ none)
    (hall : ∀ j < popcount op.list, ∀ d, s.dataFault (adr.1 + fourTimes j) = some d → d = c) :
    (∃ u, loadWithWriteback op adr s = .stop c u) ∨
      (op.list.getLsbD 15 = true ∧ ∃ a u, loadWithWriteback op adr s = .ok a u ∧ s.dataFault a = some c) := by
  have hlen := selectedLow_length op.list
  cases h : loadWithWriteback op adr s with
  | stop d u =>
    obtain ⟨k, hk, hd⟩ := loadRegs_stop h
    rw [dataFault_writeback] at hd
    exact .inl ⟨u, by rw [hall k (by split at hlen <;> omega) d hd]⟩
  | ok a u =>
    have hno : ∀ k < (selectedLow op.list).length, s.dataFault (adr.1 + fourTimes k) = none := fun k hk => by
      have := loadRegs_passed h k hk
      rwa [dataFault_writeback] at this
    have hja : j = (selectedLow op.list).length := by
      by_contra hne
      exact hf (hno j (by split at hlen <;> omega))
    have h15 : op.list.getLsbD 15 = true := by
      by_contra hc
      rw [if_neg hc] at hlen
      omega
    refine .inr ⟨h15, a, u, rfl, ?_⟩
    rw [(loadWithWriteback_frame h).1, ← hja]
    cases hd : s.dataFault (adr.1 + fourTimes j) with
    | none => exact absurd hd hf
    | some d => rw [hall j hj d hd]

/-! ### What reaches the port -/

theorem transferPlan_getElem? (is : List RegIdx) (a : Word) (j : Nat) :
    (transferPlan is a)[j]? = is[j]?.map fun i => (i, a + fourTimes j) := by
  induction is generalizing a j with
  | nil => rfl
  | cons i is ih => cases j <;> simp [transferPlan, ih, add_fourTimes_succ]

@[simp] theorem transferPlan_length (is : List RegIdx) (a : Word) : (transferPlan is a).length = is.length := by
  induction is generalizing a with
  | nil => rfl
  | cons i is ih => simp [transferPlan, ih]

/-- Where every access passes its checks, all requests reach the port. -/
theorem issued_all (s : State) (req : RegIdx → Word → PortRequest) (is : List RegIdx) (a : Word)
    (h : ∀ j < is.length, s.dataFault (a + fourTimes j) = none) :
    (issued s ((transferPlan is a).map fun ia => (ia.2, req ia.1 ia.2))) =
      (transferPlan is a).map fun ia => req ia.1 ia.2 := by
  induction is generalizing a with
  | nil => rfl
  | cons i is ih =>
    have h0 := h 0 (by simp)
    rw [add_fourTimes_zero] at h0
    simp only [transferPlan, List.map_cons, issued, h0]
    rw [ih (a + 4#32) fun j hj => by rw [← add_fourTimes_succ]; exact h _ (by simpa using hj)]

/-- A misaligned transfer makes no request (20 R65). -/
theorem issued_misaligned {s : State} {req : RegIdx → Word → PortRequest} {a : Word} (is : List RegIdx)
    (h : aligned4 a = false) : issued s ((transferPlan is a).map fun ia => (ia.2, req ia.1 ia.2)) = [] := by
  cases is with
  | nil => rfl
  | cons i is => simp [transferPlan, issued, dataFault_misaligned h]

/-- Reads leave the memory. -/
theorem foldl_issued_read (s : State) (m : Memory) (l : List (RegIdx × Word)) :
    (issued s (l.map fun ia => (ia.2, PortRequest.read .word ia.2))).foldl applyRequest m = m := by
  induction l with
  | nil => rfl
  | cons x l ih =>
    simp only [List.map_cons, issued]
    split
    · exact ih
    · rfl
    · rfl

/-- A finished store loop leaves the memory its requests make; `s0` is any state with the same memory unit. -/
theorem storeRegs_mem {is : List RegIdx} {a : Word} {s t : State} (s0 : State) (value : RegIdx → Word)
    (hu : s0.unadmitted = s.unadmitted) (hv : ∀ i, value i = s.reg i) (h : storeRegs is a s = .ok () t) :
    t.mem = (issued s0 ((transferPlan is a).map fun ia => (ia.2, PortRequest.write .word ia.2 (value ia.1)))).foldl
      applyRequest s.mem := by
  induction is generalizing a s with
  | nil => simp only [storeRegs, Res.ok.injEq] at h; rw [← h.2]; rfl
  | cons i is ih =>
    obtain ⟨v, u, hr, hl⟩ := Res.bind_eq_ok.mp h
    obtain ⟨hd, rfl⟩ := writeWord_eq_ok.mp hr
    have hd0 : s0.dataFault a = none := by rw [dataFault_congr hu]; exact hd
    rw [ih (s := s.setWord a (s.reg i)) (by simpa using hu) hv hl]
    simp only [transferPlan, List.map_cons, issued, hd0, List.foldl_cons, applyRequest, hv, valueBytes]
    rfl

end Sys2Proof.Machine
end

