-- ==== Sys2Proof/Tests/Slice0.lean ====
section
/-! SUPPORT. The model's own tests. Every expected value is from spec/95_test_vectors.md (the vector's id is in the docstring)
or worked out by hand from a rule; then a witness for the hypotheses of each obligation that has some. -/

namespace Sys2Proof.Tests

open Sys2Proof.Machine Sys2Proof.Claims

/-! ### Helpers -/

/-- A state from its status word, bank, register copies and memory words. -/
def mk (cpsr : Word) (b : Bank) (rs : List (PhysReg × Word)) (m : List (Word × Word)) : State :=
  let s := rs.foldl (fun s r => s.setPhys r.1 r.2) { State.powerOn with cpsr := cpsr, bankSel := b }
  m.foldl (fun s w => s.setWord w.1 w.2) s

/-- Supervisor mode in the primary set at `0x8000`, register 0 at `0x2000`, and the words of 95 section 2.5. -/
def prim (cpsr : Word) (rs : List (PhysReg × Word)) : State :=
  mk cpsr .svc ((15, 0x8008) :: (0, 0x2000) :: rs)
    [(0x1FF8, 0x98), (0x1FFC, 0x9C), (0x2000, 0xA0), (0x2004, 0xA1), (0x2008, 0xA2)]

/-- Supervisor mode in the compressed set; `pc` is the PC-view. -/
def comp (cpsr pc : Word) (rs : List (PhysReg × Word)) : State := mk cpsr .svc ((15, pc) :: rs) []

/-- What a next state shows. -/
def see {α : Type} (o : Host.Outcome State Fault Refusal) (f : State → α) : Option α :=
  match o with
  | .next t => some (f t)
  | .fault _ => none
  | .refused _ => none

/-- The cause of a fault. -/
def cause (o : Host.Outcome State Fault Refusal) : Option Fault :=
  match o with
  | .next _ => none
  | .fault c => some c
  | .refused _ => none

/-! ### Well-formedness: each check refuses an ill-formed term, in the syntax and in `exec` (93 U28) -/

theorem test_wf_ldmUser : (Instr.ldmUser .al ⟨false, true, false, 0, 0x8001#16⟩).wellFormed = false := by decide
theorem test_wf_ldmRet : (Instr.ldmRet .al ⟨false, true, false, 0, 0x0001#16⟩).wellFormed = false := by decide
theorem test_wf_tBcc_al : (Instr.tBcc .al 0#8).wellFormed = false := by decide
theorem test_wf_tBcc_nv : (Instr.tBcc .nv 0#8).wellFormed = false := by decide
theorem test_exec_ill_formed :
    exec (.ldmUser .al ⟨false, true, false, 0, 0x8001#16⟩) State.reset = .refused .illFormed ∧
      exec (.ldmRet .al ⟨false, true, false, 0, 0x0001#16⟩) State.reset = .refused .illFormed ∧
      exec (.tBcc .al 0#8) State.reset = .refused .illFormed ∧ exec (.tBcc .nv 0#8) State.reset = .refused .illFormed :=
  ⟨rfl, rfl, rfl, rfl⟩

/-! ### Decoding: words written from the formats of 30 R93 to R99, most of them with a vector of 95 -/

/-- X5: cond NE, PX, `op` 1, Rm 0. -/
theorem test_decode_bx : decodeTableWord 32 0x112FFF10 = some (.bx .ne 0) := by decide
/-- X6. -/
theorem test_decode_blxReg : decodeTableWord 32 0xE12FFF3E = some (.blxReg .al 14) := by decide
/-- B1. -/
theorem test_decode_b : decodeTableWord 32 0xEAFFFFFF = some (.b .al 0xFFFFFF#24) := by decide
/-- B8. -/
theorem test_decode_bl : decodeTableWord 32 0x0BFFFFFE = some (.bl .eq 0xFFFFFE#24) := by decide
/-- L4: P 0, U 0, W 1. -/
theorem test_decode_ldm : decodeTableWord 32 0xE8300006 = some (.ldm .al ⟨false, false, true, 0, 6#16⟩) := by decide
/-- U2. -/
theorem test_decode_ldmUser : decodeTableWord 32 0xE8DD6000 = some (.ldmUser .al ⟨false, true, false, 13, 0x6000#16⟩) := by
  decide
/-- T7. -/
theorem test_decode_ldmRet : decodeTableWord 32 0xE8FDA000 = some (.ldmRet .al ⟨false, true, true, 13, 0xA000#16⟩) := by
  decide
/-- S2: P 1, U 1, W 1. -/
theorem test_decode_stm : decodeTableWord 32 0xE9A00006 = some (.stm .al ⟨true, true, true, 0, 6#16⟩) := by decide
/-- S11. -/
theorem test_decode_stmUser : decodeTableWord 32 0xE8C09100 = some (.stmUser .al ⟨false, true, false, 0, 0x9100#16⟩) := by
  decide
/-- Q4 and Q5 with a non-zero low byte. -/
theorem test_decode_reserved : decodeTableWord 16 0xDE12 = some (.tReservedCond14 0x12#8) ∧
    decodeTableWord 16 0xDF34 = some (.tReservedCond15 0x34#8) := by decide
/-- B16. -/
theorem test_decode_tBcc : decodeTableWord 16 0xDBFE = some (.tBcc .lt 0xFE#8) := by decide
/-- B12. -/
theorem test_decode_tB : decodeTableWord 16 0xE400 = some (.tB 0x400#11) := by decide
/-- B18. -/
theorem test_decode_tBlHi : decodeTableWord 16 0xF3FF = some (.tBlHi 0x3FF#11) := by decide
/-- B21. -/
theorem test_decode_tBlLo : decodeTableWord 16 0xF800 = some (.tBlLo 0#11) := by decide
/-- X14: a high register. -/
theorem test_decode_tBx : decodeTableWord 16 0x4740 = some (.tBx 8) := by decide
/-- X13. -/
theorem test_decode_tBlxReg : decodeTableWord 16 0x47F0 = some (.tBlxReg 14) := by decide
/-- Q1, Q2, Q3, then X15, Q6 and the two of Q7: no descriptor. -/
theorem test_decode_unknown :
    decodeCode false (.word 0xE1A00000#32) = .error .unknownPrimary ∧
    decodeCode false (.word 0xE12FFF20#32) = .error .unknownPrimary ∧
    decodeCode false (.word 0xE12F0F10#32) = .error .unknownPrimary ∧
    decodeCode false (.half 0x4771#16) = .error .unknownCompressed ∧
    decodeCode false (.half 0xE800#16) = .error .unknownCompressed ∧
    decodeCode false (.half 0xB500#16) = .error .unknownCompressed ∧
    decodeCode false (.half 0xC000#16) = .error .unknownCompressed := by decide
/-- B9 and B9r. -/
theorem test_decode_nv : decodeCode false (.word 0xFA000000#32) = .ok (.b .nv 0#24) ∧
    decodeCode true (.word 0xFA000000#32) = .error .condNvRefused := by decide
/-- A list shorter than the instruction is rejected by name. -/
theorem test_decode_truncated : decodeBytes false .primary [0xFF#8, 0xFF#8, 0xFF#8] = .error .truncated := by decide

/-! ### The condition evaluator: rows 1010 and 0100 of 95 section 2.1 -/

theorem test_condition_row_1010 : (List.range 16).map (fun k => condHolds true false true false (condOfBits (BitVec.ofNat 4 k))) =
    [false, true, true, false, true, false, false, true, true, false, false, true, false, true, true, true] := by decide
theorem test_condition_row_0100 : (List.range 16).map (fun k => condHolds false true false false (condOfBits (BitVec.ofNat 4 k))) =
    [true, false, false, true, false, true, false, true, false, true, true, false, false, true, true, true] := by decide

/-! ### The resolver: 95 section 2.2 -/

theorem test_resolve_wrap : resolve 0xFFFFFFF8#32 3 true true = (0xFFFFFFFC#32, 4#32) ∧
    resolve 4#32 3 false false = (0xFFFFFFFC#32, 0xFFFFFFF8#32) := by decide
theorem test_resolve_zero : resolve 0x1000#32 0 false false = (0x1004#32, 0x1000#32) := by decide

/-! ### One step of each instruction -/

/-- B4, largest backward. -/
theorem test_b : see (exec (.b .al 0x800000#24) (prim 0x13 [])) (fun t => t.reg 15) = some 0xFE008010 := by decide
/-- B7, with PC-view 0x800C. -/
theorem test_bl : see (exec (.bl .al 1#24) (prim 0x13 [(15, 0x800C)])) (fun t => (t.reg 14, t.reg 15)) =
    some (0x8008, 0x8018) := by decide
/-- B8, skipped. -/
theorem test_bl_skipped : see (exec (.bl .eq 0xFFFFFE#24) (prim 0x13 [(15, 0x800C), (26, 0x77)]))
    (fun t => (t.reg 14, t.reg 15)) = some (0x77, 0x8010) := by decide
/-- B12. -/
theorem test_tB : see (exec (.tB 0x400#11) (comp 0x33 0x1004 [])) (fun t => t.reg 15) = some 0x808 := by decide
/-- B14. -/
theorem test_tBcc : see (exec (.tBcc .eq 0x80#8) (comp 0x40000033 0x1004 [])) (fun t => t.reg 15) = some 0xF08 := by decide
/-- B15. -/
theorem test_tBcc_skipped : see (exec (.tBcc .ne 0xFE#8) (comp 0x40000033 0x1004 [])) (fun t => t.reg 15) = some 0x1006 := by
  decide
/-- B17. -/
theorem test_tBlHi : see (exec (.tBlHi 0x7FF#11) (comp 0x33 0x104 [])) (fun t => (t.reg 14, t.reg 15)) =
    some (0xFFFFF104, 0x106) := by decide
/-- B20. -/
theorem test_tBlLo : see (exec (.tBlLo 0x7FF#11) (comp 0x33 0x106 [(26, 0x104)])) (fun t => (t.reg 14, t.reg 15)) =
    some (0x105, 0x1106) := by decide
/-- X1. -/
theorem test_bx : see (exec (.bx .al 0) (prim 0x13 [(0, 0x9001)])) (fun t => (t.reg 15, t.cpsr, t.fetchAddr)) =
    some (0x9004, 0x33, 0x9000) := by decide
/-- X4, register 15 as the target. -/
theorem test_bx_pc : see (exec (.bx .al 15) (prim 0x13 [])) (fun t => (t.reg 15, t.cpsr)) = some (0x8010, 0x13) := by decide
/-- X6, the link register as the target. -/
theorem test_blxReg : see (exec (.blxReg .al 14) (prim 0x13 [(26, 0x9001)])) (fun t => (t.reg 14, t.reg 15, t.cpsr)) =
    some (0x8004, 0x9004, 0x33) := by decide
/-- X9. -/
theorem test_tBx : see (exec (.tBx 14) (comp 0x33 0x10C [(26, 0x8008)])) (fun t => (t.reg 15, t.cpsr)) =
    some (0x8010, 0x13) := by decide
/-- X13. -/
theorem test_tBlxReg : see (exec (.tBlxReg 14) (comp 0x33 0x204 [(26, 0x9001)])) (fun t => (t.reg 14, t.reg 15, t.cpsr)) =
    some (0x203, 0x9004, 0x33) := by decide
/-- L5, descending before. -/
theorem test_ldm : see (exec (.ldm .al ⟨true, false, true, 0, 6#16⟩) (prim 0x13 []))
    (fun t => (t.reg 0, t.reg 1, t.reg 2, t.reg 15)) = some (0x1FF8, 0x98, 0x9C, 0x800C) := by decide
/-- L6, the loaded base wins. -/
theorem test_ldm_base : see (exec (.ldm .al ⟨false, true, true, 0, 1#16⟩) (prim 0x13 [])) (fun t => t.reg 0) = some 0xA0 := by
  decide
/-- U2: the base is `r13_svc`, the user copies are loaded. -/
theorem test_ldmUser : see (exec (.ldmUser .al ⟨false, true, false, 13, 0x6000#16⟩) (prim 0x13 [(25, 0x2000), (26, 5)]))
    (fun t => (t.physReg 13, t.physReg 14, t.physReg 25, t.physReg 26, t.bankSel)) =
    some (0xA0, 0xA1, 0x2000, 5, .svc) := by decide
/-- The state of T7 but for the memory. -/
def und7 : State :=
  { mk 0x1B .und [(15, 0x8008), (29, 0x2000)] [(0x2000, 0x3000), (0x2004, 0x5000)] with spsr := #v[0, 0, 0, 0, 0x900000D3] }
/-- T7. -/
theorem test_ldmRet : see (exec (.ldmRet .al ⟨false, true, true, 13, 0xA000#16⟩) und7)
    (fun t => (t.physReg 29, t.cpsr, t.bankSel, t.reg 15)) = some (0x3000, 0x900000D3, .svc, 0x5008) := by decide
/-- T3: a reserved mode in the entry. -/
theorem test_ldmRet_badMode : cause (exec (.ldmRet .al ⟨false, true, false, 0, 0x8000#16⟩) (prim 0x13 [])) = some .badMode := by
  decide
/-- S6, the base not lowest in its list. -/
theorem test_stm : see (exec (.stm .al ⟨false, true, true, 1, 3#16⟩) (prim 0x13 [(0, 0x10), (1, 0x2000)]))
    (fun t => (t.wordAt 0x2000, t.wordAt 0x2004, t.reg 1)) = some (0x10, 0x2000, 0x2008) := by decide
/-- S7: register 15 stores `A + 8`. -/
theorem test_stm_pc : see (exec (.stm .al ⟨false, true, false, 0, 0x8001#16⟩) (prim 0x13 []))
    (fun t => (t.wordAt 0x2000, t.wordAt 0x2004)) = some (0x2000, 0x8008) := by decide
/-- S10: the writeback bit is ignored. -/
theorem test_stmUser : see (exec (.stmUser .al ⟨false, true, true, 13, 0x6000#16⟩)
      (mk 0x11 .fiq [(15, 0x8008), (21, 0x2000), (22, 0xF14), (13, 0x7000), (14, 0x1234)] []))
    (fun t => (t.wordAt 0x2000, t.wordAt 0x2004, t.reg 13, t.bankSel)) = some (0x7000, 0x1234, 0x2000, .fiq) := by decide
/-- Q4 and Q5. -/
theorem test_reserved : exec (.tReservedCond14 0#8) State.reset = .fault .unknownTag ∧
    exec (.tReservedCond15 0#8) State.reset = .fault .unknownTag := ⟨rfl, rfl⟩

/-! ### The step, the stops, reset -/

/-- Q9 and Q10: the PC-view of a launch, its status byte, its bank. -/
theorem test_reset : (State.launch 0x8000 State.powerOn).reg 15 = 0x8008 ∧
    (State.launch 0x8000 State.powerOn).cpsr.extractLsb' 0 8 = 0xD3#8 ∧
    (State.launch 0xFFFFFFFC State.powerOn).reg 15 = 4 := by decide
/-- The reset state meets the invariant, so its memory is canonical. -/
theorem test_reset_inv : State.reset.Inv := ⟨by decide, by decide, rfl⟩
/-- Q8: a misaligned fetch stops before any read. -/
theorem test_misaligned_fetch : cause (step (prim 0x13 [(15, 0x900A)])) = some .misalignedFetch := by decide
/-- Step 1 of P2, on a placed word. -/
theorem test_step_placed : see (step ((prim 0x13 [(0, 0x101)]).withFetchWord 32 0xE12FFF10)) (fun t => (t.reg 15, t.cpsr)) =
    some (0x104, 0x33) := by decide
/-- Q1 and Q4 through the step. -/
theorem test_step_unknown : cause (step (State.reset.withFetchWord 32 0xE1A00000)) = some .unknownTag ∧
    cause (step (State.reset.withFetchWord 16 0xDE00)) = some .unknownTag := by decide
/-- B9r. -/
theorem test_step_refuse_nv :
    cause (stepWith { standardParams with refuseCondNv := true } (State.reset.withFetchWord 32 0xFA000000)) =
      some .unknownTag := by
  decide
/-- L13, L14, L10, L12. -/
theorem test_transfer_stops :
    cause (exec (.ldm .al ⟨false, true, false, 0, 2#16⟩) (prim 0x13 [(0, 0x2002)])) = some .misalignedData ∧
    cause (exec (.ldm .al ⟨false, true, false, 0, 2#16⟩) { prim 0x13 [(0, 0x7000)] with unadmitted := [⟨0x7000, 4⟩] }) =
      some .memoryFault ∧
    cause (exec (.ldm .al ⟨false, true, false, 15, 1#16⟩) (prim 0x13 [])) = some .unpredictableForm ∧
    see (exec (.ldm .eq ⟨false, true, false, 0, 0#16⟩) (prim 0x13 [])) (fun t => t.reg 15) = some 0x800C := by decide
/-- The port sequence of L2: the fetch is the step's, the reads ascend (43 R211). -/
theorem test_requests : dataRequests (.ldm .al ⟨false, true, true, 0, 6#16⟩) (prim 0x13 []) = [.read .word 0x2000, .read .word 0x2004] := by
  decide
/-- The suggested STOP holds at B5's word and not at B2's. -/
theorem test_stop : standardParams.stopWhen (State.reset.withFetchWord 32 0xEAFFFFFE) = true ∧
    standardParams.stopWhen (State.reset.withFetchWord 32 0xEA000000) = false := by decide
/-- An exception return at 0x8000 to a reserved mode with `T = 1`, and the branch to itself 0xE7FE at 0x8004: the machine stops
with BadMode, and there, where a fetch would read that branch, is no end of a run, whatever STOP says (44 R245, 60 R262). -/
def stoppedAtSelfBranch : State :=
  cycle standardParams { (prim 0x13 []).setWord 0x8000 0xE8D08000 |>.setWord 0x8004 0xE7FE with spsr := #v[0, 0, 0x20, 0, 0] }
theorem test_stopped_is_no_end : stoppedAtSelfBranch.halted = some .badMode ∧
    stoppedAtSelfBranch.codeAt stoppedAtSelfBranch.instrSet stoppedAtSelfBranch.fetchAddr = .half 0xE7FE#16 ∧
    standardParams.stopWhen stoppedAtSelfBranch = false ∧
    finished { standardParams with stopWhen := fun _ => true } stoppedAtSelfBranch = false := by decide

/-! ### Witnesses: a state and operands that meet an obligation's hypotheses together, one per clause, at its boundaries -/

/-- A block transfer from register 0, ascending from the base, without writeback. -/
abbrev ia (list : BitVec 16) : BlockOp := ⟨false, true, false, 0, list⟩

/-- User mode in the primary set, register 0 at `0x2000`. -/
def user : State := mk 0x10 .usr [(15, 0x8008), (0, 0x2000)] []

/-- The loads' and stores' hypotheses: the condition passes, the list is without and with register 15. -/
theorem witness_transfers : Transfers (ia 6#16) (prim 0x13 []) ∧ Transfers (ia 0x8006#16) (prim 0x13 []) ∧
    Transfers ⟨true, false, true, 0, 6#16⟩ (prim 0x13 []) ∧ condPassed (prim 0x13 []).cpsr .al = true ∧
    (ia 6#16).list.getLsbD 15 = false ∧ (ia 0x8006#16).list.getLsbD 15 = true ∧
    Memory.wf (prim 0x13 []).mem = true := by
  unfold Transfers Admitted; decide

theorem witness_DecodeOfEncodeIsTheInstruction : (Instr.ldmRet .nv ⟨true, true, true, 15, 0xFFFF#16⟩).wellFormed = true ∧
    (Instr.tBcc .le 0xFF#8).wellFormed = true := by decide

theorem witness_EncodeOfDecodeIsTheValue : decodeCode true (.word 0xE8FD8001#32) = .ok (.ldmRet .al ⟨false, true, true, 13, 0x8001#16⟩) ∧
    decodeCode false (.half 0x47F8#16) = .ok (.tBlxReg 15) := by decide

theorem witness_DecoderAcceptsExactlyTheTableRows :
    decodeCode false (.word 0x08D00000#32) = .ok (.ldmUser .eq (ia 0#16)) ∧
    (0x08D00000#32 : Word) &&& (tableRow (.ldmUser .eq (ia 0#16))).2 = (tableRow (.ldmUser .eq (ia 0#16))).1 ∧
    (Instr.ldmUser .eq (ia 0#16)).instrSet = .primary := by decide

theorem witness_RefuseCondNvTakesOutTheNvSpace : (0xFA000000#32 : Word).extractLsb' 28 4 = 0b1111#4 ∧
    (0xEA000000#32 : Word).extractLsb' 28 4 ≠ 0b1111#4 := by decide

/-- The ranges of R22 at their ends: 7 and 15 shared by all, 8 and 12 apart in FIQ alone, 13 and 14 apart in each bank. -/
theorem witness_VisibleRegistersShareCopiesAsTabled : phys .fiq 7 = phys .usr 7 ∧ phys .fiq 8 ≠ phys .usr 8 ∧
    phys .irq 8 = phys .und 8 ∧ phys .fiq 12 ≠ phys .abt 12 ∧ phys .svc 12 = phys .usr 12 ∧ phys .svc 13 ≠ phys .usr 13 ∧
    phys .abt 14 ≠ phys .und 14 ∧ phys .fiq 15 = phys .und 15 := by decide

/-- One mode value per clause of the mode table, the last a reserved one next to a listed one. -/
theorem witness_BankOfModeIsTheTable : bankOf 0b10000#5 = some .usr ∧ bankOf 0b11111#5 = some .usr ∧ bankOf 0b10001#5 = some .fiq ∧
    bankOf 0b10010#5 = some .irq ∧ bankOf 0b10011#5 = some .svc ∧ bankOf 0b10111#5 = some .abt ∧ bankOf 0b11011#5 = some .und ∧
    bankOf 0b11110#5 = none ∧ bankOf 0#5 = none := by decide

theorem witness_FailedConditionOnlyAdvances : (Instr.ldmRet .eq ⟨false, true, true, 15, 0x8000#16⟩).wellFormed = true ∧
    (Instr.ldmRet .eq ⟨false, true, true, 15, 0x8000#16⟩).cond? = some .eq ∧ condPassed (prim 0x13 []).cpsr .eq = false := by
  decide

theorem witness_StatusDecidesTheAdvance : (comp 0x33 0x104 []).instrSet = (Instr.tBlHi 0#11).instrSet ∧
    (∃ t, handle (.tBlHi 0#11) (comp 0x33 0x104 []) = .ok .continues t) ∧
    (∃ t, handle (.tBlLo 0#11) (comp 0x33 0x104 []) = .ok .branched t) ∧
    ∃ t, handle (.ldm .al (ia 0#16)) (prim 0x13 []) = .stop .unpredictableForm t :=
  ⟨rfl, ⟨_, rfl⟩, ⟨_, rfl⟩, ⟨_, rfl⟩⟩

theorem witness_BranchedExactlyWhenTheRulesSay :
    (∃ t, handle (.ldm .al (ia 0x8000#16)) (prim 0x13 []) = .ok .branched t) ∧
    ∃ t, handle (.ldm .al (ia 1#16)) (prim 0x13 []) = .ok .continues t := ⟨⟨_, rfl⟩, ⟨_, rfl⟩⟩

theorem witness_FetchAddressIsThePcViewMinusTheOffset : ∃ code u, fetch (prim 0x13 []) = .ok code u := ⟨_, _, rfl⟩

theorem witness_BBranchesRelative : condPassed (prim 0x13 []).cpsr .nv = true := by decide

theorem witness_BlLinksAndBranches : condPassed (prim 0x13 []).cpsr .ne = true := by decide

theorem witness_CompressedBranchesAreRelative : Cond.le ≠ .al ∧ Cond.le ≠ .nv ∧
    condPassed (comp 0x40000033 0x104 []).cpsr .le = true := by decide

theorem witness_BlPairIsOneRelativeBranch : (comp 0x33 0x104 []).cpsr.getLsbD 5 = true := by decide

/-- The three cases: BX taken, T_BX, BX skipped. -/
theorem witness_ExchangeTakesTFromTheTarget : ((∃ c, Instr.bx .al 15 = .bx c 15 ∧ condPassed (prim 0x13 []).cpsr c = true) ∨
      Instr.bx .al 15 = .tBx 15) ∧ ((∃ c, Instr.tBx 0 = .bx c 0 ∧ condPassed (prim 0x13 []).cpsr c = true) ∨ Instr.tBx 0 = .tBx 0) ∧
    condPassed (prim 0x13 []).cpsr .eq = false :=
  ⟨.inl ⟨.al, rfl, by decide⟩, .inr rfl, by decide⟩

theorem witness_BlxRegLinksAndExchanges : condPassed (prim 0x40000013 []).cpsr .eq = true := by decide

theorem witness_NextFetchIsTheBranchTarget : condPassed (prim 0x13 []).cpsr .al = true ∧
    (∃ t, exec (.bx .al 14) (prim 0x13 []) = .next t) ∧ (∃ t, exec (.blxReg .al 14) (prim 0x13 []) = .next t) ∧
    (∃ t, exec (.tBx 14) (comp 0x33 0x104 []) = .next t) ∧ ∃ t, exec (.tBlxReg 14) (comp 0x33 0x104 []) = .next t :=
  ⟨by decide, ⟨_, rfl⟩, ⟨_, rfl⟩, ⟨_, rfl⟩, ⟨_, rfl⟩⟩

/-- The ends of the resolver's range. -/
theorem witness_ResolverFollowsItsTable : 0 ≤ 16 ∧ 16 ≤ 16 ∧ resolve 0x1000#32 16 true false = (0xFC0#32, 0xFC0#32) := by decide

theorem witness_LdmLoadsTheListedRegisters : condPassed (prim 0x13 []).cpsr .al = true ∧ (ia 6#16).list.getLsbD 15 = false ∧
    Transfers (ia 6#16) (prim 0x13 []) := by unfold Transfers Admitted; decide

theorem witness_LdmWithPcExchangesToTheLoadedWord : condPassed (prim 0x13 []).cpsr .al = true ∧
    (ia 0x8000#16).list.getLsbD 15 = true ∧ Transfers (ia 0x8000#16) (prim 0x13 []) := by unfold Transfers Admitted; decide

/-- LDM, LDM_RET, and LDM_USER with a base whose user copy is another register. -/
theorem witness_LoadedBaseWinsOverWriteback : condPassed (prim 0x13 []).cpsr .al = true ∧ (ia 1#16).list.getLsbD 0 = true ∧
    (∃ t, exec (.ldm .al ⟨false, true, true, 0, 1#16⟩) (prim 0x13 []) = .next t) ∧
    condPassed und7.cpsr .al = true ∧ (∃ t, exec (.ldmRet .al ⟨false, true, true, 13, 0xA000#16⟩) und7 = .next t) ∧
    (∃ t, exec (.ldmUser .al ⟨false, true, true, 13, 0x2000#16⟩) und7 = .next t) ∧ phys .und 13 ≠ phys .usr 13 :=
  ⟨by decide, by decide, ⟨_, rfl⟩, by decide, ⟨_, rfl⟩, ⟨_, rfl⟩, by decide⟩

theorem witness_LdmUserLoadsTheUserBank : condPassed (user).cpsr .al = true ∧ (ia 0x7FFF#16).list.getLsbD 15 = false ∧
    Transfers (ia 0x7FFF#16) (user) := by unfold Transfers Admitted; decide

theorem witness_LdmRetRestoresCpsrAndBank : condPassed und7.cpsr .al = true ∧
    (⟨false, true, true, 13, 0xA000#16⟩ : BlockOp).list.getLsbD 15 = true ∧
    Transfers ⟨false, true, true, 13, 0xA000#16⟩ und7 ∧ spsrIndex (psrMode und7.cpsr) = some 4 ∧
    bankOf (psrMode und7.spsr[4]) = some .svc := by unfold Transfers Admitted; decide

theorem witness_StmStoresTheListedRegisters : Memory.wf (prim 0x13 []).mem = true ∧ condPassed (prim 0x13 []).cpsr .al = true ∧
    Transfers ⟨true, false, true, 0, 0xFFFF#16⟩ (prim 0x13 []) := by unfold Transfers Admitted; decide

theorem witness_StmUserStoresTheUserBank : Memory.wf und7.mem = true ∧ condPassed und7.cpsr .al = true ∧
    Transfers ⟨false, true, true, 13, 0xE000#16⟩ und7 := by unfold Transfers Admitted; decide

/-- Base 15 with a list, and an empty list with another base. -/
theorem witness_RefusedFormsAreUnpredictable :
    (Instr.stm .al ⟨false, true, true, 15, 1#16⟩).wellFormed = true ∧
    blockForm (.stm .al ⟨false, true, true, 15, 1#16⟩) = some (.al, ⟨false, true, true, 15, 1#16⟩) ∧
    blockForm (.ldmUser .al (ia 0#16)) = some (.al, ia 0#16) ∧ (Instr.ldmUser .al (ia 0#16)).wellFormed = true ∧
    condPassed (prim 0x13 []).cpsr .al = true ∧ (ia 0#16).list = 0#16 := by decide

theorem witness_LdmRetWithoutSpsrStops : condPassed (user).cpsr .al = true ∧ (ia 0x8000#16).rn ≠ 15 ∧
    (ia 0x8000#16).list.getLsbD 15 = true ∧ psrMode (user).cpsr = 0b10000#5 ∧ psrMode { user with cpsr := 0x1F }.cpsr = 0b11111#5 := by
  decide

theorem witness_LdmRetToReservedModeStops : condPassed (prim 0x13 []).cpsr .al = true ∧ (ia 0x8000#16).list.getLsbD 15 = true ∧
    Transfers (ia 0x8000#16) (prim 0x13 []) ∧ spsrIndex (psrMode (prim 0x13 []).cpsr) = some 2 ∧
    bankOf (psrMode (prim 0x13 []).spsr[2]) = none := by unfold Transfers Admitted; decide

theorem witness_MisalignedTransferStops : (Instr.ldmRet .al (ia 0x8000#16)).wellFormed = true ∧
    blockForm (.ldmRet .al (ia 0x8000#16)) = some (.al, ia 0x8000#16) ∧
    condPassed (prim 0x13 []).cpsr .al = true ∧ (ia 0x8000#16).rn ≠ 15 ∧ (ia 0x8000#16).list ≠ 0#16 ∧
    ReturnPossible (.ldmRet .al (ia 0x8000#16)) (prim 0x13 []) ∧
    ((prim 0x13 [(0, 0x2001)]).reg 0).extractLsb' 0 2 ≠ 0#2 := by unfold ReturnPossible; decide

/-- The last byte of the second word is the one not admitted. -/
theorem witness_UnadmittedTransferFaults : (Instr.stm .al (ia 6#16)).wellFormed = true ∧
    blockForm (.stm .al (ia 6#16)) = some (.al, ia 6#16) ∧ condPassed (prim 0x13 []).cpsr .al = true ∧
    ReturnPossible (.stm .al (ia 6#16)) (prim 0x13 []) ∧ ((prim 0x13 []).reg 0).extractLsb' 0 2 = 0#2 ∧ 1 < count (ia 6#16).list ∧
    ¬ Admitted { prim 0x13 [] with unadmitted := [⟨0x2007, 1⟩] } (wordAddr (startOf (ia 6#16) (prim 0x13 [])) 1) := by
  unfold ReturnPossible Admitted; decide

theorem witness_TransferRequestsAreInOrder : ReturnPossible (.ldmRet .al (ia 0x8001#16)) (prim 0x13 []) ∧
    Transfers (ia 0x8001#16) (prim 0x13 []) ∧ condPassed (prim 0x13 []).cpsr .al = true ∧
    blockForm (.ldmRet .al (ia 0x8001#16)) = some (.al, ia 0x8001#16) ∧ (Instr.ldmRet .al (ia 0x8001#16)).wellFormed = true ∧
    (ia 0x8001#16).list.getLsbD 15 = true := by unfold ReturnPossible Transfers Admitted; decide

theorem witness_WordsAreLittleEndian : Memory.wf (prim 0x13 []).mem = true := by decide

/-- A store of register 0 and the three fetches that read it back. -/
theorem witness_StoredWordsAreFetched : ∃ t, exec (.stm .al (ia 1#16)) (prim 0x13 []) = .next t ∧
    Memory.wf (prim 0x13 []).mem = true ∧ condPassed (prim 0x13 []).cpsr .al = true ∧ (ia 1#16).list.getLsbD 0 = true ∧
    (∃ u : State, u.mem = t.mem ∧ u.unadmitted = [] ∧ psrT u.cpsr = false ∧ u.fetchAddr = 0x2000#32) ∧
    (∃ u : State, u.mem = t.mem ∧ u.unadmitted = [] ∧ psrT u.cpsr = true ∧ u.fetchAddr = 0x2000#32) ∧
    (∃ u : State, u.mem = t.mem ∧ u.unadmitted = [] ∧ psrT u.cpsr = true ∧ u.fetchAddr = 0x2000#32 + 2#32) ∧
    0x2000#32 = wordAddr (startOf (ia 1#16) (prim 0x13 [])) (rank (ia 1#16).list 0) :=
  ⟨_, rfl, by decide, by decide, by decide,
    ⟨{ prim 0x13 [(15, 0x2008)] with mem := _ }, rfl, by decide, by decide, by decide⟩,
    ⟨{ comp 0x33 0x2004 [] with mem := _ }, rfl, by decide, by decide, by decide⟩,
    ⟨{ comp 0x33 0x2006 [] with mem := _ }, rfl, by decide, by decide, by decide⟩, by decide⟩

/-- A handler that declines, and one that only continues. -/
def decliner : ExtHandler := fun _ _ _ => none
def idler : ExtHandler := fun _ _ _ => some .continues

/-- A handler of each kind of line: it reads the halfword at `r0`, writes it to `r1`, stores it as a word at `r0 + 4` and
branches to it. -/
def mover : ExtHandler := fun _ _ r =>
  some (.memRead .half r.regs[0] fun v => .setRegs { r with regs := r.regs.set 1 v } (.memWrite .word (r.regs[0] + 4) v (.branch v)))

/-- The parameters with an external handler. -/
def withExt (h : ExtHandler) : Params := { standardParams with ext := some h }

/-- A state whose next step is a branch, met by every obligation about a step that answers. -/
def running : State := (prim 0x13 []).withFetchWord 32 0xEAFFFFFE

/-- A step that answers, by an instruction and by a handler; then a request that is not admitted, of the fetch and of a
handler's write. -/
theorem witness_StepWritesWhatItsRequestsSay : (∃ t, step running = .next t) ∧
    (∃ t, stepWith (withExt mover) (prim 0x13 []) = .next t) ∧
    (PortRequest.fetch .word 0x8000 ∈ stepRequests standardParams { prim 0x13 [] with unadmitted := [⟨0x8003, 1⟩] } ∧
      { prim 0x13 [] with unadmitted := [⟨0x8003, 1⟩] }.admits 0x8000 PortWidth.word.bytes = false) ∧
    PortRequest.write .word 0x2004 0xA0 ∈ stepRequests (withExt mover) { prim 0x13 [] with unadmitted := [⟨0x2007, 1⟩] } ∧
    { prim 0x13 [] with unadmitted := [⟨0x2007, 1⟩] }.admits 0x2004 PortWidth.word.bytes = false :=
  ⟨⟨_, rfl⟩, ⟨_, rfl⟩, ⟨by decide, by decide⟩, by decide, by decide⟩

theorem witness_StepRunsTheDecodedInstruction :
    (running.halted = none ∧ psrT running.cpsr = false ∧ running.fetchAddr.extractLsb' 0 2 = 0#2 ∧
      running.admits running.fetchAddr 4 = true ∧
      decodeBytes false .primary [running.byteAt running.fetchAddr, running.byteAt (running.fetchAddr + 1#32),
        running.byteAt (running.fetchAddr + 2#32), running.byteAt (running.fetchAddr + 3#32)] = .ok (.b .al 0xFFFFFE#24, [])) ∧
    ((running.withFetchWord 16 0xE7FE).halted = none ∧ psrT (running.withFetchWord 16 0xE7FE).cpsr = true ∧
      (running.withFetchWord 16 0xE7FE).fetchAddr.getLsbD 0 = false ∧
      (running.withFetchWord 16 0xE7FE).admits (running.withFetchWord 16 0xE7FE).fetchAddr 2 = true ∧
      decodeBytes false .compressed [(running.withFetchWord 16 0xE7FE).byteAt (running.withFetchWord 16 0xE7FE).fetchAddr,
        (running.withFetchWord 16 0xE7FE).byteAt ((running.withFetchWord 16 0xE7FE).fetchAddr + 1#32)] =
          .ok (.tB 0x7FE#11, [])) ∧
    (fetch (prim 0x13 []) = .ok (.word 0#32) (prim 0x13 []) ∧
      describe true (fun _ => some (.bx .al 0)) (.word 0#32) = some (.bx .al 0)) := by decide

/-- The four cases: bit 1 set in the primary set, bit 0 set in the compressed set, then the last byte of each fetch not
admitted. -/
theorem witness_FetchStopsInOrder : (prim 0x13 [(15, 0x800A)]).halted = none ∧
    (psrT (prim 0x13 [(15, 0x800A)]).cpsr = false ∧ (prim 0x13 [(15, 0x800A)]).fetchAddr.extractLsb' 0 2 ≠ 0#2) ∧
    (psrT (comp 0x33 0x105 []).cpsr = true ∧ (comp 0x33 0x105 []).fetchAddr.getLsbD 0 = true) ∧
    ((prim 0x13 []).fetchAddr.extractLsb' 0 2 = 0#2 ∧
      { prim 0x13 [] with unadmitted := [⟨0x8003, 1⟩] }.admits (prim 0x13 []).fetchAddr 4 = false) ∧
    ((comp 0x33 0x104 []).fetchAddr.getLsbD 0 = false ∧
      { comp 0x33 0x104 [] with unadmitted := [⟨0x101, 1⟩] }.admits (comp 0x33 0x104 []).fetchAddr 2 = false) := by decide

/-- 44 R246 (b): the handler's accesses are requests on the port, after the fetch, and its effect is theirs. -/
theorem test_ext_requests : stepRequests (withExt mover) (prim 0x13 []) =
      [.fetch .word 0x8000, .read .half 0x2000, .write .word 0x2004 0xA0] ∧
    see (stepWith (withExt mover) (prim 0x13 [])) (fun t => (t.reg 1, t.wordAt 0x2004, t.reg 15)) = some (0xA0, 0xA0, 0xA8) := by
  decide
/-- 20 R71: a handler's access that the memory unit does not admit is a MemoryFault, and the request is made. -/
theorem test_ext_unadmitted :
    cause (stepWith (withExt mover) { prim 0x13 [] with unadmitted := [⟨0x2007, 1⟩] }) = some .memoryFault ∧
    stepRequests (withExt mover) { prim 0x13 [] with unadmitted := [⟨0x2007, 1⟩] } =
      [.fetch .word 0x8000, .read .half 0x2000, .write .word 0x2004 0xA0] := by decide
/-- 30 R92: another decoder's descriptor is run; one that is no descriptor of the set is `Unknown` (log 13). -/
theorem test_other_decoder :
    see (stepWith { standardParams with decode := fun _ => some (.bx .al 0) } (prim 0x13 [])) (fun t => t.reg 15) =
      some 0x2008 ∧
    cause (stepWith { standardParams with decode := fun _ => some (.tBx 0) } (prim 0x13 [])) = some .unknownTag := by decide

theorem witness_UnknownTagStopsWithoutEffect :
    (prim 0x13 []).halted = none ∧ (∃ u, fetch (prim 0x13 []) = .ok (.word 0#32) u) ∧
    describe false specDecoder (.word 0#32) = none ∧ standardParams.ext = none ∧
    ((withExt decliner).ext = some decliner ∧
      decliner (codeSet (.word 0#32)) (codeRaw (.word 0#32)) (prim 0x13 []).extRegs = none) :=
  ⟨rfl, ⟨_, rfl⟩, by decide, rfl, rfl, rfl⟩

/-- A run that continues, one that branches, and one that stops. -/
theorem witness_ExternalHandlerIsDispatched :
    (prim 0x13 []).halted = none ∧ (∃ u, fetch (prim 0x13 []) = .ok (.word 0#32) u) ∧
    describe false specDecoder (.word 0#32) = none ∧ (withExt mover).ext = some mover ∧
    (∃ run t, idler .primary 0#32 (prim 0x13 []).extRegs = some run ∧ runExt run (prim 0x13 []) = .ok .continues t) ∧
    (∃ run t, mover .primary 0#32 (prim 0x13 []).extRegs = some run ∧ runExt run (prim 0x13 []) = .ok .branched t) ∧
    ∃ run t, mover .primary 0#32 (prim 0x13 [(0, 0x2001)]).extRegs = some run ∧
      runExt run (prim 0x13 [(0, 0x2001)]) = .stop .misalignedData t :=
  ⟨rfl, ⟨_, rfl⟩, by decide, rfl, ⟨_, _, rfl, rfl⟩, ⟨_, _, rfl, rfl⟩, ⟨_, _, rfl, rfl⟩⟩

/-- `exec` of an ill-formed descriptor, which it refuses (log 12), and of a well-formed one, which it does not; then the step
with a decoder that answers the ill-formed one: it is taken as `Unknown`, so the step stops and does not refuse (log 13). -/
theorem witness_OnlyIllFormedDescriptorsAreRefused :
    ((Instr.tBcc .al 0#8).wellFormed = false ∧ exec (.tBcc .al 0#8) (comp 0x33 0x104 []) = .refused .illFormed) ∧
    ((Instr.tBcc .le 0#8).wellFormed = true ∧ ∃ t, exec (.tBcc .le 0#8) (comp 0x33 0x104 []) = .next t) ∧
    (fun _ => some (.tBcc .al 0#8) : Decoder) (.half 0#16) = some (.tBcc .al 0#8) ∧
    stepWith { standardParams with decode := fun _ => some (.tBcc .al 0#8) } (comp 0x33 0x104 []) = .fault .unknownTag :=
  ⟨⟨by decide, rfl⟩, ⟨by decide, ⟨_, rfl⟩⟩, rfl, rfl⟩

theorem witness_FatalStopLatchesForEver : (∃ t, running.halted = none ∧ stepWith standardParams running = .next t) ∧
    (∃ c, (prim 0x13 []).halted = none ∧ stepWith standardParams (prim 0x13 []) = .fault c) ∧
    ({ State.reset with halted := some .badMode } : State).halted = some .badMode ∧
    (running.halted = none ∧ standardParams.stopWhen running = true) ∧
    ((prim 0x13 []).halted = none ∧ standardParams.stopWhen (prim 0x13 []) = false) :=
  ⟨⟨_, rfl, rfl⟩, ⟨_, rfl, rfl⟩, rfl, ⟨rfl, by decide⟩, rfl, by decide⟩

theorem witness_PlacedWordRunsNext : Memory.wf (prim 0x13 []).mem = true ∧ decodeTableWord 32 0xEAFFFFFE = some (.b .al 0xFFFFFE#24) ∧
    decodeTableWord 16 0xDE00 = some (.tReservedCond14 0#8) := by decide

theorem witness_ResetMeetsTheInvariant : Memory.wf State.powerOn.mem = true := by decide

theorem witness_StepKeepsTheInvariant : running.Inv ∧ ∃ t, step running = .next t := ⟨⟨by decide, by decide, rfl⟩, ⟨_, rfl⟩⟩

/-- `mover` keeps the contract: no register but `r1` is written before its branch. -/
theorem mover_contract : ExtContract (fun _ _ => none) mover :=
  { skips := by intro iset raw r c h; cases h
    counter := by
      intro iset raw r run h
      cases h
      intro v
      simp [ExtRun.Ends, ExtRegs.pc]
    bank := by
      intro iset raw r run h hb
      cases h
      intro v
      exact hb }

theorem witness_ContractedHandlerKeepsTheInvariant : (prim 0x13 []).Inv ∧ ExtContract (fun _ _ => none) mover ∧
    ∃ t, stepWith (withExt mover) (prim 0x13 []) = .next t :=
  ⟨⟨by decide, by decide, rfl⟩, mover_contract, ⟨_, rfl⟩⟩

/-- No change, a change of `T`, a change of the whole. -/
theorem witness_CpsrChangesOnlyByExchangeOrReturn :
    (∃ t, exec (.tB 0#11) und7 = .next t ∧ t.cpsr = und7.cpsr) ∧
    (∃ t, exec (.ldm .al ⟨false, true, false, 0, 0x8000#16⟩) (prim 0x13 [(0, 0x2004)]) = .next t ∧ t.cpsr = 0x33) ∧
    ∃ t, exec (.ldmRet .al ⟨false, true, true, 13, 0xA000#16⟩) und7 = .next t ∧ t.cpsr ≠ und7.cpsr :=
  ⟨⟨_, rfl, by decide⟩, ⟨_, rfl, by decide⟩, ⟨_, rfl, by decide⟩⟩

theorem witness_UserModeCannotChangeItsMode :
    psrMode user.cpsr = 0b10000#5 ∧ ∃ t, exec (.bx .al 0) user = .next t := ⟨by decide, ⟨_, rfl⟩⟩

theorem witness_SpsrEntriesAreNeverWritten : ∃ t, exec (.ldmRet .al ⟨false, true, true, 13, 0xA000#16⟩) und7 = .next t := ⟨_, rfl⟩

/-- `r13_usr` is hidden in Supervisor mode; the forced-user load lists register 14 alone. -/
theorem witness_HiddenCopiesAreNotWritten :
    (∃ t, exec (.ldmUser .al (ia 0x4000#16)) (prim 0x13 []) = .next t) ∧ (∀ r : RegIdx, (13 : PhysReg) ≠ phys .svc r) ∧
    ∀ r : RegIdx, (ia 0x4000#16).list.getLsbD r.val = true → (13 : PhysReg) ≠ phys .usr r := ⟨⟨_, rfl⟩, by decide, by decide⟩

/-- Two User states that differ in `r13_svc` and in an SPSR entry. -/
theorem witness_UserStepDependsOnUserStateOnly :
    UserEqual (mk 0x10 .usr [(25, 1)] []) { mk 0x10 .usr [(25, 2)] [] with spsr := #v[7, 0, 0, 0, 0] } ∧
    mk 0x10 .usr [(25, 1)] [] ≠ { mk 0x10 .usr [(25, 2)] [] with spsr := #v[7, 0, 0, 0, 0] } ∧
    psrMode (mk 0x10 .usr [(25, 1)] []).cpsr = 0b10000#5 ∧ (mk 0x10 .usr [(25, 1)] []).bankSel = .usr := by
  unfold UserEqual; decide

end Sys2Proof.Tests
end

section
/-! PROOFS. What an instruction that answers may change beside its registers, and from it the invariant (10 R26) and the rules
for CPSR, the SPSR entries, the latch and the ranges (10 R34, R36, R37, 60 R271, R272). -/

namespace Sys2Proof.Machine

open Sys2Proof.Claims

/-- `handle_effect` for the instruction as a whole: the dispatcher's update writes register 15 alone (44 R243). -/
theorem exec_effect {i : Instr} {s t : State} (h : exec i s = .next t) :
    t.spsr = s.spsr ∧ t.halted = s.halted ∧ t.unadmitted = s.unadmitted ∧
      (Memory.wf s.mem = true → Memory.wf t.mem = true) ∧ ∃ st, CpsrEffect i s t st := by
  obtain ⟨-, st, u, hu, rfl⟩ := exec_eq_next.mp h
  obtain ⟨hspsr, hhalted, hranges, hmem, heffect⟩ := handle_effect hu
  obtain ⟨rbank, rcpsr, rspsr, rhalted, rmem, rranges⟩ := retire_frame u i.instrSet st
  refine ⟨rspsr.trans hspsr, rhalted.trans hhalted, rranges.trans hranges, by rwa [rmem], st, ?_⟩
  rwa [CpsrEffect, rbank, rcpsr]

/-- Whichever way CPSR changes, the selected bank is its mode's again (10 R26). -/
theorem CpsrEffect.bank_follows_mode {i : Instr} {s t : State} {st : Status} (h : CpsrEffect i s t st)
    (hs : bankOf (psrMode s.cpsr) = some s.bankSel) : bankOf (psrMode t.cpsr) = some t.bankSel := by
  obtain ⟨hbank, hcpsr | ⟨-, -, -, b, hcpsr⟩⟩ | ⟨c, op, k, -, -, -, -, hcpsr, hbank⟩ := h
  · rw [hcpsr, hbank, hs]
  · rw [hcpsr, psrMode_psrSetT, hbank, hs]
  · rw [hcpsr, hbank]

/-- Every instruction keeps the invariant. -/
theorem exec_keeps_inv {i : Instr} {s t : State} (hs : s.Inv) (h : exec i s = .next t) : t.Inv := by
  obtain ⟨hbank, hmem, hhalted⟩ := hs
  obtain ⟨-, thalted, -, tmem, st, heffect⟩ := exec_effect h
  exact ⟨heffect.bank_follows_mode hbank, tmem hmem, thalted.trans hhalted⟩

/-- Settles O54: a step that answers ran an instruction, and every instruction keeps the invariant. -/
theorem stepKeepsTheInvariant : Obligations.StepKeepsTheInvariant := by
  intro s t hs h
  obtain ⟨-, code, i, -, -, hexec⟩ := step_eq_next.mp h
  exact exec_keeps_inv hs hexec

/-- The model's support lemmas and the statements name the same exchanging instructions (42 R180 to R183, 43 R201). -/
theorem exchanges_iff_writesT (i : Instr) : Exchanges i ↔ WritesT i := by cases i <;> exact Iff.rfl

theorem cpsrKeptButT_of_psrSetT {s t : State} {b : Bool} (h : t.cpsr = psrSetT s.cpsr b) : CpsrKeptButT s t := by
  intro n hn
  rw [h, getLsbD_psrSetT, if_neg hn]

/-- Settles O56: the three cases of `CpsrEffect`. -/
theorem cpsrChangesOnlyByExchangeOrReturn : Obligations.CpsrChangesOnlyByExchangeOrReturn := by
  intro i s t h
  obtain ⟨-, -, -, -, st, ⟨-, hsame | ⟨hwrites, hpass, -, b, hT⟩⟩ | ⟨c, op, k, hi, hpass, -, hk, hcpsr, -⟩⟩ := exec_effect h
  · exact .inl hsame
  · exact .inr (.inl ⟨cpsrKeptButT_of_psrSetT hT, (exchanges_iff_writesT i).mpr hwrites, hpass⟩)
  · exact .inr (.inr ⟨c, op, k, hi, hpass, hk, hcpsr⟩)

/-- Settles O58: no line of any handler or of the dispatcher's update writes them. -/
theorem spsrEntriesAreNeverWritten : Obligations.SpsrEntriesAreNeverWritten := by
  intro i s t h
  obtain ⟨hspsr, hhalted, hranges, -⟩ := exec_effect h
  exact ⟨hspsr, hhalted, hranges⟩

/-- `Reset` sets the mode byte of CPSR to Supervisor's, whatever INIT (70 R290). -/
theorem psrMode_launch (entry : Word) (init : State) : psrMode (State.launch entry init).cpsr = 0b10011#5 := by
  rw [State.launch_cpsr, psrMode, extract_append_lo _ _ _ _ (by decide)]
  decide

theorem launch_inv (entry : Word) {init : State} (hm : Memory.wf init.mem = true) : (State.launch entry init).Inv :=
  ⟨by rw [psrMode_launch]; rfl, by simpa using hm, rfl⟩

/-- Settles O53: `Reset` selects Supervisor's bank and mode, keeps INIT's memory and clears the latch; `State.reset` is the case
of the empty memory. -/
theorem resetMeetsTheInvariant : Obligations.ResetMeetsTheInvariant :=
  ⟨fun entry _ hm => launch_inv entry hm, launch_inv Config.entry rfl⟩

end Sys2Proof.Machine
end

section
/-! PROOFS. The register file: which visible registers share a physical one (10 R22, R25), what a register write reaches, the
mode table (10 R33), and which copies an instruction leaves alone. -/

namespace Sys2Proof.Machine

open Sys2Proof.Claims

/-- The number under which a physical register is visible: in the numbering of log 15, 0 to 15 are their own, 16 to 22 are
`r8_fiq` to `r14_fiq`, and after them the odd ones are copies of `r13` and the even ones of `r14`. -/
def visibleNumber (p : PhysReg) : RegIdx :=
  if p.val ≤ 15 then Fin.ofNat 16 p.val
  else if p.val ≤ 22 then Fin.ofNat 16 (p.val - 8)
  else if p.val % 2 = 1 then 13 else 14

/-- A bank that shows a physical register. -/
def showingBank (p : PhysReg) : Bank :=
  if p.val ≤ 15 then .usr
  else if p.val ≤ 22 then .fiq
  else if p.val ≤ 24 then .irq
  else if p.val ≤ 26 then .svc
  else if p.val ≤ 28 then .abt
  else .und

theorem visibleNumber_phys (b : Bank) (i : RegIdx) : visibleNumber (phys b i) = i := by
  cases b <;> revert i <;> decide

theorem phys_showingBank (p : PhysReg) : phys (showingBank p) (visibleNumber p) = p := by
  revert p; decide

/-- When two banks show one copy of a register (10 R22). -/
theorem phys_eq_phys_same_number (b b' : Bank) (i : RegIdx) : phys b i = phys b' i ↔
    i.val ≤ 7 ∨ i.val = 15 ∨ (8 ≤ i.val ∧ i.val ≤ 12 ∧ (b = .fiq ↔ b' = .fiq)) ∨ ((i.val = 13 ∨ i.val = 14) ∧ b = b') := by
  cases b <;> cases b' <;> revert i <;> decide

/-- Settles O6: a physical register determines its visible number, so only equal numbers can share a copy. -/
theorem visibleRegistersShareCopiesAsTabled : Obligations.VisibleRegistersShareCopiesAsTabled := by
  refine ⟨fun b b' i j => ⟨fun h => ?_, ?_⟩, fun p => ⟨showingBank p, visibleNumber p, phys_showingBank p⟩⟩
  · obtain rfl : i = j := by rw [← visibleNumber_phys b i, h, visibleNumber_phys]
    exact ⟨rfl, (phys_eq_phys_same_number b b' i).mp h⟩
  · rintro ⟨rfl, h⟩
    exact (phys_eq_phys_same_number b b' i).mpr h

theorem regsKept_setReg (s : State) (i : RegIdx) (v : Word) : RegsKept s (s.setReg i v) [phys s.bankSel i] := by
  intro p hp
  rw [physReg_setReg, if_neg (by simpa using hp)]

/-- Settles O7: the copy written is the one the selected bank shows, and the write is to the register file alone. -/
theorem registerWriteReachesOneCopy : Obligations.RegisterWriteReachesOneCopy := by
  intro s i v
  exact ⟨reg_setReg_self s i v, regsKept_setReg s i v, rfl, fun _ => rfl, rfl, rfl, rfl, rfl⟩

/-- A swap to a mode with a bank answers the old selection and selects that bank (40 R133, R134). -/
theorem swapBankTo_of_bank {m : BitVec 5} {b : Bank} (h : bankOf m = some b) (s : State) :
    swapBankTo m s = .ok s.bankSel (s.setBank b) := by simp [swapBankTo, h]

/-- A swap to a reserved mode is `BadMode` (40 R134). -/
theorem swapBankTo_of_reserved {m : BitVec 5} (h : bankOf m = none) (s : State) : swapBankTo m s = .stop .badMode s := by
  simp [swapBankTo, h]

/-- The mode values outside the table of 10 R33 are reserved. -/
theorem bankOf_eq_none_of_not_mode {m : BitVec 5}
    (h : m ∉ [0b10000#5, 0b10001#5, 0b10010#5, 0b10011#5, 0b10111#5, 0b11011#5, 0b11111#5]) : bankOf m = none := by
  revert m; decide

/-- Settles O9, a clause per row of the table of 10 R33 and one for the reserved values. -/
theorem bankOfModeIsTheTable : Obligations.BankOfModeIsTheTable := by
  intro m s
  refine ⟨?_, ?_, ?_, ?_, ?_, ?_, fun h => swapBankTo_of_reserved (bankOf_eq_none_of_not_mode h) s⟩
  · rintro (rfl | rfl) <;> exact ⟨swapBankTo_of_bank rfl s, rfl⟩
  all_goals rintro rfl; exact ⟨swapBankTo_of_bank rfl s, rfl⟩

/-! ### Copies the selected bank does not show -/

/-- A handler that answers either skipped, and then changed nothing, or found its condition passed (40 R132). -/
theorem handle_skipped_or_passed {i : Instr} {s t : State} {st : Status} (h : handle i s = .ok st t) :
    t = s ∨ ∀ c, i.cond? = some c → condPassed s.cpsr c = true := by
  by_cases hpass : ∀ c, i.cond? = some c → condPassed s.cpsr c = true
  · exact .inr hpass
  · push Not at hpass
    obtain ⟨c, hc, hfail⟩ := hpass
    rw [handle_skip hc (by simpa using hfail)] at h
    cases h
    exact .inl rfl

section Hidden

variable {s : State} {p : PhysReg} (hp : ∀ r : RegIdx, p ≠ phys s.bankSel r)
include hp

/-- Every bank shows register 15, so a hidden copy is not its. -/
theorem hidden_ne_fifteen : p ≠ 15 := fun e => hp 15 (by rw [phys_fifteen, e])

theorem physReg_setReg_of_hidden (i : RegIdx) (v : Word) : (s.setReg i v).physReg p = s.physReg p := by
  rw [physReg_setReg, if_neg (hp i)]

theorem physReg_retire_of_hidden {u : State} (iset : InstrSet) (st : Status) : (retire iset st u).physReg p = u.physReg p := by
  cases st with
  | continues => rw [retire_continues, physReg_advance, if_neg (hidden_ne_fifteen hp)]
  | branched => rfl

theorem loadWithWriteback_hidden {op : BlockOp} {adr : Word × Word} {u : State} {a : Word}
    (h : loadWithWriteback op adr s = .ok a u) : u.physReg p = s.physReg p :=
  loadWithWriteback_other h (fun r _ _ => hp r) fun _ => hp op.rn

/-- A handler whose condition passed writes the copies the selected bank shows; LDM_USER the user copies of its list instead. -/
theorem handle_hidden {i : Instr} {t : State} {st : Status} (h : handle i s = .ok st t)
    (hpass : ∀ c, i.cond? = some c → condPassed s.cpsr c = true)
    (huser : ∀ c op, i = .ldmUser c op → ∀ r : RegIdx, op.list.getLsbD r.val = true → p ≠ phys .usr r) :
    t.physReg p = s.physReg p := by
  have h15 := hidden_ne_fifteen hp
  cases i with
  | bx c rm =>
    rw [handle, handleBx, conditional_pass _ (hpass c rfl)] at h
    cases h; rw [physReg_exchange, if_neg h15]
  | blxReg c rm =>
    rw [handle, handleBlxReg, conditional_pass _ (hpass c rfl)] at h
    cases h; rw [physReg_exchange, if_neg h15, physReg_setReg_of_hidden hp]
  | b c imm24 =>
    rw [handle, handleB, conditional_pass _ (hpass c rfl)] at h
    cases h; rw [physReg_branch, if_neg h15]
  | bl c imm24 =>
    rw [handle, handleBl, conditional_pass _ (hpass c rfl)] at h
    cases h; rw [physReg_branch, if_neg h15, physReg_setReg_of_hidden hp]
  | tBcc c imm8 =>
    rw [handle, handleTBcc, conditional_pass _ (hpass c rfl)] at h
    cases h; rw [physReg_branch, if_neg h15]
  | tB imm11 => cases h; rw [physReg_branch, if_neg h15]
  | tBlHi imm11 => cases h; exact physReg_setReg_of_hidden hp _ _
  | tBlLo imm11 => cases h; rw [physReg_branch, if_neg h15, physReg_setReg_of_hidden hp]
  | tBx rm => cases h; rw [physReg_exchange, if_neg h15]
  | tBlxReg rm => cases h; rw [physReg_exchange, if_neg h15, physReg_setReg_of_hidden hp]
  | tReservedCond14 low => cases h
  | tReservedCond15 low => cases h
  | ldm c op =>
    obtain ⟨-, a, u, hl, ⟨-, -, rfl⟩ | ⟨-, -, -, rfl⟩⟩ := (handleLdm_eq_ok (hpass c rfl)).mp h
    · exact loadWithWriteback_hidden hp hl
    · rw [physReg_exchange, if_neg h15, loadWithWriteback_hidden hp hl]
  | ldmUser c op =>
    obtain ⟨-, -, a, u, hl, rfl⟩ := (handleLdmUser_eq_ok (hpass c rfl)).mp h
    refine loadRegs_other hl p fun hmem => ?_
    obtain ⟨r, hr, rfl⟩ := List.mem_map.mp hmem
    exact huser c op rfl r (mem_selectedLow.mp hr).1 rfl
  | ldmRet c op =>
    obtain ⟨-, -, k, b, a, u, -, hl, -, -, rfl⟩ := (handleLdmRet_eq_ok (hpass c rfl)).mp h
    rw [physReg_branch, if_neg h15, physReg_setBank, physReg_setCpsr, loadWithWriteback_hidden hp hl]
  | stm c op =>
    obtain ⟨-, -, u, hl, rfl⟩ := (handleStm_eq_ok (hpass c rfl)).mp h
    obtain ⟨hregs, hbank, -⟩ := storeRegs_frame hl
    rw [physReg_writeback, hbank, if_neg fun e => hp op.rn e.2, State.physReg, State.physReg, hregs]
  | stmUser c op =>
    obtain ⟨-, -, u, hl, rfl⟩ := (handleStmUser_eq_ok (hpass c rfl)).mp h
    obtain ⟨hregs, -⟩ := storeRegs_frame hl
    rw [physReg_setBank, State.physReg, State.physReg, hregs, State.setBank_regs]

end Hidden

/-- Settles O59: a skipped instruction writes register 15 alone, by the advance; a handler that runs writes copies its bank shows,
LDM_USER the user copies of its list. -/
theorem hiddenCopiesAreNotWritten : Obligations.HiddenCopiesAreNotWritten := by
  intro i s t p h hp huser
  obtain ⟨-, st, u, hu, rfl⟩ := exec_eq_next.mp h
  rw [physReg_retire_of_hidden hp]
  obtain rfl | hpass := handle_skipped_or_passed hu
  · rfl
  · exact handle_hidden hp hu hpass huser

end Sys2Proof.Machine
end

section
/-! PROOFS. Noninterference for User mode: a step reads neither a privileged register copy nor an SPSR entry (10 R25, 43 R203,
60 R274). Two runs are carried side by side through the lines of a rule: each operation takes two states a User program cannot
tell apart to two such states, or stops with one cause in both. -/

namespace Sys2Proof.Machine

open Sys2Proof.Claims

/-- Two states a program in User mode cannot tell apart, in User mode and its bank. -/
structure UserView (s t : State) : Prop where
  equal : UserEqual s t
  mode : psrMode s.cpsr = 0b10000#5
  bank : s.bankSel = .usr

/-- Two results a program in User mode cannot tell apart. -/
inductive UserRes {α : Type} : Res α → Res α → Prop where
  | ok (a : α) {s t : State} (h : UserView s t) : UserRes (.ok a s) (.ok a t)
  | stop (c : Fault) (s t : State) : UserRes (.stop c s) (.stop c t)

/-- Two outcomes of a step a program in User mode cannot tell apart. -/
def UserOutcome (o o' : Host.Outcome State Fault Refusal) : Prop :=
  (∀ c, o = .fault c ↔ o' = .fault c) ∧ ∀ s', o = .next s' → ∃ t', o' = .next t' ∧ UserEqual s' t'

/-! ### What two such states agree on, and the updates that keep them so -/

namespace UserView

variable {s t : State} (h : UserView s t)
include h

theorem cpsr_eq : s.cpsr = t.cpsr := h.equal.2.2.1

theorem mem_eq : s.mem = t.mem := h.equal.2.2.2.2.1

theorem unadmitted_eq : s.unadmitted = t.unadmitted := h.equal.2.2.2.2.2

theorem halted_eq : s.halted = t.halted := h.equal.2.2.2.1

/-- The visible registers are the user copies. -/
theorem reg_eq (i : RegIdx) : s.reg i = t.reg i := by
  have hbank : t.bankSel = .usr := h.equal.2.1.symm.trans h.bank
  simpa only [State.reg, State.bankReg, h.bank, hbank] using h.equal.1 i

theorem dataFault_eq (a : Word) : s.dataFault a = t.dataFault a := dataFault_congr h.unadmitted_eq a

theorem wordAt_eq (a : Word) : s.wordAt a = t.wordAt a := by simp only [State.wordAt, State.byteAt, h.mem_eq]

theorem pcOffset_eq : s.pcOffset = t.pcOffset := by simp only [State.pcOffset, State.instrSet, h.cpsr_eq]

theorem setReg (i : RegIdx) (v : Word) : UserView (s.setReg i v) (t.setReg i v) := by
  obtain ⟨⟨hregs, hbank, hrest⟩, hmode, husr⟩ := h
  refine ⟨⟨fun j => ?_, hbank, hrest⟩, hmode, husr⟩
  rw [State.bankReg, State.bankReg, physReg_setReg, physReg_setReg, ← hbank]
  split
  · rfl
  · exact hregs j

theorem setT (b : Bool) : UserView (s.setT b) (t.setT b) := by
  obtain ⟨⟨hregs, hbank, hcpsr, hrest⟩, hmode, husr⟩ := h
  exact ⟨⟨hregs, hbank, congrArg (psrSetT · b) hcpsr, hrest⟩, (psrMode_psrSetT _ b).trans hmode, husr⟩

theorem setWord (a v : Word) : UserView (s.setWord a v) (t.setWord a v) := by
  obtain ⟨⟨hregs, hbank, hcpsr, hhalted, hmem, hranges⟩, hmode, husr⟩ := h
  exact ⟨⟨hregs, hbank, hcpsr, hhalted, congrArg (memWriteBytes · a (codeBytes (.word v))) hmem, hranges⟩, hmode, husr⟩

/-- A swap to the user bank, and the swap back, select what is selected. -/
theorem setBank_usr : UserView (s.setBank .usr) (t.setBank .usr) := by
  obtain ⟨⟨hregs, -, hrest⟩, hmode, -⟩ := h
  exact ⟨⟨hregs, rfl, hrest⟩, hmode, rfl⟩

theorem branch (a : Word) : UserView (s.branch a) (t.branch a) := by
  rw [State.branch, State.branch, h.pcOffset_eq]
  exact h.setReg 15 _

theorem exchange (v : Word) : UserView (s.exchange v) (t.exchange v) := (h.setT _).branch _

theorem writeback (op : BlockOp) (wb : Word) : UserView (writeback op wb s) (writeback op wb t) := by
  unfold Machine.writeback
  split
  · exact h.setReg op.rn wb
  · exact h

theorem retire (iset : InstrSet) (st : Status) : UserView (retire iset st s) (retire iset st t) := by
  cases st with
  | continues =>
    rw [retire_continues, retire_continues, State.advance, State.advance, h.reg_eq]
    exact h.setReg 15 _
  | branched => exact h

end UserView

/-! ### The shared parts of the handlers -/

theorem UserRes.bind {α β : Type} {r r' : Res α} {f f' : α → State → Res β} (h : UserRes r r')
    (hf : ∀ a s t, UserView s t → UserRes (f a s) (f' a t)) : UserRes (r.bind f) (r'.bind f') := by
  cases h with
  | ok a h => exact hf a _ _ h
  | stop c s t => exact .stop c s t

section Operations

variable {s t : State} (h : UserView s t)
include h

theorem readWord_userRes (a : Word) : UserRes (readWord a s) (readWord a t) := by
  unfold readWord
  rw [h.dataFault_eq, h.wordAt_eq]
  split
  · exact .stop _ _ _
  · exact .ok _ h

theorem writeWord_userRes (a v : Word) : UserRes (writeWord a v s) (writeWord a v t) := by
  unfold writeWord
  rw [h.dataFault_eq]
  split
  · exact .stop _ _ _
  · exact .ok _ (h.setWord a v)

theorem conditional_userRes (c : Cond) {body : State → Res Status} (hbody : UserRes (body s) (body t)) :
    UserRes (conditional c s body) (conditional c t body) := by
  unfold conditional
  rw [h.cpsr_eq]
  split
  · exact hbody
  · exact .ok _ h

theorem blockStart_userRes (op : BlockOp) : UserRes (blockStart op s) (blockStart op t) := by
  unfold blockStart
  rw [h.reg_eq]
  split
  · exact .stop _ _ _
  · exact .ok _ h

theorem inUserBank_userRes {α : Type} {body : State → Res α}
    (hbody : ∀ s t, UserView s t → UserRes (body s) (body t)) : UserRes (inUserBank body s) (inUserBank body t) := by
  have hback : t.bankSel = .usr := h.equal.2.1.symm.trans h.bank
  refine (hbody _ _ h.setBank_usr).bind fun a u v huv => .ok a ?_
  rw [swapBank_fst, swapBank_fst, h.bank, hback]
  exact huv.setBank_usr

end Operations

theorem loadRegs_userRes (is : List RegIdx) (a : Word) {s t : State} (h : UserView s t) :
    UserRes (loadRegs is a s) (loadRegs is a t) := by
  induction is generalizing a s t with
  | nil => exact .ok a h
  | cons i is ih => exact (readWord_userRes h a).bind fun v s t h => ih _ (h.setReg i v)

theorem storeRegs_userRes (is : List RegIdx) (a : Word) {s t : State} (h : UserView s t) :
    UserRes (storeRegs is a s) (storeRegs is a t) := by
  induction is generalizing a s t with
  | nil => exact .ok () h
  | cons i is ih =>
    rw [storeRegs, storeRegs, h.reg_eq]
    exact (writeWord_userRes h a _).bind fun _ s t h => ih _ h

theorem loadWithWriteback_userRes (op : BlockOp) (adr : Word × Word) {s t : State} (h : UserView s t) :
    UserRes (loadWithWriteback op adr s) (loadWithWriteback op adr t) :=
  loadRegs_userRes _ _ (h.writeback op adr.2)

/-! ### The block transfers -/

section BlockTransfers

variable (c : Cond) (op : BlockOp) {s t : State} (h : UserView s t)
include h

theorem handleLdm_userRes : UserRes (handleLdm c op s) (handleLdm c op t) := by
  refine conditional_userRes h c ((blockStart_userRes h op).bind fun adr s t h => ?_)
  refine (loadWithWriteback_userRes op adr h).bind fun a s t h => ?_
  split
  · exact (readWord_userRes h a).bind fun v s t h => .ok _ (h.exchange v)
  · exact .ok _ h

theorem handleLdmUser_userRes : UserRes (handleLdmUser c op s) (handleLdmUser c op t) := by
  refine conditional_userRes h c ((blockStart_userRes h op).bind fun adr s t h => ?_)
  exact (inUserBank_userRes h fun _ _ => loadRegs_userRes _ _).bind fun _ s t h => .ok _ h

/-- User mode has no SPSR entry, so the exception return stops before it reads one (43 R203). -/
theorem handleLdmRet_userRes : UserRes (handleLdmRet c op s) (handleLdmRet c op t) := by
  refine conditional_userRes h c ((blockStart_userRes h op).bind fun adr s t h => ?_)
  have hnone : spsrIndex (psrMode s.cpsr) = none := by rw [h.mode]; rfl
  rw [← h.cpsr_eq, hnone]
  exact .stop _ _ _

theorem handleStm_userRes : UserRes (handleStm c op s) (handleStm c op t) := by
  refine conditional_userRes h c ((blockStart_userRes h op).bind fun adr s t h => ?_)
  exact (storeRegs_userRes _ _ h).bind fun _ s t h => .ok _ (h.writeback op adr.2)

theorem handleStmUser_userRes : UserRes (handleStmUser c op s) (handleStmUser c op t) := by
  refine conditional_userRes h c ((blockStart_userRes h op).bind fun adr s t h => ?_)
  exact (inUserBank_userRes h fun _ _ => storeRegs_userRes _ _).bind fun _ s t h => .ok _ h

end BlockTransfers

/-! ### Every instruction, and the step -/

/-- Every handler: the branches and exchanges read and write visible registers alone. -/
theorem handle_userRes (i : Instr) {s t : State} (h : UserView s t) : UserRes (handle i s) (handle i t) := by
  cases i with
  | bx c rm =>
    simp only [handle, handleBx]
    refine conditional_userRes h c ?_
    rw [h.reg_eq]
    exact .ok _ (h.exchange _)
  | blxReg c rm =>
    simp only [handle, handleBlxReg]
    refine conditional_userRes h c ?_
    rw [h.reg_eq 15, h.reg_eq rm]
    exact .ok _ ((h.setReg 14 _).exchange _)
  | b c imm24 =>
    simp only [handle, handleB]
    refine conditional_userRes h c ?_
    rw [h.reg_eq]
    exact .ok _ (h.branch _)
  | bl c imm24 =>
    simp only [handle, handleBl]
    refine conditional_userRes h c ?_
    rw [h.reg_eq]
    exact .ok _ ((h.setReg 14 _).branch _)
  | tBcc c imm8 =>
    simp only [handle, handleTBcc]
    refine conditional_userRes h c ?_
    rw [h.reg_eq]
    exact .ok _ (h.branch _)
  | tB imm11 =>
    simp only [handle, handleTB, h.reg_eq]
    exact .ok _ (h.branch _)
  | tBlHi imm11 =>
    simp only [handle, handleTBlHi, h.reg_eq]
    exact .ok _ (h.setReg 14 _)
  | tBlLo imm11 =>
    simp only [handle, handleTBlLo, h.reg_eq]
    exact .ok _ ((h.setReg 14 _).branch _)
  | tBx rm =>
    simp only [handle, handleTBx, h.reg_eq]
    exact .ok _ (h.exchange _)
  | tBlxReg rm =>
    simp only [handle, handleTBlxReg, h.reg_eq]
    exact .ok _ ((h.setReg 14 _).exchange _)
  | tReservedCond14 low => exact .stop _ _ _
  | tReservedCond15 low => exact .stop _ _ _
  | ldm c op => exact handleLdm_userRes c op h
  | ldmUser c op => exact handleLdmUser_userRes c op h
  | ldmRet c op => exact handleLdmRet_userRes c op h
  | stm c op => exact handleStm_userRes c op h
  | stmUser c op => exact handleStmUser_userRes c op h

theorem fetch_userRes {s t : State} (h : UserView s t) : UserRes (fetch s) (fetch t) := by
  have hset : s.instrSet = t.instrSet := by simp only [State.instrSet, h.cpsr_eq]
  have haddr : s.fetchAddr = t.fetchAddr := by rw [State.fetchAddr, State.fetchAddr, h.reg_eq, h.pcOffset_eq]
  have hadmits (a : Word) (n : Nat) : s.admits a n = t.admits a n := by simp only [State.admits, h.unadmitted_eq]
  have hcode (iset : InstrSet) (a : Word) : s.codeAt iset a = t.codeAt iset a := by
    cases iset <;> simp only [State.codeAt, State.wordAt, State.halfAt, State.byteAt, h.mem_eq]
  unfold fetch
  rw [hset, haddr, hadmits, hcode]
  split
  · exact .stop _ _ _
  split
  · exact .stop _ _ _
  · exact .ok _ h

theorem UserOutcome.of_fault (c : Fault) : UserOutcome (.fault c) (.fault c) := ⟨fun _ => Iff.rfl, nofun⟩

theorem complete_userOutcome (iset : InstrSet) {r r' : Res Status} (h : UserRes r r') :
    UserOutcome (complete iset r) (complete iset r') := by
  cases h with
  | ok st h =>
    refine ⟨by simp, fun s' hs => ⟨_, complete_ok _ iset st, ?_⟩⟩
    cases hs
    exact (h.retire iset st).equal
  | stop c s t => exact .of_fault c

theorem exec_userOutcome (i : Instr) {s t : State} (h : UserView s t) : UserOutcome (exec i s) (exec i t) := by
  rw [exec_eq, exec_eq]
  split
  · exact complete_userOutcome _ (handle_userRes i h)
  · exact ⟨by simp, nofun⟩

/-- The latch and the value fetched are the same in both states, so both run one instruction or stop with one cause. -/
theorem step_userOutcome {s t : State} (h : UserView s t) : UserOutcome (step s) (step t) := by
  unfold step stepWith
  rw [← h.halted_eq]
  split
  · exact .of_fault _
  have hfetch := fetch_userRes h
  generalize fetch s = r, fetch t = r' at hfetch ⊢
  cases hfetch with
  | stop c u v => exact .of_fault c
  | ok code huv =>
    dsimp only
    split
    · exact exec_userOutcome _ huv
    · exact .of_fault .unknownTag

/-- Settles O60: the two-run invariant through the step. -/
theorem userStepDependsOnUserStateOnly : Obligations.UserStepDependsOnUserStateOnly :=
  fun _ _ hequal hmode hbank => step_userOutcome ⟨hequal, hmode, hbank⟩

end Sys2Proof.Machine
end

section
/-! PROOFS. Block transfers on the port: the statements' own words and those of the laws are the same, the stops of a transfer
one of whose accesses fails its checks (20 R65, R71), and the requests it makes (43 R211). -/

namespace Sys2Proof.Machine

open Sys2Proof.Claims

/-! ### The statements' words and the laws' -/

theorem count_eq_popcount (list : BitVec 16) : count list = popcount list := (popcount_eq list).symm

theorem startOf_eq_blockAdr (op : BlockOp) (s : State) : startOf op s = (blockAdr op s).1 := by
  rw [startOf, count_eq_popcount]

theorem wordAddr_eq_add_fourTimes (a : Word) (j : Nat) : wordAddr a j = a + fourTimes j := rfl

theorem admitted_iff {s : State} {a : Word} : Admitted s a ↔ s.admits a 4 = true := admits_eq_true.symm

theorem aligned4_eq_true {a : Word} : aligned4 a = true ↔ a.extractLsb' 0 2 = 0#2 := by simp [aligned4]

theorem aligned4_eq_false {a : Word} : aligned4 a = false ↔ a.extractLsb' 0 2 ≠ 0#2 := by simp [aligned4]

theorem cond?_of_blockForm {i : Instr} {c : Cond} {op : BlockOp} (h : blockForm i = some (c, op)) : i.cond? = some c := by
  cases i <;> cases h <;> rfl

/-- Every access of a transfer that runs to its end passes its checks. -/
theorem dataFault_of_transfers {op : BlockOp} {s : State} (h : Transfers op s) :
    ∀ j < popcount op.list, s.dataFault ((blockAdr op s).1 + fourTimes j) = none := by
  obtain ⟨-, -, haligned, hadmitted⟩ := h
  rw [startOf_eq_blockAdr] at haligned hadmitted
  rw [count_eq_popcount] at hadmitted
  intro j hj
  exact dataFault_eq_none.mpr
    ⟨by rw [aligned4_add_fourTimes]; exact aligned4_eq_true.mpr haligned, admitted_iff.mp (hadmitted j hj)⟩

/-! ### A transfer one of whose accesses fails its checks -/

/-- Some word of the transfer fails the checks before its access, and every one that fails them has the cause `d`. -/
structure TransferFails (op : BlockOp) (s : State) (d : Fault) : Prop where
  fails : ∃ j < popcount op.list, s.dataFault ((blockAdr op s).1 + fourTimes j) ≠ none
  cause : ∀ j < popcount op.list, ∀ e, s.dataFault ((blockAdr op s).1 + fourTimes j) = some e → e = d

/-- A transfer from a misaligned base fails at its first word (20 R65). -/
theorem transferFails_of_misaligned {op : BlockOp} {s : State} (hl : op.list ≠ 0#16) (h : aligned4 (s.reg op.rn) = false) :
    TransferFails op s .misalignedData := by
  have hfault : ∀ j, s.dataFault ((blockAdr op s).1 + fourTimes j) = some .misalignedData := fun j =>
    dataFault_misaligned (by rw [aligned4_add_fourTimes, aligned4_blockAdr, h])
  exact ⟨⟨0, popcount_pos hl, by rw [hfault]; nofun⟩, fun j _ e he => by simpa [hfault, eq_comm] using he⟩

/-- A transfer from an aligned base fails at an unadmitted word, and for that cause alone (20 R71). -/
theorem transferFails_of_unadmitted {op : BlockOp} {s : State} (h : aligned4 (s.reg op.rn) = true) {j : Nat}
    (hj : j < popcount op.list) (ha : s.admits ((blockAdr op s).1 + fourTimes j) 4 = false) :
    TransferFails op s .memoryFault := by
  refine ⟨⟨j, hj, fun hnone => ?_⟩, fun k _ e he => dataFault_of_aligned ?_ he⟩
  · rw [(dataFault_eq_none.mp hnone).2] at ha
    cases ha
  · rw [aligned4_add_fourTimes, aligned4_blockAdr, h]

/-- A load loop one of whose accesses fails stops, with the one cause its failing accesses have. -/
theorem loadRegs_stops {is : List RegIdx} {a : Word} {s : State} {j : Nat} {c : Fault} (hj : j < is.length)
    (hf : s.dataFault (a + fourTimes j) ≠ none)
    (hall : ∀ j < is.length, ∀ d, s.dataFault (a + fourTimes j) = some d → d = c) : ∃ u, loadRegs is a s = .stop c u := by
  cases h : loadRegs is a s with
  | stop d u =>
    obtain ⟨k, hk, hd⟩ := loadRegs_stop h
    exact ⟨u, by rw [hall k hk d hd]⟩
  | ok b u => exact absurd (loadRegs_passed h j hj) hf

namespace TransferFails

variable {c : Cond} {op : BlockOp} {s : State} {d : Fault}

/-- The loads of LDM and LDM_RET stop, or the read for register 15 after them does. -/
theorem loadWithWriteback_or_last_read_stops (h : TransferFails op s d) :
    (∃ u, loadWithWriteback op (blockAdr op s) s = .stop d u) ∨
      (op.list.getLsbD 15 = true ∧
        ∃ a u, loadWithWriteback op (blockAdr op s) s = .ok a u ∧ readWord a u = .stop d u) := by
  obtain ⟨⟨j, hj, hf⟩, hcause⟩ := h
  obtain hstop | ⟨h15, a, u, hload, hd⟩ := loadWithWriteback_stops hj hf hcause
  · exact .inl hstop
  · obtain ⟨-, -, -, -, -, -, hranges⟩ := loadWithWriteback_frame hload
    exact .inr ⟨h15, a, u, hload, readWord_eq_stop.mpr ⟨by rwa [dataFault_congr hranges], rfl⟩⟩

/-- The store loop stops, in any bank: `v` is any state with the same memory unit. -/
theorem storeRegs_selected_stops {v : State} (h : TransferFails op s d) (hv : v.unadmitted = s.unadmitted) :
    ∃ u, storeRegs (selectedRegs op.list) (blockAdr op s).1 v = .stop d u := by
  obtain ⟨⟨j, hj, hf⟩, hcause⟩ := h
  exact storeRegs_stops hj (by rwa [dataFault_congr hv]) fun k hk e he => hcause k hk e (by rwa [← dataFault_congr hv])

section
variable (h : TransferFails op s d) (hc : condPassed s.cpsr c = true) (hrn : op.rn ≠ 15) (hl : op.list ≠ 0#16)
include h hc hrn hl

theorem handleLdm_stops : ∃ u, handleLdm c op s = .stop d u := by
  rw [handleLdm, conditional_pass _ hc, blockStart_ok hrn hl, Res.bind_ok]
  obtain ⟨u, hstop⟩ | ⟨h15, a, u, hload, hread⟩ := h.loadWithWriteback_or_last_read_stops
  · exact ⟨u, by rw [hstop, Res.bind_stop]⟩
  · exact ⟨u, by rw [hload, Res.bind_ok, if_pos h15, hread, Res.bind_stop]⟩

theorem handleLdmRet_stops {k : Fin 5} (hk : spsrIndex (psrMode s.cpsr) = some k) : ∃ u, handleLdmRet c op s = .stop d u := by
  rw [handleLdmRet, conditional_pass _ hc, blockStart_ok hrn hl, Res.bind_ok, hk]
  dsimp only
  obtain ⟨u, hstop⟩ | ⟨-, a, u, hload, hread⟩ := h.loadWithWriteback_or_last_read_stops
  · exact ⟨u, by rw [hstop, Res.bind_stop]⟩
  · exact ⟨u, by rw [hload, Res.bind_ok, hread, Res.bind_stop]⟩

/-- Without register 15 listed the load loop makes every access of the transfer. -/
theorem handleLdmUser_stops (h15 : op.list.getLsbD 15 = false) : ∃ u, handleLdmUser c op s = .stop d u := by
  have hlen : (selectedLow op.list).length = popcount op.list := by
    have := selectedLow_length op.list
    rwa [h15] at this
  obtain ⟨⟨j, hj, hf⟩, hcause⟩ := h
  rw [← hlen] at hj hcause
  obtain ⟨u, hstop⟩ := loadRegs_stops (s := s.setBank .usr) hj hf hcause
  exact ⟨u, by rw [handleLdmUser, conditional_pass _ hc, blockStart_ok hrn hl, Res.bind_ok,
    inUserBank_eq_stop.mpr hstop, Res.bind_stop]⟩

theorem handleStm_stops : ∃ u, handleStm c op s = .stop d u := by
  obtain ⟨u, hstop⟩ := h.storeRegs_selected_stops rfl
  exact ⟨u, by rw [handleStm, conditional_pass _ hc, blockStart_ok hrn hl, Res.bind_ok, hstop, Res.bind_stop]⟩

theorem handleStmUser_stops : ∃ u, handleStmUser c op s = .stop d u := by
  obtain ⟨u, hstop⟩ := h.storeRegs_selected_stops (v := s.setBank .usr) rfl
  exact ⟨u, by rw [handleStmUser, conditional_pass _ hc, blockStart_ok hrn hl, Res.bind_ok,
    inUserBank_eq_stop.mpr hstop, Res.bind_stop]⟩

end

/-- Each of the five transfers stops with the cause of its failing accesses. -/
theorem exec_faults {i : Instr} (h : TransferFails op s d) (hwf : i.wellFormed = true) (hb : blockForm i = some (c, op))
    (hc : condPassed s.cpsr c = true) (hrn : op.rn ≠ 15) (hl : op.list ≠ 0#16) (hr : ReturnPossible i s) :
    exec i s = .fault d := by
  rw [exec_of_wellFormed hwf, complete_eq_fault]
  cases i with
  | ldm c' op' => cases hb; exact h.handleLdm_stops hc hrn hl
  | ldmUser c' op' => cases hb; exact h.handleLdmUser_stops hc hrn hl (by simpa [Instr.wellFormed] using hwf)
  | ldmRet c' op' =>
    cases hb
    obtain ⟨k, hk⟩ := Option.isSome_iff_exists.mp hr
    exact h.handleLdmRet_stops hc hrn hl hk
  | stm c' op' => cases hb; exact h.handleStm_stops hc hrn hl
  | stmUser c' op' => cases hb; exact h.handleStmUser_stops hc hrn hl
  | _ => cases hb

end TransferFails

/-! ### The requests of a transfer -/

/-- The request a transfer makes for a listed register at its address (43 R201 to R205). -/
def transferRequest (i : Instr) (s : State) (r : RegIdx) (a : Word) : PortRequest :=
  match i with
  | .stm _ _ => .write .word a (storedValue false s r)
  | .stmUser _ _ => .write .word a (storedValue true s r)
  | _ => .read .word a

/-- The data requests of the five transfers are `blockRequests`, each with its own request per register. -/
theorem dataRequests_of_blockForm {i : Instr} {c : Cond} {op : BlockOp} {s : State} (hb : blockForm i = some (c, op))
    (hr : ReturnPossible i s) : dataRequests i s = blockRequests c op s (transferRequest i s) := by
  cases i with
  | ldmRet c' op' => cases hb; exact if_pos hr
  | ldm c' op' => cases hb; rfl
  | ldmUser c' op' => cases hb; rfl
  | stm c' op' => cases hb; rfl
  | stmUser c' op' => cases hb; rfl
  | _ => cases hb

theorem dataRequests_of_no_block {i : Instr} (s : State) (hb : blockForm i = none) : dataRequests i s = [] := by
  cases i with
  | ldm c op | ldmUser c op | ldmRet c op | stm c op | stmUser c op => cases hb
  | _ => rfl

theorem blockRequests_of_started {c : Cond} {op : BlockOp} {s : State} {req : RegIdx → Word → PortRequest}
    (hc : condPassed s.cpsr c = true) (hrn : op.rn ≠ 15) (hl : op.list ≠ 0#16) :
    blockRequests c op s req =
      issued s ((transferPlan (selectedRegs op.list) (blockAdr op s).1).map fun ia => (ia.2, req ia.1 ia.2)) := by
  simp [blockRequests, hc, blockStart_ok hrn hl]

theorem blockRequests_of_failed {c : Cond} {op : BlockOp} {s : State} {req : RegIdx → Word → PortRequest}
    (hc : condPassed s.cpsr c = false) : blockRequests c op s req = [] := by
  simp [blockRequests, hc]

theorem blockRequests_of_refused {c : Cond} {op : BlockOp} {s : State} {req : RegIdx → Word → PortRequest}
    (h : op.rn = 15 ∨ op.list = 0#16) : blockRequests c op s req = [] := by
  simp [blockRequests, blockStart_refused h]

/-- Settles O38: the resolver keeps the base's alignment, so the first access already stops the transfer. -/
theorem misalignedTransferStops : Obligations.MisalignedTransferStops := by
  intro i c op s hwf hb hc hrn hl hr hmis
  have hbase : aligned4 (s.reg op.rn) = false := aligned4_eq_false.mpr hmis
  refine ⟨(transferFails_of_misaligned hl hbase).exec_faults hwf hb hc hrn hl hr, ?_⟩
  rw [dataRequests_of_blockForm hb hr, blockRequests_of_started hc hrn hl]
  exact issued_misaligned _ ((aligned4_blockAdr op s).trans hbase)

/-- Settles O39: all accesses are aligned, so the only cause a failing one can have is the memory unit's. -/
theorem unadmittedTransferFaults : Obligations.UnadmittedTransferFaults := by
  intro i c op s j hwf hb hc hrn hl hr haligned hj hna
  rw [count_eq_popcount] at hj
  rw [admitted_iff, Bool.not_eq_true, startOf_eq_blockAdr] at hna
  exact (transferFails_of_unadmitted (aligned4_eq_true.mpr haligned) hj hna).exec_faults hwf hb hc hrn hl hr

/-- Settles O40: all requests of the plan are issued, and a listed register stands in the plan at its rank. -/
theorem transferRequestsAreInOrder : Obligations.TransferRequestsAreInOrder := by
  intro i c op s hwf hb hc hr htransfers
  obtain ⟨hrn, hl, -⟩ := id htransfers
  have hall : dataRequests i s =
      (transferPlan (selectedRegs op.list) (startOf op s)).map fun ia => transferRequest i s ia.1 ia.2 := by
    rw [dataRequests_of_blockForm hb hr, blockRequests_of_started hc hrn hl, startOf_eq_blockAdr]
    exact issued_all s _ _ _ (dataFault_of_transfers htransfers)
  rw [hall]
  refine ⟨by rw [List.length_map, transferPlan_length, count_eq_popcount]; rfl, fun r hlisted => ?_⟩
  have hplace : (selectedRegs op.list)[rank op.list r]? = some r := selectedRegs_getElem? hlisted
  rw [List.getElem?_map, transferPlan_getElem?, hplace]
  cases i <;> rfl

end Sys2Proof.Machine
end

section
/-! PROOFS. Memory: the bytes and halfwords of a word (20 R79), and what a fetch reads of the words a transfer stored (20 R75). -/

namespace Sys2Proof.Machine

open Sys2Proof.Claims

/-! ### The parts of a word in memory -/

/-- The halfword at a word's address is its low half (20 R79). -/
theorem halfAt_eq_low (s : State) (a : Word) : s.halfAt a = (s.wordAt a).extractLsb' 0 16 := halfOfBytes_low ..

/-- The halfword two above a word's address is its high half (20 R79). -/
theorem halfAt_add_two (s : State) (a : Word) : s.halfAt (a + 2#32) = (s.wordAt a).extractLsb' 16 16 := by
  rw [State.halfAt, show a + 2#32 + 1#32 = a + 3#32 by bv_omega]
  exact halfOfBytes_high ..

/-- A field of a word's bytes, a byte wide and in its place, is that byte (20 R79). -/
theorem extract_wordOfBytes (b0 b1 b2 b3 : Byte) :
    (wordOfBytes b0 b1 b2 b3).extractLsb' 0 8 = b0 ∧ (wordOfBytes b0 b1 b2 b3).extractLsb' 8 8 = b1 ∧
      (wordOfBytes b0 b1 b2 b3).extractLsb' 16 8 = b2 ∧ (wordOfBytes b0 b1 b2 b3).extractLsb' 24 8 = b3 := by
  refine ⟨?_, ?_, ?_, ?_⟩ <;>
    simp (disch := omega) only [wordOfBytes, extract_append_hi, extract_append_lo, Nat.reduceSub, BitVec.extractLsb'_eq_self]

/-- Byte `k` of a word lies `k` above its address (20 R79). -/
theorem byteAt_eq_extract (s : State) (a : Word) {k : Nat} (hk : k < 4) :
    s.byteAt (a + BitVec.ofNat 32 k) = (s.wordAt a).extractLsb' (8 * k) 8 := by
  obtain ⟨h0, h1, h2, h3⟩ :=
    extract_wordOfBytes (s.byteAt a) (s.byteAt (a + 1#32)) (s.byteAt (a + 2#32)) (s.byteAt (a + 3#32))
  match k, hk with
  | 0, _ => rw [BitVec.add_zero]; exact h0.symm
  | 1, _ => exact h1.symm
  | 2, _ => exact h2.symm
  | 3, _ => exact h3.symm

/-- Settles O41: the word stored is the word at its address, whose bytes and halves are read at their places. -/
theorem wordsAreLittleEndian : Obligations.WordsAreLittleEndian := by
  intro s a v hm
  have hword := wordAt_setWord_self hm a v
  refine ⟨hword, fun k hk => ?_, ?_, ?_, fun x hx => byteAt_setWord_of_far hm v hx⟩
  · rw [byteAt_eq_extract _ a hk, hword]
  · rw [halfAt_eq_low, hword]
  · rw [halfAt_add_two, hword]

/-! ### Fetching what was stored -/

theorem wordAt_of_mem_eq {s t : State} (h : t.mem = s.mem) (a : Word) : t.wordAt a = s.wordAt a := by
  simp only [State.wordAt, State.byteAt, h]

theorem admits_of_no_ranges {s : State} (h : s.unadmitted = []) (a : Word) (n : Nat) : s.admits a n = true := by
  simp [admits_eq_true, h]

theorem aligned2_eq_true {a : Word} : aligned2 a = true ↔ a.getLsbD 0 = false := by rw [aligned2, Bool.not_eq_true']

theorem aligned2_eq_false {a : Word} : aligned2 a = false ↔ a.getLsbD 0 = true := by rw [aligned2, Bool.not_eq_false']

/-- A multiple of 4 is even, and so is the address two above it (20 R64). -/
theorem aligned2_of_aligned4 {a : Word} (h : aligned4 a = true) : aligned2 a = true ∧ aligned2 (a + 2#32) = true := by
  have h0 : a.toNat % 4 = 0 := by simpa using congrArg BitVec.toNat (aligned4_eq_true.mp h)
  simp only [aligned2, BitVec.getLsbD, BitVec.toNat_add, BitVec.toNat_ofNat, Nat.testBit_zero, Bool.not_eq_true',
    decide_eq_false_iff_not]
  omega

theorem instrSet_of_clear_T {s : State} (h : psrT s.cpsr = false) : s.instrSet = .primary := by simp [State.instrSet, h]

theorem instrSet_of_set_T {s : State} (h : psrT s.cpsr = true) : s.instrSet = .compressed := by simp [State.instrSet, h]

/-- A primary-set fetch at an aligned address, every address being admitted, reads the word there (20 R63). -/
theorem fetch_word {s : State} (hT : psrT s.cpsr = false) (hu : s.unadmitted = []) (ha : aligned4 s.fetchAddr = true) :
    fetch s = .ok (.word (s.wordAt s.fetchAddr)) s := by
  rw [fetch_eq_ok, instrSet_of_clear_T hT]
  exact ⟨ha, admits_of_no_ranges hu _ _, rfl, rfl⟩

/-- A compressed-set fetch at an even address, every address being admitted, reads the halfword there (20 R63). -/
theorem fetch_half {s : State} (hT : psrT s.cpsr = true) (hu : s.unadmitted = []) (ha : aligned2 s.fetchAddr = true) :
    fetch s = .ok (.half (s.halfAt s.fetchAddr)) s := by
  rw [fetch_eq_ok, instrSet_of_set_T hT]
  exact ⟨ha, admits_of_no_ranges hu _ _, rfl, rfl⟩

/-- After an STM that answers, each listed register's value is the word at its place, an aligned address (43 R204, R211). -/
theorem exec_stm_stored {c : Cond} {op : BlockOp} {s t : State} {i : RegIdx} (hm : Memory.wf s.mem = true)
    (hc : condPassed s.cpsr c = true) (hi : op.list.getLsbD i.val = true) (h : exec (.stm c op) s = .next t) :
    aligned4 (wordAddr (startOf op s) (rank op.list i)) = true ∧
      t.wordAt (wordAddr (startOf op s) (rank op.list i)) = s.reg i := by
  obtain ⟨-, st, u, hu, rfl⟩ := exec_eq_next.mp h
  obtain ⟨-, rfl, v, hstore, rfl⟩ := (handleStm_eq_ok hc).mp hu
  obtain ⟨hj, he⟩ := List.getElem?_eq_some_iff.mp (selectedRegs_getElem? hi)
  rw [wordAddr_eq_add_fourTimes, startOf_eq_blockAdr]
  refine ⟨(dataFault_eq_none.mp (storeRegs_passed hstore _ hj)).1, ?_⟩
  rw [wordAt_of_mem_eq (s := v) (by simp)]
  exact (storeRegs_stored hstore hm (selectedRegs_length _) _ hj).trans (congrArg s.reg he)

/-- Settles O42: fetch and store address one memory, and a stored word's address is aligned for either set. -/
theorem storedWordsAreFetched : Obligations.StoredWordsAreFetched := by
  intro c op s t u i a hm hc hi h ha hmem hranges
  obtain ⟨haligned, hstored⟩ := exec_stm_stored hm hc hi h
  rw [← ha] at haligned hstored
  have hword : u.wordAt a = s.reg i := (wordAt_of_mem_eq hmem a).trans hstored
  obtain ⟨heven, heven2⟩ := aligned2_of_aligned4 haligned
  refine ⟨fun hT hf => ?_, fun hT hf => ?_, fun hT hf => ?_⟩
  · rw [fetch_word hT hranges (by rw [hf, haligned]), hf, hword]
  · rw [fetch_half hT hranges (by rw [hf, heven]), hf, halfAt_eq_low, hword]
  · rw [fetch_half hT hranges (by rw [hf, heven2]), hf, halfAt_add_two, hword]

end Sys2Proof.Machine
end

section
/-! PROOFS. The step on the port: a fetch that stops (20 R64, R71, 44 R240), the effect of a step's requests on memory, and the
stop on a request that is not admitted (44 R248, 20 R71). -/

namespace Sys2Proof.Machine

open Sys2Proof.Claims

/-! ### A fetch that stops -/

theorem fetch_misaligned {s : State} (h : fetchAligned s.instrSet s.fetchAddr = false) :
    fetch s = .stop .misalignedFetch s := by
  simp [fetch, h]

theorem fetch_unadmitted {s : State} (h : fetchAligned s.instrSet s.fetchAddr = true)
    (ha : s.admits s.fetchAddr (fetchBytes s.instrSet) = false) : fetch s = .stop .memoryFault s := by
  simp [fetch, h, ha]

/-- A fetch that stops is the end of the step, and only the latch is written (44 R240, 60 R260). -/
theorem step_of_fetch_stop {p : Params} {s : State} {c : Fault} (hh : s.halted = none) (hf : fetch s = .stop c s) :
    stepWith p s = .fault c ∧ cycle p s = { s with halted := some c } := by
  simp [stepWith, cycle, hh, hf]

/-- A halted machine and a misaligned fetch address make no request (20 R64). -/
theorem stepRequests_of_no_fetch {p : Params} {s : State}
    (h : s.halted.isSome = true ∨ fetchAligned s.instrSet s.fetchAddr = false) : stepRequests p s = [] := by
  obtain h | h := h <;> simp [stepRequests, h]

/-- Settles O45: the alignment check of the set in force comes first, then the memory unit's. -/
theorem fetchStopsInOrder : Obligations.FetchStopsInOrder := by
  intro p s hh
  constructor
  · intro h
    have hmis : fetchAligned s.instrSet s.fetchAddr = false := by
      obtain ⟨hT, h⟩ | ⟨hT, h⟩ := h
      · rw [instrSet_of_clear_T hT]; exact aligned4_eq_false.mpr h
      · rw [instrSet_of_set_T hT]; exact aligned2_eq_false.mpr h
    obtain ⟨hstep, hcycle⟩ := step_of_fetch_stop (p := p) hh (fetch_misaligned hmis)
    exact ⟨hstep, stepRequests_of_no_fetch (.inr hmis), hcycle⟩
  · intro h
    apply step_of_fetch_stop hh
    obtain ⟨hT, h, ha⟩ | ⟨hT, h, ha⟩ := h <;> apply fetch_unadmitted
    · rw [instrSet_of_clear_T hT]; exact aligned4_eq_true.mpr h
    · rw [instrSet_of_clear_T hT]; exact ha
    · rw [instrSet_of_set_T hT]; exact aligned2_eq_true.mpr h
    · rw [instrSet_of_set_T hT]; exact ha

/-! ### The effect of an instruction's requests on memory -/

/-- A transfer's reads leave the memory, however many of them are made. -/
theorem foldl_blockRequests_read (c : Cond) (op : BlockOp) (s : State) (m : Memory) :
    (blockRequests c op s fun _ a => .read .word a).foldl applyRequest m = m := by
  simp only [blockRequests]
  split
  · split
    · rfl
    · exact foldl_issued_read _ m _
  · rfl

/-- An instruction whose condition fails makes no request (40 R132). -/
theorem dataRequests_of_failed {i : Instr} {c : Cond} {s : State} (hi : i.cond? = some c) (hc : condPassed s.cpsr c = false) :
    dataRequests i s = [] := by
  cases i with
  | ldm c' op | ldmUser c' op | ldmRet c' op | stm c' op | stmUser c' op =>
    cases hi
    simp [dataRequests, blockRequests_of_failed hc]
  | _ => rfl

/-- A store loop leaves the memory its transfer's requests make (20 R79); `v` is the state in the bank it stores from. -/
theorem storeRegs_mem_blockRequests {c : Cond} {op : BlockOp} {s v u : State} {value : RegIdx → Word}
    (hc : condPassed s.cpsr c = true) (hrn : op.rn ≠ 15) (hl : op.list ≠ 0#16) (hu : v.unadmitted = s.unadmitted)
    (hm : v.mem = s.mem) (hv : ∀ i, value i = v.reg i)
    (h : storeRegs (selectedRegs op.list) (blockAdr op s).1 v = .ok () u) :
    u.mem = (blockRequests c op s fun r a => .write .word a (value r)).foldl applyRequest s.mem := by
  rw [blockRequests_of_started hc hrn hl, ← hm]
  exact storeRegs_mem s value hu.symm hv h

/-- A handler that answers leaves the memory its data requests make (20 R79, 43 R211). -/
theorem handle_mem {i : Instr} {s t : State} {st : Status} (h : handle i s = .ok st t) :
    t.mem = (dataRequests i s).foldl applyRequest s.mem := by
  cases hb : blockForm i with
  | none =>
    rw [dataRequests_of_no_block s hb]
    obtain ⟨-, -, -, hm, -⟩ := handle_frame_of_no_block h fun c op => by
      refine ⟨?_, ?_, ?_, ?_, ?_⟩ <;> rintro rfl <;> cases hb
    exact hm
  | some form =>
    obtain ⟨c, op⟩ := form
    cases hc : condPassed s.cpsr c with
    | false =>
      rw [handle_skip (cond?_of_blockForm hb) hc] at h
      cases h
      rw [dataRequests_of_failed (cond?_of_blockForm hb) hc]
      rfl
    | true =>
      cases i with
      | ldm c' op' =>
        cases hb
        obtain ⟨-, a, u, hload, hend⟩ := (handleLdm_eq_ok hc).mp h
        obtain ⟨-, -, -, -, -, hm, -⟩ := loadWithWriteback_frame hload
        have ht : t.mem = u.mem := by obtain ⟨-, -, rfl⟩ | ⟨-, -, -, rfl⟩ := hend <;> rfl
        exact (ht.trans hm).trans (foldl_blockRequests_read c op s s.mem).symm
      | ldmUser c' op' =>
        cases hb
        obtain ⟨-, -, a, u, hload, rfl⟩ := (handleLdmUser_eq_ok hc).mp h
        obtain ⟨-, -, -, -, -, hm, -⟩ := loadRegs_frame hload
        exact hm.trans (foldl_blockRequests_read c op s s.mem).symm
      | ldmRet c' op' =>
        cases hb
        obtain ⟨-, -, k, b, a, u, hk, hload, -, -, rfl⟩ := (handleLdmRet_eq_ok hc).mp h
        obtain ⟨-, -, -, -, -, hm, -⟩ := loadWithWriteback_frame hload
        have hr : ReturnPossible (.ldmRet c op) s := Option.isSome_iff_exists.mpr ⟨k, hk⟩
        rw [dataRequests_of_blockForm rfl hr]
        exact hm.trans (foldl_blockRequests_read c op s s.mem).symm
      | stm c' op' =>
        cases hb
        obtain ⟨⟨hrn, hl⟩, -, u, hstore, rfl⟩ := (handleStm_eq_ok hc).mp h
        rw [writeback_mem]
        exact storeRegs_mem_blockRequests hc hrn hl rfl rfl (fun _ => rfl) hstore
      | stmUser c' op' =>
        cases hb
        obtain ⟨⟨hrn, hl⟩, -, u, hstore, rfl⟩ := (handleStmUser_eq_ok hc).mp h
        exact storeRegs_mem_blockRequests (v := s.setBank .usr) (u := u) hc hrn hl rfl rfl (fun _ => rfl) hstore
      | _ => cases hb

/-- `handle_mem` for the instruction as a whole: the dispatcher's update leaves the memory (44 R243). -/
theorem exec_mem {i : Instr} {s t : State} (h : exec i s = .next t) :
    t.mem = (dataRequests i s).foldl applyRequest s.mem := by
  obtain ⟨-, st, u, hu, rfl⟩ := exec_eq_next.mp h
  obtain ⟨-, -, -, -, hm, -⟩ := retire_frame u i.instrSet st
  rw [hm, handle_mem hu]

/-! ### A request that is not admitted -/

/-- Only requests the rule would make reach the port. -/
theorem issued_subset (s : State) (l : List (Word × PortRequest)) : issued s l ⊆ l.map Prod.snd := by
  induction l with
  | nil => exact List.nil_subset _
  | cons x l ih =>
    obtain ⟨a, r⟩ := x
    simp only [issued, List.map_cons]
    split
    · exact List.cons_subset_cons r ih
    · exact List.cons_subset_cons r (List.nil_subset _)
    · exact List.nil_subset _

/-- Where a transfer's request can come from: its condition passed, its form is not refused, its base is aligned, and the
request is that of one of its words. -/
theorem mem_blockRequests {c : Cond} {op : BlockOp} {s : State} {req : RegIdx → Word → PortRequest} {r : PortRequest}
    (h : r ∈ blockRequests c op s req) :
    condPassed s.cpsr c = true ∧ op.rn ≠ 15 ∧ op.list ≠ 0#16 ∧ aligned4 (s.reg op.rn) = true ∧
      ∃ j < popcount op.list, ∃ i, r = req i ((blockAdr op s).1 + fourTimes j) := by
  have hc : condPassed s.cpsr c = true := by
    by_contra hc
    rw [blockRequests_of_failed (Bool.eq_false_of_not_eq_true hc)] at h
    cases h
  have hform : ¬ (op.rn = 15 ∨ op.list = 0#16) := fun hform => by
    rw [blockRequests_of_refused hform] at h
    cases h
  obtain ⟨hrn, hl⟩ := not_or.mp hform
  rw [blockRequests_of_started hc hrn hl] at h
  have haligned : aligned4 (s.reg op.rn) = true := by
    by_contra hmis
    rw [issued_misaligned _ ((aligned4_blockAdr op s).trans (Bool.eq_false_of_not_eq_true hmis))] at h
    cases h
  refine ⟨hc, hrn, hl, haligned, ?_⟩
  have hplan := issued_subset s _ h
  rw [List.map_map, List.mem_map] at hplan
  obtain ⟨x, hx, rfl⟩ := hplan
  obtain ⟨j, hj⟩ := List.mem_iff_getElem?.mp hx
  rw [transferPlan_getElem?, Option.map_eq_some_iff] at hj
  obtain ⟨i, hi, rfl⟩ := hj
  exact ⟨j, (List.getElem?_eq_some_iff.mp hi).1, i, rfl⟩

/-- Only a transfer makes data requests, and an exception-return load only where it finds an SPSR entry (43 R203). -/
theorem blockForm_of_mem_dataRequests {i : Instr} {s : State} {r : PortRequest} (h : r ∈ dataRequests i s) :
    ∃ c op, blockForm i = some (c, op) ∧ ReturnPossible i s := by
  cases i with
  | ldm c op | ldmUser c op | stm c op | stmUser c op => exact ⟨c, op, rfl, trivial⟩
  | ldmRet c op =>
    refine ⟨c, op, rfl, ?_⟩
    by_contra hno
    rw [show dataRequests (.ldmRet c op) s = [] from if_neg hno] at h
    cases h
  | _ => cases h

theorem transferRequest_addr_width (i : Instr) (s : State) (r : RegIdx) (a : Word) :
    (transferRequest i s r a).addr = a ∧ (transferRequest i s r a).width = .word := by
  cases i <;> exact ⟨rfl, rfl⟩

/-- An instruction one of whose requests is not admitted stops with MemoryFault (20 R71). -/
theorem exec_unadmitted {i : Instr} {s : State} {r : PortRequest} (hwf : i.wellFormed = true) (h : r ∈ dataRequests i s)
    (ha : s.admits r.addr r.width.bytes = false) : exec i s = .fault .memoryFault := by
  obtain ⟨c, op, hb, hr⟩ := blockForm_of_mem_dataRequests h
  rw [dataRequests_of_blockForm hb hr] at h
  obtain ⟨hc, hrn, hl, haligned, j, hj, k, rfl⟩ := mem_blockRequests h
  obtain ⟨haddr, hwidth⟩ := transferRequest_addr_width i s k ((blockAdr op s).1 + fourTimes j)
  rw [haddr, hwidth] at ha
  exact (transferFails_of_unadmitted haligned hj ha).exec_faults hwf hb hc hrn hl hr

/-! ### The step's requests -/

/-- The fetch is the first request, whatever the memory unit answers to it (20 R72). -/
theorem stepRequests_of_aligned (p : Params) {s : State} (hh : s.halted = none)
    (hal : fetchAligned s.instrSet s.fetchAddr = true) :
    stepRequests p s = .fetch (fetchWidth s.instrSet) s.fetchAddr ::
      (if s.admits s.fetchAddr (fetchBytes s.instrSet) then valueRequests p (s.codeAt s.instrSet s.fetchAddr) s else []) := by
  cases ha : s.admits s.fetchAddr (fetchBytes s.instrSet)
  · simp [stepRequests, hh, hal, fetch_unadmitted hal ha]
  · simp [stepRequests, hh, hal, fetch_eq_ok.mpr ⟨hal, ha, rfl, rfl⟩]

theorem valueRequests_of_described {p : Params} {code : Code} {i : Instr} (s : State)
    (h : describe p.refuseCondNv p.decode code = some i) : valueRequests p code s = dataRequests i s := by
  simp [valueRequests, h]

theorem valueRequests_of_handler {p : Params} {code : Code} {s : State} {run : ExtRun}
    (h : describe p.refuseCondNv p.decode code = none) (hrun : handlerRun p code s = some run) :
    valueRequests p code s = extRequests run s := by
  simp [valueRequests, h, hrun]

theorem valueRequests_of_unknown {p : Params} {code : Code} {s : State}
    (h : describe p.refuseCondNv p.decode code = none) (hrun : handlerRun p code s = none) : valueRequests p code s = [] := by
  simp [valueRequests, h, hrun]

/-- A step that answers leaves the memory that its requests make (44 R248). -/
theorem stepWith_mem {p : Params} {s t : State} (h : stepWith p s = .next t) :
    t.mem = (stepRequests p s).foldl applyRequest s.mem := by
  obtain ⟨hh, code, hf, hrun⟩ := stepWith_eq_next.mp h
  obtain ⟨hal, ha, rfl, -⟩ := fetch_eq_ok.mp hf
  rw [stepRequests_of_aligned p hh hal, if_pos ha, List.foldl_cons, applyRequest]
  obtain ⟨i, hd, hexec⟩ | ⟨hd, hext⟩ := hrun
  · rw [valueRequests_of_described s hd, exec_mem hexec]
  · obtain ⟨st, u, hu, rfl⟩ := complete_eq_next.mp hext
    obtain ⟨-, -, -, -, hretired, -⟩ := retire_frame u (codeSet (s.codeAt s.instrSet s.fetchAddr)) st
    rw [hretired]
    cases hr : handlerRun p (s.codeAt s.instrSet s.fetchAddr) s with
    | some run =>
      simp only [unknownOrExt, hr] at hu
      obtain ⟨-, -, -, hm⟩ := runExt_frame hu
      rw [valueRequests_of_handler hd hr, hm]
    | none => simp [unknownOrExt, hr, handleUnknown] at hu

/-- A value one of whose requests is not admitted makes the step stop with MemoryFault, whoever handles it (20 R71). -/
theorem stepWith_of_unadmitted_value {p : Params} {s : State} {code : Code} {r : PortRequest} (hh : s.halted = none)
    (hf : fetch s = .ok code s) (h : r ∈ valueRequests p code s) (ha : s.admits r.addr r.width.bytes = false) :
    stepWith p s = .fault .memoryFault := by
  simp only [stepWith, hh, hf]
  cases hd : describe p.refuseCondNv p.decode code with
  | some i =>
    rw [valueRequests_of_described s hd] at h
    obtain ⟨-, hwf, -⟩ := describe_eq_some.mp hd
    exact exec_unadmitted hwf h ha
  | none =>
    cases hr : handlerRun p code s with
    | none =>
      rw [valueRequests_of_unknown hd hr] at h
      cases h
    | some run =>
      rw [valueRequests_of_handler hd hr] at h
      obtain ⟨t, ht⟩ := runExt_unadmitted h ha
      simp [unknownOrExt, hr, ht]

/-- Settles O43: the fetch changes nothing and stops the step where it is not admitted; after it come the requests of an
instruction or of an external handler, each with that effect on memory and that stop. -/
theorem stepWritesWhatItsRequestsSay : Obligations.StepWritesWhatItsRequestsSay := by
  intro p s
  refine ⟨fun t h => ⟨stepWith_mem h, ?_⟩, fun r hr ha => ?_⟩
  · obtain ⟨hh, code, hf, -⟩ := stepWith_eq_next.mp h
    rw [stepRequests_of_aligned p hh (fetch_eq_ok.mp hf).1, List.head?_cons]
    cases hT : psrT s.cpsr with
    | false => rw [instrSet_of_clear_T hT]; rfl
    | true => rw [instrSet_of_set_T hT]; rfl
  · cases hh : s.halted with
    | some c =>
      rw [stepRequests_of_no_fetch (.inl (by simp [hh]))] at hr
      cases hr
    | none =>
      cases hal : fetchAligned s.instrSet s.fetchAddr with
      | false =>
        rw [stepRequests_of_no_fetch (.inr hal)] at hr
        cases hr
      | true =>
        cases hfa : s.admits s.fetchAddr (fetchBytes s.instrSet) with
        | false => exact (step_of_fetch_stop hh (fetch_unadmitted hal hfa)).1
        | true =>
          rw [stepRequests_of_aligned p hh hal, if_pos hfa] at hr
          obtain rfl | hr := List.mem_cons.mp hr
          · exact absurd (hfa.symm.trans ha) (by simp)
          · exact stepWith_of_unadmitted_value hh (fetch_eq_ok.mpr ⟨hal, hfa, rfl, rfl⟩) hr ha

end Sys2Proof.Machine
end

section
/-! PROOFS. The decoder contract against the encoder and the opcode table (30 R92 to R107, R112). -/

namespace Sys2Proof

/-! ### Fields and masks -/

/-- Two fields of one value that disagree in a bit they share are not both met. -/
theorem field_ne {w l l' s : Nat} {x : BitVec w} {k : BitVec l} (h : x.extractLsb' s l = k) (s' : Nat) (k' : BitVec l')
    (b : Nat) (hb : s ≤ b ∧ b < s + l ∧ s' ≤ b ∧ b < s' + l' := by decide)
    (hk : k.getLsbD (b - s) ≠ k'.getLsbD (b - s') := by decide) : x.extractLsb' s' l' ≠ k' := by
  rintro rfl
  subst h
  refine hk ?_
  simp [show b - s < l by omega, show b - s' < l' by omega, show s + (b - s) = s' + (b - s') by omega]

/-- A value that meets a match and a mask has the match's bits in every field the mask covers. -/
theorem field_of_masked {w l : Nat} {x m v : BitVec w} (h : x &&& m = v) (s : Nat) (k : BitVec l)
    (hm : m.extractLsb' s l = BitVec.allOnes l := by decide) (hk : v.extractLsb' s l = k := by decide) :
    x.extractLsb' s l = k := by
  rw [← hk, ← h, BitVec.extractLsb'_and, hm, BitVec.and_allOnes]

/-- `field_of_masked` for a compressed-set value, which the table holds zero-extended (00 R7). -/
theorem field_of_masked_half {l : Nat} {x : Half} {m v : Word} (h : x.setWidth 32 &&& m = v) (s : Nat) (k : BitVec l)
    (hs : s + l ≤ 16 := by decide) (hm : m.extractLsb' s l = BitVec.allOnes l := by decide)
    (hk : v.extractLsb' s l = k := by decide) : x.extractLsb' s l = k := by
  rw [← field_of_masked h s k hm hk, BitVec.extractLsb'_setWidth_of_le (by omega)]

/-- A value that meets a match and a mask has the match's bit at every bit of the mask. -/
theorem bit_of_masked {w : Nat} {x m v : BitVec w} (h : x &&& m = v) (b : Nat) (hm : m.getLsbD b = true := by decide) :
    x.getLsbD b = v.getLsbD b := by
  rw [← h, BitVec.getLsbD_and, hm, Bool.and_true]

/-! ### The primary decoder on each of its formats (30 R93 to R95) -/

section
variable {raw : Word}

theorem decodePrimary_of_bx (h : raw.extractLsb' 4 24 = 0x12FFF1#24) :
    decodePrimary false raw = .ok (.bx (condOfBits (raw.extractLsb' 28 4)) (raw.extractLsb' 0 4).toFin) := by
  simp [decodePrimary, h]

theorem decodePrimary_of_blxReg (h : raw.extractLsb' 4 24 = 0x12FFF3#24) :
    decodePrimary false raw = .ok (.blxReg (condOfBits (raw.extractLsb' 28 4)) (raw.extractLsb' 0 4).toFin) := by
  simp [decodePrimary, h]

theorem decodePrimary_of_b (h : raw.extractLsb' 24 4 = 0b1010#4) :
    decodePrimary false raw = .ok (.b (condOfBits (raw.extractLsb' 28 4)) (raw.extractLsb' 0 24)) := by
  simp [decodePrimary, h, field_ne h 4 0x12FFF1#24 27, field_ne h 4 0x12FFF3#24 27]

theorem decodePrimary_of_bl (h : raw.extractLsb' 24 4 = 0b1011#4) :
    decodePrimary false raw = .ok (.bl (condOfBits (raw.extractLsb' 28 4)) (raw.extractLsb' 0 24)) := by
  simp [decodePrimary, h, field_ne h 4 0x12FFF1#24 27, field_ne h 4 0x12FFF3#24 27]

theorem decodePrimary_of_block (h : raw.extractLsb' 25 3 = 0b100#3) :
    decodePrimary false raw = .ok (decodeBlock (condOfBits (raw.extractLsb' 28 4)) raw) := by
  simp [decodePrimary, h, field_ne h 4 0x12FFF1#24 27, field_ne h 4 0x12FFF3#24 27, field_ne h 24 0b1010#4 25,
    field_ne h 24 0b1011#4 25]

end

/-! ### The tag of a block transfer (30 R112) -/

section
variable {raw : Word} (c : Cond)

theorem decodeBlock_ldm (hl : raw.getLsbD 20 = true) (hs : raw.getLsbD 22 = false) :
    decodeBlock c raw = .ldm c (blockFields raw) := by
  simp only [decodeBlock, hl, hs]

theorem decodeBlock_ldmUser (hl : raw.getLsbD 20 = true) (hs : raw.getLsbD 22 = true) (hpc : raw.getLsbD 15 = false) :
    decodeBlock c raw = .ldmUser c (blockFields raw) := by
  simp only [decodeBlock, hl, hs, hpc, Bool.false_eq_true, if_false]

theorem decodeBlock_ldmRet (hl : raw.getLsbD 20 = true) (hs : raw.getLsbD 22 = true) (hpc : raw.getLsbD 15 = true) :
    decodeBlock c raw = .ldmRet c (blockFields raw) := by
  simp only [decodeBlock, hl, hs, hpc, if_true]

theorem decodeBlock_stm (hl : raw.getLsbD 20 = false) (hs : raw.getLsbD 22 = false) :
    decodeBlock c raw = .stm c (blockFields raw) := by
  simp only [decodeBlock, hl, hs]

theorem decodeBlock_stmUser (hl : raw.getLsbD 20 = false) (hs : raw.getLsbD 22 = true) :
    decodeBlock c raw = .stmUser c (blockFields raw) := by
  simp only [decodeBlock, hl, hs]

end

/-- Whatever tag format PM selects, its encoding has the value's `S` and `L` bits (30 R95, R112). -/
theorem encode_decodeBlock (c : Cond) (raw : Word) :
    encode (decodeBlock c raw) = .word (encodeBlock c (raw.getLsbD 22) (raw.getLsbD 20) (blockFields raw)) := by
  cases hl : raw.getLsbD 20 <;> cases hs : raw.getLsbD 22
  · rw [decodeBlock_stm c hl hs, encode]
  · rw [decodeBlock_stmUser c hl hs, encode]
  · rw [decodeBlock_ldm c hl hs, encode]
  · cases hpc : raw.getLsbD 15
    · rw [decodeBlock_ldmUser c hl hs hpc, encode]
    · rw [decodeBlock_ldmRet c hl hs hpc, encode]

/-! ### The compressed decoder on each of its formats (30 R96 to R99, R106) -/

section
variable {raw : Half}

theorem decodeCompressed_of_reserved14 (h : raw.extractLsb' 8 8 = 0xDE#8) :
    decodeCompressed raw = .ok (.tReservedCond14 (raw.extractLsb' 0 8)) := by
  simp [decodeCompressed, h]

theorem decodeCompressed_of_reserved15 (h : raw.extractLsb' 8 8 = 0xDF#8) :
    decodeCompressed raw = .ok (.tReservedCond15 (raw.extractLsb' 0 8)) := by
  simp [decodeCompressed, h]

theorem decodeCompressed_of_tBcc (h : raw.extractLsb' 12 4 = 0b1101#4) (h14 : raw.extractLsb' 8 8 ≠ 0xDE#8)
    (h15 : raw.extractLsb' 8 8 ≠ 0xDF#8) :
    decodeCompressed raw = .ok (.tBcc (condOfBits (raw.extractLsb' 8 4)) (raw.extractLsb' 0 8)) := by
  simp [decodeCompressed, h, h14, h15]

theorem decodeCompressed_of_tB (h : raw.extractLsb' 11 5 = 0b11100#5) :
    decodeCompressed raw = .ok (.tB (raw.extractLsb' 0 11)) := by
  simp [decodeCompressed, h, field_ne h 8 0xDE#8 13, field_ne h 8 0xDF#8 13, field_ne h 12 0b1101#4 13]

theorem decodeCompressed_of_tBlHi (h : raw.extractLsb' 11 5 = 0b11110#5) :
    decodeCompressed raw = .ok (.tBlHi (raw.extractLsb' 0 11)) := by
  simp [decodeCompressed, h, field_ne h 8 0xDE#8 13, field_ne h 8 0xDF#8 13, field_ne h 12 0b1101#4 13]

theorem decodeCompressed_of_tBlLo (h : raw.extractLsb' 11 5 = 0b11111#5) :
    decodeCompressed raw = .ok (.tBlLo (raw.extractLsb' 0 11)) := by
  simp [decodeCompressed, h, field_ne h 8 0xDE#8 13, field_ne h 8 0xDF#8 13, field_ne h 12 0b1101#4 13]

theorem decodeCompressed_of_tBx (h : raw.extractLsb' 7 9 = 0b010001110#9) (hz : raw.extractLsb' 0 3 = 0#3) :
    decodeCompressed raw = .ok (.tBx (raw.extractLsb' 3 4).toFin) := by
  simp [decodeCompressed, h, hz, field_ne h 8 0xDE#8 15, field_ne h 8 0xDF#8 15, field_ne h 12 0b1101#4 15,
    field_ne h 11 0b11100#5 15, field_ne h 11 0b11110#5 15, field_ne h 11 0b11111#5 15]

theorem decodeCompressed_of_tBlxReg (h : raw.extractLsb' 7 9 = 0b010001111#9) (hz : raw.extractLsb' 0 3 = 0#3) :
    decodeCompressed raw = .ok (.tBlxReg (raw.extractLsb' 3 4).toFin) := by
  simp [decodeCompressed, h, hz, field_ne h 8 0xDE#8 15, field_ne h 8 0xDF#8 15, field_ne h 12 0b1101#4 15,
    field_ne h 11 0b11100#5 15, field_ne h 11 0b11110#5 15, field_ne h 11 0b11111#5 15]

end

/-! ### Decoding what was encoded -/

theorem decodePrimary_encodeBlock (c : Cond) (s l : Bool) (op : BlockOp) :
    decodePrimary false (encodeBlock c s l op) = .ok (decodeBlock c (encodeBlock c s l op)) := by
  obtain ⟨hc, hpm, -⟩ := encodeBlock_fields c s l op
  rw [decodePrimary_of_block hpm, hc, condOfBits_condBits]

theorem list_bit15_of_wellFormed {c : Cond} {op : BlockOp} (h : (Instr.ldmUser c op).wellFormed = true) :
    op.list.getLsbD 15 = false := by
  simpa only [Instr.wellFormed, Bool.not_eq_true'] using h

/-- A well-formed T_BCC has neither of the two condition codes of the reserved rows (30 R97, R106). -/
theorem condBits_ne_of_wellFormed {c : Cond} {imm8 : BitVec 8} (h : (Instr.tBcc c imm8).wellFormed = true) :
    condBits c ≠ 14#4 ∧ condBits c ≠ 15#4 := by
  revert h
  cases c <;> simp [Instr.wellFormed, condBits]

/-- The decoder reads a well-formed instruction from its value: the value is of the instruction's format, and the format's
fields are the operands. -/
theorem decodeCode_encode {i : Instr} (h : i.wellFormed = true) : decodeCode false (encode i) = .ok i := by
  cases i
  case ldm c op =>
    obtain ⟨-, -, hl, hs, -, hop⟩ := encodeBlock_fields c false true op
    exact (decodePrimary_encodeBlock ..).trans (by rw [decodeBlock_ldm c hl hs, hop])
  case ldmUser c op =>
    obtain ⟨-, -, hl, hs, hpc, hop⟩ := encodeBlock_fields c true true op
    exact (decodePrimary_encodeBlock ..).trans (by rw [decodeBlock_ldmUser c hl hs (hpc.trans (list_bit15_of_wellFormed h)), hop])
  case ldmRet c op =>
    obtain ⟨-, -, hl, hs, hpc, hop⟩ := encodeBlock_fields c true true op
    exact (decodePrimary_encodeBlock ..).trans (by rw [decodeBlock_ldmRet c hl hs (hpc.trans h), hop])
  case stm c op =>
    obtain ⟨-, -, hl, hs, -, hop⟩ := encodeBlock_fields c false false op
    exact (decodePrimary_encodeBlock ..).trans (by rw [decodeBlock_stm c hl hs, hop])
  case stmUser c op =>
    obtain ⟨-, -, hl, hs, -, hop⟩ := encodeBlock_fields c true false op
    exact (decodePrimary_encodeBlock ..).trans (by rw [decodeBlock_stmUser c hl hs, hop])
  case' bx c rm => refine (decodePrimary_of_bx ?_).trans ?_
  case' blxReg c rm => refine (decodePrimary_of_blxReg ?_).trans ?_
  case' b c imm24 => refine (decodePrimary_of_b ?_).trans ?_
  case' bl c imm24 => refine (decodePrimary_of_bl ?_).trans ?_
  case' tReservedCond14 low => refine (decodeCompressed_of_reserved14 ?_).trans ?_
  case' tReservedCond15 low => refine (decodeCompressed_of_reserved15 ?_).trans ?_
  case' tBcc c imm8 =>
    obtain ⟨hal, hnv⟩ := condBits_ne_of_wellFormed h
    have hc : ((0b1101#4 ++ condBits c ++ imm8 : Half)).extractLsb' 8 4 = condBits c := by
      simp (disch := omega) only [extract_append_hi, extract_append_lo, Nat.reduceSub, BitVec.extractLsb'_eq_self]
    refine (decodeCompressed_of_tBcc ?_ (extract_ne 0 4 (by decide) ?_) (extract_ne 0 4 (by decide) ?_)).trans ?_
    case' refine_2 => exact fun e => hal (hc.symm.trans e)
    case' refine_3 => exact fun e => hnv (hc.symm.trans e)
  case' tB imm11 => refine (decodeCompressed_of_tB ?_).trans ?_
  case' tBlHi imm11 => refine (decodeCompressed_of_tBlHi ?_).trans ?_
  case' tBlLo imm11 => refine (decodeCompressed_of_tBlLo ?_).trans ?_
  case' tBx rm => refine (decodeCompressed_of_tBx ?_ ?_).trans ?_
  case' tBlxReg rm => refine (decodeCompressed_of_tBlxReg ?_ ?_).trans ?_
  all_goals
    simp (disch := omega) only [extract_append_hi, extract_append_lo, Nat.reduceSub, BitVec.extractLsb'_eq_self,
      condOfBits_condBits, BitVec.toFin_ofFin]

theorem codeSet_encode (i : Instr) : codeSet (encode i) = i.instrSet := by cases i <;> rfl

/-- The decoder reads a value from its bytes as from the value itself, and leaves what follows them (20 R79, 30 R109). -/
theorem decodeBytes_codeBytes {refuse : Bool} {code : Code} {i : Instr} (h : decodeCode refuse code = .ok i)
    (rest : List Byte) : decodeBytes refuse (codeSet code) (codeBytes code ++ rest) = .ok (i, rest) := by
  cases code with
  | word raw =>
    replace h : decodePrimary refuse raw = .ok i := h
    simp only [codeSet, codeBytes, List.cons_append, List.nil_append, decodeBytes, Machine.wordOfBytes_extract, h]
  | half raw =>
    replace h : decodeCompressed raw = .ok i := h
    simp only [codeSet, codeBytes, List.cons_append, List.nil_append, decodeBytes, halfOfBytes_extract, h]

/-- Settles O1: `decodeCode_encode` on the value, and on its bytes by `decodeBytes_codeBytes`. -/
theorem decodeOfEncodeIsTheInstruction : Obligations.DecodeOfEncodeIsTheInstruction := by
  intro i h
  have hdecode := decodeCode_encode h
  refine ⟨codeSet_encode i, hdecode, fun rest => ?_⟩
  rw [← codeSet_encode]
  exact decodeBytes_codeBytes hdecode rest

/-! ### Encoding what was decoded -/

/-- A value is its two fields side by side. -/
theorem append_two_fields {a b : Nat} {x : BitVec (a + b)} {k : BitVec a} (h : x.extractLsb' b a = k) :
    k ++ x.extractLsb' 0 b = x := by
  have hx := extract_join x 0 b a
  rwa [Nat.zero_add, BitVec.extractLsb'_eq_self, h] at hx

/-- A value is its three fields side by side. -/
theorem append_three_fields {a b c : Nat} {x : BitVec (a + b + c)} {k : BitVec b} (h : x.extractLsb' c b = k) :
    x.extractLsb' (c + b) a ++ k ++ x.extractLsb' 0 c = x := by
  rw [← h, extract_join]
  exact append_two_fields rfl

/-- The fields of format PX (30 R94). -/
theorem append_fields_px {raw : Word} {k : BitVec 24} (h : raw.extractLsb' 4 24 = k) :
    condBits (condOfBits (raw.extractLsb' 28 4)) ++ k ++ BitVec.ofFin (w := 4) (raw.extractLsb' 0 4).toFin = raw := by
  rw [condBits_condOfBits]
  exact append_three_fields (a := 4) (b := 24) (c := 4) h

/-- The fields of format PB (30 R93). -/
theorem append_fields_pb {raw : Word} {k : BitVec 4} (h : raw.extractLsb' 24 4 = k) :
    condBits (condOfBits (raw.extractLsb' 28 4)) ++ k ++ raw.extractLsb' 0 24 = raw := by
  rw [condBits_condOfBits]
  exact append_three_fields (a := 4) (b := 4) (c := 24) h

/-- The fields of format TC (30 R97). -/
theorem append_fields_tc {raw : Half} {k : BitVec 4} (h : raw.extractLsb' 12 4 = k) :
    k ++ condBits (condOfBits (raw.extractLsb' 8 4)) ++ raw.extractLsb' 0 8 = raw := by
  rw [condBits_condOfBits, ← h]
  exact append_three_fields (a := 4) (b := 4) (c := 8) rfl

/-- The fields of format TX (30 R99). -/
theorem append_fields_tx {raw : Half} {k : BitVec 9} {z : BitVec 3} (h : raw.extractLsb' 7 9 = k ∧ raw.extractLsb' 0 3 = z) :
    k ++ BitVec.ofFin (w := 4) (raw.extractLsb' 3 4).toFin ++ z = raw := by
  rw [← h.1, ← h.2]
  exact append_three_fields (a := 9) (b := 4) (c := 3) rfl

/-- What the primary decoder reads has the value as its encoding: the tested field and the operands are all its bits. -/
theorem encode_of_decodePrimary {raw : Word} {i : Instr} (h : decodePrimary false raw = .ok i) : encode i = .word raw := by
  simp only [decodePrimary, Bool.false_and, Bool.false_eq_true, if_false] at h
  split at h
  next hk => cases h; exact congrArg Code.word (append_fields_px hk)
  split at h
  next hk => cases h; exact congrArg Code.word (append_fields_px hk)
  split at h
  next hk => cases h; exact congrArg Code.word (append_fields_pb hk)
  split at h
  next hk => cases h; exact congrArg Code.word (append_fields_pb hk)
  split at h
  next hk => cases h; rw [encode_decodeBlock, encodeBlock_blockFields raw hk]
  cases h

/-- What the compressed decoder reads has the value as its encoding. -/
theorem encode_of_decodeCompressed {raw : Half} {i : Instr} (h : decodeCompressed raw = .ok i) : encode i = .half raw := by
  simp only [decodeCompressed] at h
  split at h
  next hk => cases h; exact congrArg Code.half (append_two_fields (a := 8) (b := 8) hk)
  split at h
  next hk => cases h; exact congrArg Code.half (append_two_fields (a := 8) (b := 8) hk)
  split at h
  next hk => cases h; exact congrArg Code.half (append_fields_tc hk)
  split at h
  next hk => cases h; exact congrArg Code.half (append_two_fields (a := 5) (b := 11) hk)
  split at h
  next hk => cases h; exact congrArg Code.half (append_two_fields (a := 5) (b := 11) hk)
  split at h
  next hk => cases h; exact congrArg Code.half (append_two_fields (a := 5) (b := 11) hk)
  split at h
  next hk => cases h; exact congrArg Code.half (append_fields_tx hk)
  split at h
  next hk => cases h; exact congrArg Code.half (append_fields_tx hk)
  cases h

theorem encode_of_decodeCode {code : Code} {i : Instr} (h : decodeCode false code = .ok i) : encode i = code := by
  cases code with
  | word raw => exact encode_of_decodePrimary h
  | half raw => exact encode_of_decodeCompressed h

/-- Settles O2: `REFUSE_COND_NV` only takes answers away, and each answer's encoding is the value. -/
theorem encodeOfDecodeIsTheValue : Obligations.EncodeOfDecodeIsTheValue := by
  intro refuse code i h
  exact ⟨encode_of_decodeCode (Machine.decodeCode_eq_ok.mp h).1, Machine.decodeCode_wellFormed h⟩

/-! ### The rows of the opcode table (30 R103, R104) -/

/-- Masking goes part by part. -/
theorem append_masked {w v : Nat} {x m k : BitVec w} {y n l : BitVec v} (hx : x &&& m = k) (hy : y &&& n = l) :
    (x ++ y) &&& (m ++ n) = k ++ l := by
  rw [BitVec.and_append, hx, hy]

/-- A zero-extended value meets a zero-extended match and mask. -/
theorem setWidth_masked {x m v : Half} (h : x &&& m = v) : x.setWidth 32 &&& m.setWidth 32 = v.setWidth 32 := by
  rw [← BitVec.setWidth_and, h]

/-- The bits of format PM that a row's mask can hold: 27:25, `S`, `L`, and bits of the list (30 R95, R112). -/
theorem encodeBlock_masked (c : Cond) (s l : Bool) (op : BlockOp) {n k : BitVec 16} (h : op.list &&& n = k) :
    encodeBlock c s l op &&&
        (0#4 ++ BitVec.allOnes 3 ++ 0#1 ++ 0#1 ++ BitVec.allOnes 1 ++ 0#1 ++ BitVec.allOnes 1 ++ 0#4 ++ n) =
      0#4 ++ 0b100#3 ++ 0#1 ++ 0#1 ++ bitField s ++ 0#1 ++ bitField l ++ 0#4 ++ k :=
  append_masked (append_masked (append_masked (append_masked (append_masked (append_masked (append_masked (append_masked
    BitVec.and_zero BitVec.and_allOnes) BitVec.and_zero) BitVec.and_zero) BitVec.and_allOnes) BitVec.and_zero)
    BitVec.and_allOnes) BitVec.and_zero) h

/-- A register list under the mask of its bit 15. -/
theorem list_masked (list : BitVec 16) : list &&& 0x8000#16 = if list.getLsbD 15 then 0x8000#16 else 0#16 :=
  BitVec.and_twoPow list 15

/-- The value of a well-formed instruction meets its row's match and mask. -/
theorem encode_matches {i : Instr} (h : i.wellFormed = true) : codeRaw (encode i) &&& (tableRow i).2 = (tableRow i).1 := by
  cases i with
  | bx c rm | blxReg c rm =>
    exact append_masked (append_masked (m := 0#4) BitVec.and_zero BitVec.and_allOnes) (n := 0#4) BitVec.and_zero
  | b c imm24 | bl c imm24 =>
    exact append_masked (append_masked (m := 0#4) BitVec.and_zero BitVec.and_allOnes) (n := 0#24) BitVec.and_zero
  | ldm c op => exact encodeBlock_masked c false true op BitVec.and_zero
  | ldmUser c op =>
    have hmask := list_masked op.list
    rw [list_bit15_of_wellFormed h, if_neg Bool.false_ne_true] at hmask
    exact encodeBlock_masked c true true op hmask
  | ldmRet c op => exact encodeBlock_masked c true true op ((list_masked _).trans (if_pos h))
  | stm c op => exact encodeBlock_masked c false false op BitVec.and_zero
  | stmUser c op => exact encodeBlock_masked c true false op BitVec.and_zero
  | tReservedCond14 low | tReservedCond15 low =>
    exact setWidth_masked (append_masked BitVec.and_allOnes (n := 0#8) BitVec.and_zero)
  | tBcc c imm8 =>
    exact setWidth_masked
      (append_masked (append_masked BitVec.and_allOnes (n := 0#4) BitVec.and_zero) (n := 0#8) BitVec.and_zero)
  | tB imm11 | tBlHi imm11 | tBlLo imm11 =>
    exact setWidth_masked (append_masked BitVec.and_allOnes (n := 0#11) BitVec.and_zero)
  | tBx rm | tBlxReg rm =>
    exact setWidth_masked
      (append_masked (append_masked (BitVec.and_allOnes (w := 9)) (n := 0#4) BitVec.and_zero) (BitVec.and_allOnes (w := 3)))

/-- A decoded value meets the match and mask of its row: it is the encoding of what it decodes to. -/
theorem decodeCode_matches {code : Code} {i : Instr} (h : decodeCode false code = .ok i) :
    codeRaw code &&& (tableRow i).2 = (tableRow i).1 := by
  rw [← encode_of_decodeCode h]
  exact encode_matches (Machine.decodeCode_wellFormed h).1

/-- A primary-set value that meets a row of its set decodes to an instruction of that row. -/
theorem decodePrimary_of_matches {raw : Word} {i : Instr} (hi : i.instrSet = .primary)
    (h : raw &&& (tableRow i).2 = (tableRow i).1) : ∃ j, decodePrimary false raw = .ok j ∧ tableRow j = tableRow i := by
  cases i <;> simp only [tableRow] at h
  case bx => exact ⟨_, decodePrimary_of_bx (field_of_masked h 4 _), rfl⟩
  case blxReg => exact ⟨_, decodePrimary_of_blxReg (field_of_masked h 4 _), rfl⟩
  case b => exact ⟨_, decodePrimary_of_b (field_of_masked h 24 _), rfl⟩
  case bl => exact ⟨_, decodePrimary_of_bl (field_of_masked h 24 _), rfl⟩
  case' ldm => have hblock c := decodeBlock_ldm c (bit_of_masked h 20) (bit_of_masked h 22)
  case' ldmUser => have hblock c := decodeBlock_ldmUser c (bit_of_masked h 20) (bit_of_masked h 22) (bit_of_masked h 15)
  case' ldmRet => have hblock c := decodeBlock_ldmRet c (bit_of_masked h 20) (bit_of_masked h 22) (bit_of_masked h 15)
  case' stm => have hblock c := decodeBlock_stm c (bit_of_masked h 20) (bit_of_masked h 22)
  case' stmUser => have hblock c := decodeBlock_stmUser c (bit_of_masked h 20) (bit_of_masked h 22)
  case ldm | ldmUser | ldmRet | stm | stmUser =>
    exact ⟨_, decodePrimary_of_block (field_of_masked h 25 _), (congrArg tableRow (hblock _)).trans rfl⟩
  all_goals cases hi

/-- A compressed-set value that meets a row of its set decodes; one of T_BCC's row may be of a reserved row (30 R106). -/
theorem decodeCompressed_of_matches {raw : Half} {i : Instr} (hi : i.instrSet = .compressed)
    (h : raw.setWidth 32 &&& (tableRow i).2 = (tableRow i).1) : ∃ j, decodeCompressed raw = .ok j := by
  cases i with simp only [tableRow] at h
  | tReservedCond14 low => exact ⟨_, decodeCompressed_of_reserved14 (field_of_masked_half h 8 _)⟩
  | tReservedCond15 low => exact ⟨_, decodeCompressed_of_reserved15 (field_of_masked_half h 8 _)⟩
  | tBcc c imm8 =>
    by_cases h14 : raw.extractLsb' 8 8 = 0xDE#8
    · exact ⟨_, decodeCompressed_of_reserved14 h14⟩
    by_cases h15 : raw.extractLsb' 8 8 = 0xDF#8
    · exact ⟨_, decodeCompressed_of_reserved15 h15⟩
    exact ⟨_, decodeCompressed_of_tBcc (field_of_masked_half h 12 _) h14 h15⟩
  | tB imm11 => exact ⟨_, decodeCompressed_of_tB (field_of_masked_half h 11 _)⟩
  | tBlHi imm11 => exact ⟨_, decodeCompressed_of_tBlHi (field_of_masked_half h 11 _)⟩
  | tBlLo imm11 => exact ⟨_, decodeCompressed_of_tBlLo (field_of_masked_half h 11 _)⟩
  | tBx rm => exact ⟨_, decodeCompressed_of_tBx (field_of_masked_half h 7 _) (field_of_masked_half h 0 _)⟩
  | tBlxReg rm => exact ⟨_, decodeCompressed_of_tBlxReg (field_of_masked_half h 7 _) (field_of_masked_half h 0 _)⟩
  | _ => cases hi

/-- Settles O3: a value that decodes meets the row of what it decodes to; a value that meets a row decodes, a primary-set one
to that very row, so that it meets no other. -/
theorem decoderAcceptsExactlyTheTableRows : Obligations.DecoderAcceptsExactlyTheTableRows := by
  refine ⟨fun code => ⟨fun ⟨i, h⟩ => ?_, fun ⟨i, hi, h⟩ => ?_⟩, fun code i => decodeCode_matches,
    fun raw i j hi hj himatch hjmatch => ?_⟩
  · exact ⟨i, (Machine.decodeCode_wellFormed h).2, decodeCode_matches h⟩
  · cases code with
    | word raw =>
      obtain ⟨j, hj, -⟩ := decodePrimary_of_matches hi h
      exact ⟨j, hj⟩
    | half raw => exact decodeCompressed_of_matches hi h
  · obtain ⟨a, ha, hrow⟩ := decodePrimary_of_matches hi himatch
    obtain ⟨b, hb, hrow'⟩ := decodePrimary_of_matches hj hjmatch
    obtain rfl : a = b := Except.ok.inj (ha.symm.trans hb)
    exact hrow.symm.trans hrow'

/-! ### Condition field 0b1111 (30 R105) -/

theorem condOfBits_eq_nv {c : BitVec 4} : condOfBits c = .nv ↔ c = 0b1111#4 := by
  revert c; decide

/-- Settles O5: the refusal is the decoder's first test, and the only place where it reads `REFUSE_COND_NV`. -/
theorem refuseCondNvTakesOutTheNvSpace : Obligations.RefuseCondNvTakesOutTheNvSpace := by
  intro raw
  rw [← condOfBits_eq_nv, Ne, ← condOfBits_eq_nv]
  refine ⟨fun h i => ?_, fun h => ?_⟩
  · simp [decodeCode, decodePrimary, h]
  · simp [decodeCode, decodePrimary, h]

end Sys2Proof
end

section
/-! PROOFS. What is refused and what stops without a meaning: ill-formed descriptors (93 U28, log 12, log 13) and the reserved
rows (30 R106, 44 R244). -/

namespace Sys2Proof.Machine

/-- Settles O47: the arms of the two rows are the dispatcher's `Unknown` (44 R244). -/
theorem reservedRowsAreUnknownTags : Obligations.ReservedRowsAreUnknownTags := fun _ _ => ⟨rfl, rfl⟩

/-- A handler's result is a next state or a stop, never a refusal (44 R243). -/
theorem complete_ne_refused (iset : InstrSet) (res : Res Status) (r : Refusal) : complete iset res ≠ .refused r := by
  cases res <;> simp

/-- `exec` refuses by the check of the form alone (log 12). -/
theorem exec_eq_refused {i : Instr} {s : State} {r : Refusal} :
    exec i s = .refused r ↔ i.wellFormed = false ∧ r = .illFormed := by
  rw [exec_eq]
  cases i.wellFormed
  · simp [eq_comm]
  · simp [complete_ne_refused]

/-- Settles O49: `exec` by `exec_eq_refused`; a step runs it on what `describe` gives, which is well-formed, or completes an
external handler's result (log 13). -/
theorem onlyIllFormedDescriptorsAreRefused : Obligations.OnlyIllFormedDescriptorsAreRefused := by
  refine ⟨fun i s r => exec_eq_refused, fun p s r => ?_⟩
  cases hh : s.halted with
  | some c => simp [stepWith, hh]
  | none =>
    cases hf : fetch s with
    | stop c u => simp [stepWith, hh, hf]
    | ok code u =>
      cases hd : describe p.refuseCondNv p.decode code with
      | none => simp [stepWith, hh, hf, hd, complete_ne_refused]
      | some i =>
        obtain ⟨-, hwf, -⟩ := describe_eq_some.mp hd
        simp [stepWith, hh, hf, hd, exec_eq_refused, hwf]

end Sys2Proof.Machine
end

section
/-! PROOFS. The shared algorithms of 40: the condition evaluator and the skip rule (R130 to R132), the bank swap (R133, R134), the
resolver (R136), and the branch primitive with its round trip through the fetch (R138, R140, 42 R184). -/

namespace Sys2Proof.Machine

open Sys2Proof.Claims

/-! ### Conditions and the skip rule -/

/-- Settles O10: the evaluator reads four flags of the word, so the table is a statement on 16 flag states. -/
theorem conditionTableReadsTheFlags : Obligations.ConditionTableReadsTheFlags := by
  intro w
  simp only [condPassed, psrN, psrZ, psrC, psrV]
  generalize w.getLsbD 31 = n, w.getLsbD 30 = z, w.getLsbD 29 = c, w.getLsbD 28 = v
  revert n z c v
  decide

/-- Settles O11: the code is `nv`'s, whose row of the table is constant. -/
theorem reservedConditionAlwaysPasses : Obligations.ReservedConditionAlwaysPasses := by
  intro w
  rw [condOfBits_eq_nv.mpr rfl]
  rfl

/-- The model and the statements name the same widths (44 R243). -/
theorem widthOf_eq_widthFor (iset : InstrSet) : widthOf iset = widthFor iset := by cases iset <;> rfl

/-- An instruction whose condition fails is the dispatcher's advance alone (40 R132). -/
theorem exec_of_failed {i : Instr} {c : Cond} {s : State} (hwf : i.wellFormed = true) (hi : i.cond? = some c)
    (hc : condPassed s.cpsr c = false) : exec i s = .next (s.advance i.instrSet) := by
  rw [exec_of_wellFormed hwf, handle_skip hi hc, complete_ok, retire_continues]

/-- Settles O12: a skipped handler continues with the state as it was, and its transfer is not begun. -/
theorem failedConditionOnlyAdvances : Obligations.FailedConditionOnlyAdvances := by
  intro i c s hwf hi hc
  refine ⟨?_, dataRequests_of_failed hi hc⟩
  rw [exec_of_failed hwf hi hc, State.advance, widthOf_eq_widthFor]

/-! ### The bank swap and the resolver -/

/-- Settles O8: the swap writes the selector alone, and a visible register is read through the selector. -/
theorem swapBankMovesOnlyTheSelector : Obligations.SwapBankMovesOnlyTheSelector := by
  intro b s
  rw [swapBank_fst, swapBank_snd, swapBank_snd]
  exact ⟨rfl, State.setBank_bankSel s b, fun p _ => physReg_setBank s b p, State.setBank_cpsr s b, State.setBank_spsr s b,
    fun _ => rfl, reg_setBank s b, rfl⟩

/-- Settles O27: the four rows of `resolve`. -/
theorem resolverFollowsItsTable : Obligations.ResolverFollowsItsTable := fun _ _ _ => ⟨rfl, rfl, rfl, rfl⟩

/-! ### The branch primitive -/

theorem pcOffset_eq_offsetFor (s : State) : s.pcOffset = offsetFor (s.cpsr.getLsbD 5) := pcOffset_eq s

theorem regsKept_branch (s : State) (a : Word) : RegsKept s (s.branch a) [15] := by
  intro p hp
  rw [physReg_branch, if_neg (by simpa using hp)]

/-- Settles O13: `Branch` is one write, of register 15, whose copy every bank shows. -/
theorem branchWritesThePcView : Obligations.BranchWritesThePcView := by
  intro s a
  refine ⟨?_, regsKept_branch s a, rfl, fun _ => rfl, rfl, rfl, rfl, rfl⟩
  rw [reg_fifteen, physReg_branch, if_pos rfl, pcOffset_eq_offsetFor]

/-- After an exchange the next fetch is from the target with its low bit cleared: the offset added is the new set's (40 R139,
R140). -/
theorem fetchAddr_exchange (s : State) (v : Word) : (s.exchange v).fetchAddr = clearBit0 v := fetchAddr_branch _ _

theorem psrT_exchange (s : State) (v : Word) : psrT (s.exchange v).cpsr = v.getLsbD 0 := by
  rw [State.exchange_cpsr, psrT, getLsbD_psrSetT, if_pos rfl]

/-- Each of the four exchanges that runs ends with an exchange to the register's value before it, a link written first or not
(42 R180 to R183). -/
theorem exec_exchanges {i : Instr} {rm : RegIdx} {s t : State}
    (hi : (∃ c, (i = .bx c rm ∨ i = .blxReg c rm) ∧ condPassed s.cpsr c = true) ∨ i = .tBx rm ∨ i = .tBlxReg rm)
    (h : exec i s = .next t) : ∃ u : State, t = u.exchange (s.reg rm) := by
  obtain ⟨-, st, v, hv, rfl⟩ := exec_eq_next.mp h
  obtain ⟨c, rfl | rfl, hc⟩ | rfl | rfl := hi
  · rw [handle, handleBx, conditional_pass _ hc] at hv
    cases hv; exact ⟨s, rfl⟩
  · rw [handle, handleBlxReg, conditional_pass _ hc] at hv
    cases hv; exact ⟨s.setReg 14 (linkPrimary (s.reg 15)), rfl⟩
  · cases hv; exact ⟨s, rfl⟩
  · cases hv; exact ⟨s.setReg 14 (linkCompressed (s.reg 15)), rfl⟩

/-- Settles O26: `Branch` adds the offset that the fetch takes off, and an exchange is a branch under the new `T`. -/
theorem nextFetchIsTheBranchTarget : Obligations.NextFetchIsTheBranchTarget := by
  refine ⟨fetchAddr_branch, fun i rm s t hi h => ?_⟩
  obtain ⟨u, rfl⟩ := exec_exchanges hi h
  exact ⟨fetchAddr_exchange u _, psrT_exchange u _⟩

/-! ### The exception return to a reserved mode -/

/-- The loads of a transfer that runs to its end finish; where register 15 is listed too, the read after them passes its checks
(43 R201, R203). -/
theorem loadWithWriteback_of_transfers {op : BlockOp} {s : State} (h : Transfers op s) :
    ∃ a u, loadWithWriteback op (blockAdr op s) s = .ok a u ∧ (op.list.getLsbD 15 = true → s.dataFault a = none) := by
  have hpass := dataFault_of_transfers h
  have hlen := selectedLow_length op.list
  obtain ⟨u, hu⟩ := loadWithWriteback_ok (op := op) fun j hj => hpass j (by omega)
  refine ⟨_, u, hu, fun h15 => hpass _ ?_⟩
  rw [if_pos h15] at hlen
  omega

/-- `loadWithWriteback_loaded` in the statements' words (43 R201, R211). -/
theorem loadedIn_of_loadWithWriteback {op : BlockOp} {s u : State} {a : Word}
    (h : loadWithWriteback op (blockAdr op s) s = .ok a u) : LoadedIn s.bankSel op s u := by
  intro i hi hlisted
  rw [loadWithWriteback_loaded h hi hlisted, startOf_eq_blockAdr]
  rfl

/-- The load loop is over registers 0 to 14, so with another base the loads leave register 15. -/
theorem loadWithWriteback_pc {op : BlockOp} {adr : Word × Word} {s u : State} {a : Word}
    (h : loadWithWriteback op adr s = .ok a u) (hrn : op.rn ≠ 15) : u.reg 15 = s.reg 15 := by
  rw [reg_fifteen, reg_fifteen]
  refine loadWithWriteback_other h (fun i hi _ e => ?_) fun _ e => hrn ((phys_eq_fifteen _ _).mp e.symm)
  rw [(phys_eq_fifteen _ _).mp e.symm] at hi
  exact absurd hi (by decide)

/-- LDM_RET past its loads stops where its SPSR entry holds a reserved mode, with CPSR replaced alone (43 R203, 40 R134). -/
theorem handleLdmRet_to_reserved {c : Cond} {op : BlockOp} {s u : State} {k : Fin 5} {a : Word}
    (hc : condPassed s.cpsr c = true) (hrn : op.rn ≠ 15) (hl : op.list ≠ 0#16) (hk : spsrIndex (psrMode s.cpsr) = some k)
    (hload : loadWithWriteback op (blockAdr op s) s = .ok a u) (ha : s.dataFault a = none)
    (hreserved : bankOf (psrMode s.spsr[k.val]) = none) :
    handleLdmRet c op s = .stop .badMode (u.setCpsr s.spsr[k.val]) := by
  obtain ⟨-, -, -, hspsr, -, -, hranges⟩ := loadWithWriteback_frame hload
  rw [← dataFault_congr hranges] at ha
  rw [← hspsr] at hreserved ⊢
  rw [handleLdmRet, conditional_pass _ hc, blockStart_ok hrn hl, Res.bind_ok, hk]
  dsimp only
  rw [hload, Res.bind_ok, readWord_ok ha, Res.bind_ok, exceptionReturn_stop hreserved]

/-- Settles O37: the loads finish, and the stop is the bank swap's, after CPSR is replaced and before the branch. -/
theorem ldmRetToReservedModeStops : Obligations.LdmRetToReservedModeStops := by
  intro c op s k hc h15 htransfers hk hreserved
  obtain ⟨hrn, hl, -⟩ := id htransfers
  obtain ⟨a, u, hload, ha⟩ := loadWithWriteback_of_transfers htransfers
  have hstop : handle (.ldmRet c op) s = .stop .badMode (u.setCpsr s.spsr[k.val]) :=
    handleLdmRet_to_reserved hc hrn hl hk hload (ha h15) hreserved
  obtain ⟨-, hbank, -⟩ := loadWithWriteback_frame hload
  have hloaded : LoadedIn s.bankSel op s u := loadedIn_of_loadWithWriteback hload
  have hpc : u.reg 15 = s.reg 15 := loadWithWriteback_pc hload hrn
  refine ⟨?_, u.setCpsr s.spsr[k.val], hstop, hloaded, rfl, hbank, hpc⟩
  rw [exec_of_wellFormed (i := .ldmRet c op) h15, hstop, complete_stop]

end Sys2Proof.Machine
end

section
/-! PROOFS. Relative branches and branch with link (41): which status each instruction returns (R166, R184, R212), and what a
branch that runs writes, with and without a link (R160 to R165). -/

namespace Sys2Proof.Machine

open Sys2Proof.Claims

/-! ### The handlers of the conditional branches and exchanges, their condition passed -/

section Passed

variable {c : Cond} {s : State} (hc : condPassed s.cpsr c = true)
include hc

theorem handle_b_of_passed (imm24 : BitVec 24) :
    handle (.b c imm24) s = .ok .branched (s.branch (s.reg 15 + offset24 imm24)) := by
  rw [handle, handleB, conditional_pass _ hc]

theorem handle_bl_of_passed (imm24 : BitVec 24) : handle (.bl c imm24) s =
    .ok .branched ((s.setReg 14 (linkPrimary (s.reg 15))).branch (s.reg 15 + offset24 imm24)) := by
  rw [handle, handleBl, conditional_pass _ hc]

theorem handle_tBcc_of_passed (imm8 : BitVec 8) :
    handle (.tBcc c imm8) s = .ok .branched (s.branch (s.reg 15 + offset8 imm8)) := by
  rw [handle, handleTBcc, conditional_pass _ hc]

theorem handle_bx_of_passed (rm : RegIdx) : handle (.bx c rm) s = .ok .branched (s.exchange (s.reg rm)) := by
  rw [handle, handleBx, conditional_pass _ hc]

theorem handle_blxReg_of_passed (rm : RegIdx) : handle (.blxReg c rm) s =
    .ok .branched ((s.setReg 14 (linkPrimary (s.reg 15))).exchange (s.reg rm)) := by
  rw [handle, handleBlxReg, conditional_pass _ hc]

end Passed

/-! ### The status of an instruction -/

theorem branched_of_eq_ok {r : Res Status} {st : Status} {t u : State} (h : r = .ok st t) (h' : r = .ok .branched u) :
    st = .branched := by
  rw [h] at h'
  cases h'
  rfl

/-- Which instructions return `Branched` once their condition, if they have one, has passed (41 R166, 42 R184,
43 R212). The reserved rows never answer, so what stands for them says nothing. -/
def BranchesWhenRun : Instr → Prop
  | .bx _ _ | .blxReg _ _ | .b _ _ | .bl _ _ | .ldmRet _ _ => True
  | .tBcc _ _ | .tB _ | .tBlLo _ | .tBx _ | .tBlxReg _ => True
  | .ldm _ op => op.list.getLsbD 15 = true
  | .ldmUser _ _ | .stm _ _ | .stmUser _ _ | .tBlHi _ => False
  | .tReservedCond14 _ | .tReservedCond15 _ => True

theorem branched_iff_of_passed {i : Instr} {s t : State} {st : Status} (h : handle i s = .ok st t)
    (hpass : ∀ c, i.cond? = some c → condPassed s.cpsr c = true) : st = .branched ↔ BranchesWhenRun i := by
  cases i with
  | bx c rm => exact iff_of_true (branched_of_eq_ok h (handle_bx_of_passed (hpass c rfl) rm)) trivial
  | blxReg c rm => exact iff_of_true (branched_of_eq_ok h (handle_blxReg_of_passed (hpass c rfl) rm)) trivial
  | b c imm24 => exact iff_of_true (branched_of_eq_ok h (handle_b_of_passed (hpass c rfl) imm24)) trivial
  | bl c imm24 => exact iff_of_true (branched_of_eq_ok h (handle_bl_of_passed (hpass c rfl) imm24)) trivial
  | tBcc c imm8 => exact iff_of_true (branched_of_eq_ok h (handle_tBcc_of_passed (hpass c rfl) imm8)) trivial
  | tB imm11 => cases h; exact iff_of_true rfl trivial
  | tBlLo imm11 => cases h; exact iff_of_true rfl trivial
  | tBx rm => cases h; exact iff_of_true rfl trivial
  | tBlxReg rm => cases h; exact iff_of_true rfl trivial
  | tBlHi imm11 => cases h; exact iff_of_false Status.noConfusion id
  | tReservedCond14 low => cases h
  | tReservedCond15 low => cases h
  | ldm c op =>
    obtain ⟨-, a, u, -, ⟨h15, rfl, -⟩ | ⟨h15, -, rfl, -⟩⟩ := (handleLdm_eq_ok (hpass c rfl)).mp h
    · exact iff_of_false Status.noConfusion (Bool.eq_false_iff.mp h15)
    · exact iff_of_true rfl h15
  | ldmRet c op =>
    obtain ⟨-, hst, -⟩ := (handleLdmRet_eq_ok (hpass c rfl)).mp h
    exact iff_of_true hst trivial
  | ldmUser c op =>
    obtain ⟨-, rfl, -⟩ := (handleLdmUser_eq_ok (hpass c rfl)).mp h
    exact iff_of_false Status.noConfusion id
  | stm c op =>
    obtain ⟨-, rfl, -⟩ := (handleStm_eq_ok (hpass c rfl)).mp h
    exact iff_of_false Status.noConfusion id
  | stmUser c op =>
    obtain ⟨-, rfl, -⟩ := (handleStmUser_eq_ok (hpass c rfl)).mp h
    exact iff_of_false Status.noConfusion id

/-- An instruction that branches found its condition passed: the skip rule continues (40 R132). -/
theorem passed_of_branched {i : Instr} {s t : State} {c : Cond} (h : handle i s = .ok .branched t) (hi : i.cond? = some c) :
    condPassed s.cpsr c = true := by
  by_contra hfail
  rw [handle_skip hi (by simpa using hfail)] at h
  cases h

/-- Settles O16: a skipped instruction continues, one that runs branches as `BranchesWhenRun` says, and a handler that continues
leaves CPSR. -/
theorem branchedExactlyWhenTheRulesSay : Obligations.BranchedExactlyWhenTheRulesSay := by
  intro i s t st _ h
  have hstatus : st = .branched ↔ (∀ c, i.cond? = some c → condPassed s.cpsr c = true) ∧ BranchesWhenRun i := by
    constructor
    · rintro rfl
      have hpass := fun c => passed_of_branched (c := c) h
      exact ⟨hpass, (branched_iff_of_passed h hpass).mp rfl⟩
    · rintro ⟨hpass, hbranches⟩
      exact (branched_iff_of_passed h hpass).mpr hbranches
  refine ⟨?_, ?_⟩
  · cases i <;> exact hstatus
  · rintro rfl
    exact (handle_continues h).2

/-! ### What a link and a branch write -/

/-- A write of the link register and then of the PC-view: the two are two copies in every bank (10 R22), so both values stay, and
nothing else changes. -/
theorem setReg_link_then_pc (s : State) (v w : Word) :
    let t := (s.setReg 14 v).setReg 15 w
    t.reg 14 = v ∧ t.reg 15 = w ∧ RegsKept s t [15, phys s.bankSel 14] ∧ t.cpsr = s.cpsr ∧ MemKept s t ∧ RestKept s t := by
  refine ⟨?_, reg_setReg_self _ 15 w, ?_, rfl, fun _ => rfl, rfl, rfl, rfl, rfl⟩
  · rw [reg_setReg_ne _ (by decide), reg_setReg_self]
  · intro p hp
    obtain ⟨h15, h14⟩ : p ≠ 15 ∧ p ≠ phys s.bankSel 14 := by simpa using hp
    rw [physReg_setReg, phys_fifteen, if_neg h15, physReg_setReg, if_neg h14]

/-- A branch after a link is written: `setReg_link_then_pc` with the pipeline offset of the set in force (40 R138). -/
theorem branch_after_link (s : State) (v a : Word) :
    let t := (s.setReg 14 v).branch a
    t.reg 14 = v ∧ t.reg 15 = a + offsetFor (s.cpsr.getLsbD 5) ∧ RegsKept s t [15, phys s.bankSel 14] ∧ t.cpsr = s.cpsr ∧
      MemKept s t ∧ RestKept s t := by
  rw [State.branch, pcOffset_eq_offsetFor, State.setReg_cpsr]
  exact setReg_link_then_pc s v _

/-! ### The meaning of each branch that runs -/

theorem exec_b_of_passed {c : Cond} {s : State} (hc : condPassed s.cpsr c = true) (imm24 : BitVec 24) :
    exec (.b c imm24) s = .next (s.branch (s.reg 15 + offset24 imm24)) := by
  rw [exec_of_wellFormed rfl, handle_b_of_passed hc, complete_ok, retire_branched]

theorem exec_bl_of_passed {c : Cond} {s : State} (hc : condPassed s.cpsr c = true) (imm24 : BitVec 24) :
    exec (.bl c imm24) s = .next ((s.setReg 14 (linkPrimary (s.reg 15))).branch (s.reg 15 + offset24 imm24)) := by
  rw [exec_of_wellFormed rfl, handle_bl_of_passed hc, complete_ok, retire_branched]

theorem exec_tBcc_of_passed {c : Cond} {s : State} (hal : c ≠ .al) (hnv : c ≠ .nv) (hc : condPassed s.cpsr c = true)
    (imm8 : BitVec 8) : exec (.tBcc c imm8) s = .next (s.branch (s.reg 15 + offset8 imm8)) := by
  rw [exec_of_wellFormed (by simp [Instr.wellFormed, hal, hnv]), handle_tBcc_of_passed hc, complete_ok,
    retire_branched]

theorem exec_tB (imm11 : BitVec 11) (s : State) : exec (.tB imm11) s = .next (s.branch (s.reg 15 + offset11 imm11)) := rfl

theorem exec_tBlHi (imm11 : BitVec 11) (s : State) :
    exec (.tBlHi imm11) s = .next ((s.setReg 14 (s.reg 15 + offsetHi imm11)).advance .compressed) := rfl

theorem exec_tBlLo (imm11 : BitVec 11) (s : State) : exec (.tBlLo imm11) s =
    .next ((s.setReg 14 (linkCompressed (s.reg 15))).branch (s.reg 14 + offsetLo imm11)) := rfl

/-- Settles O17: one branch by `offset24` from the PC-view. -/
theorem bBranchesRelative : Obligations.BBranchesRelative := fun _ imm24 s hc =>
  ⟨_, exec_b_of_passed hc imm24, branchWritesThePcView s _⟩

/-- Settles O18: the link value and the target are both from the PC-view before the instruction. -/
theorem blLinksAndBranches : Obligations.BlLinksAndBranches := fun _ imm24 s hc =>
  ⟨_, exec_bl_of_passed hc imm24, branch_after_link s _ _⟩

/-- Settles O19: one branch each, by `offset11` and by `offset8` from the PC-view. -/
theorem compressedBranchesAreRelative : Obligations.CompressedBranchesAreRelative :=
  ⟨fun imm11 s => ⟨_, exec_tB imm11 s, branchWritesThePcView s _⟩,
    fun _ imm8 s hal hnv hc => ⟨_, exec_tBcc_of_passed hal hnv hc imm8, branchWritesThePcView s _⟩⟩

/-- Settles O20: the half is staged, and the dispatcher advances over a halfword. -/
theorem blHiStagesThePartialTarget : Obligations.BlHiStagesThePartialTarget := by
  intro imm11 s
  refine ⟨_, exec_tBlHi imm11 s, ?_⟩
  rw [offsetHi_eq, State.advance, reg_setReg_ne s (by decide)]
  exact setReg_link_then_pc s _ _

/-- Settles O21: the staged value is read before the link replaces it. -/
theorem blLoLinksAndBranches : Obligations.BlLoLinksAndBranches := by
  intro imm11 s
  refine ⟨_, exec_tBlLo imm11 s, ?_⟩
  rw [offsetLo_eq]
  exact branch_after_link s _ _

/-! ### The two halves together -/

theorem regsKept_trans {s t u : State} {except : List PhysReg} (h : RegsKept s t except) (h' : RegsKept t u except) :
    RegsKept s u except := fun p hp => (h' p hp).trans (h p hp)

theorem memKept_trans {s t u : State} (h : MemKept s t) (h' : MemKept t u) : MemKept s u := fun a => (h' a).trans (h a)

theorem restKept_trans {s t u : State} (h : RestKept s t) (h' : RestKept t u) : RestKept s u := by
  obtain ⟨hbank, hspsr, hhalted, hranges⟩ := h
  obtain ⟨hbank', hspsr', hhalted', hranges'⟩ := h'
  exact ⟨hbank'.trans hbank, hspsr'.trans hspsr, hhalted'.trans hhalted, hranges'.trans hranges⟩

/-- The fetch address after a write of the PC-view that has the pipeline offset added (40 R140). -/
theorem fetchAddr_of_pc {s : State} {a : Word} (h : s.reg 15 = a + offsetFor (s.cpsr.getLsbD 5)) : s.fetchAddr = a := by
  rw [State.fetchAddr, h, pcOffset_eq_offsetFor, BitVec.add_sub_cancel]

/-- Settles O22: the second half branches from what the first staged, and the halves' displacements add up (`halves_add`).
The offset that the branch adds is the one the fetch takes off, so the argument does not need the premise on `T`. -/
theorem blPairIsOneRelativeBranch : Obligations.BlPairIsOneRelativeBranch := by
  intro hi lo s _
  obtain ⟨t, ht, t14, t15, tregs, tcpsr, tmem, trest⟩ := blHiStagesThePartialTarget hi s
  obtain ⟨u, hu, u14, u15, uregs, ucpsr, umem, urest⟩ := blLoLinksAndBranches lo t
  have htarget : u.fetchAddr = t.reg 14 + (lo ++ 0#1).setWidth 32 := fetchAddr_of_pc (by rw [u15, ucpsr])
  have hbank : t.bankSel = s.bankSel := trest.1
  rw [hbank] at uregs
  refine ⟨t, u, ht, hu, ?_, ?_, regsKept_trans tregs uregs, ucpsr.trans tcpsr, memKept_trans tmem umem,
    restKept_trans trest urest⟩
  · rw [htarget, t14, BitVec.add_assoc, halves_add]
  · rw [u14, t15, BitVec.add_sub_cancel]

end Sys2Proof.Machine
end

section
/-! PROOFS. Branch-exchange (42): what an exchange writes, with and without a link before it, and the meaning of each of the
four instructions (R180 to R183). -/

namespace Sys2Proof.Machine

open Sys2Proof.Claims

/-! ### What an exchange writes -/

theorem getLsbD_setT (s : State) (b : Bool) : (s.setT b).cpsr.getLsbD 5 = b := by
  rw [State.setT_cpsr, getLsbD_psrSetT, if_pos rfl]

/-- An exchange is a write of `T` and then a branch, so the branch's rule (40 R138) holds of it from the state with the new `T`,
whose registers, memory and other state are those before it. -/
theorem exchange_writes (s : State) (v : Word) :
    let t := s.exchange v
    t.cpsr.getLsbD 5 = v.getLsbD 0 ∧ t.reg 15 = (v &&& 0xFFFFFFFE#32) + offsetFor (v.getLsbD 0) ∧ RegsKept s t [15] ∧
      CpsrKeptButT s t ∧ MemKept s t ∧ RestKept s t := by
  obtain ⟨hpc, hregs, -, hmem, hrest⟩ := branchWritesThePcView (s.setT (v.getLsbD 0)) (clearBit0 v)
  rw [getLsbD_setT] at hpc
  exact ⟨getLsbD_setT s _, hpc, hregs, cpsrKeptButT_of_psrSetT (State.exchange_cpsr s v), hmem, hrest⟩

/-- An exchange after a link is written: neither write touches the other's place, so it is a link and a branch
(`branch_after_link`) from the state with the new `T`. -/
theorem exchange_after_link (s : State) (link v : Word) :
    let t := (s.setReg 14 link).exchange v
    t.reg 14 = link ∧ t.cpsr.getLsbD 5 = v.getLsbD 0 ∧ t.reg 15 = (v &&& 0xFFFFFFFE#32) + offsetFor (v.getLsbD 0) ∧
      RegsKept s t [15, phys s.bankSel 14] ∧ CpsrKeptButT s t ∧ MemKept s t ∧ RestKept s t := by
  obtain ⟨hlink, hpc, hregs, -, hmem, hrest⟩ := branch_after_link (s.setT (v.getLsbD 0)) link (clearBit0 v)
  rw [getLsbD_setT] at hpc
  exact ⟨hlink, getLsbD_setT s _, hpc, hregs, cpsrKeptButT_of_psrSetT (State.exchange_cpsr s v), hmem, hrest⟩

/-! ### The meaning of each exchange that runs -/

theorem exec_bx_of_passed {c : Cond} {s : State} (hc : condPassed s.cpsr c = true) (rm : RegIdx) :
    exec (.bx c rm) s = .next (s.exchange (s.reg rm)) := by
  rw [exec_of_wellFormed rfl, handle_bx_of_passed hc, complete_ok, retire_branched]

theorem exec_blxReg_of_passed {c : Cond} {s : State} (hc : condPassed s.cpsr c = true) (rm : RegIdx) :
    exec (.blxReg c rm) s = .next ((s.setReg 14 (linkPrimary (s.reg 15))).exchange (s.reg rm)) := by
  rw [exec_of_wellFormed rfl, handle_blxReg_of_passed hc, complete_ok, retire_branched]

theorem exec_tBx (rm : RegIdx) (s : State) : exec (.tBx rm) s = .next (s.exchange (s.reg rm)) := rfl

theorem exec_tBlxReg (rm : RegIdx) (s : State) :
    exec (.tBlxReg rm) s = .next ((s.setReg 14 (linkCompressed (s.reg 15))).exchange (s.reg rm)) := rfl

/-- Settles O23: BX and T_BX that run are one exchange to the register's value; a skipped BX is the primary set's advance. -/
theorem exchangeTakesTFromTheTarget : Obligations.ExchangeTakesTFromTheTarget := by
  intro i rm s
  refine ⟨fun hi => ⟨s.exchange (s.reg rm), ?_, exchange_writes s _⟩, ?_⟩
  · obtain ⟨c, rfl, hc⟩ | rfl := hi
    · exact exec_bx_of_passed hc rm
    · exact exec_tBx rm s
  · rintro c rfl hc
    exact exec_of_failed (i := .bx c rm) rfl rfl hc

/-- Settles O24: link value and target are both from the registers before the instruction. -/
theorem blxRegLinksAndExchanges : Obligations.BlxRegLinksAndExchanges := fun _ rm s hc =>
  ⟨_, exec_blxReg_of_passed hc rm, exchange_after_link s _ _⟩

/-- Settles O25: as BLX_REG, with the compressed set's link value. -/
theorem compressedBlxLinksAndExchanges : Obligations.CompressedBlxLinksAndExchanges := fun rm s =>
  ⟨_, exec_tBlxReg rm s, exchange_after_link s _ _⟩

end Sys2Proof.Machine
end

section
/-! PROOFS. The block transfers (43): what the loads and the stores leave behind (R201, R204, R206), the meaning of each transfer
that runs to its end (R201 to R205), and the forms that stop before any transfer (R203, R207). -/

namespace Sys2Proof.Machine

open Sys2Proof.Claims

/-! ### Frames in the statements' words -/

theorem memKept_of_mem_eq {s t : State} (h : t.mem = s.mem) : MemKept s t := fun a => by rw [State.byteAt, h, State.byteAt]

/-- The dispatcher's advance writes register 15 alone (44 R243). -/
theorem advance_writes (s : State) (iset : InstrSet) :
    let t := s.advance iset
    t.reg 15 = s.reg 15 + widthFor iset ∧ RegsKept s t [15] ∧ t.cpsr = s.cpsr ∧ MemKept s t ∧ RestKept s t := by
  obtain ⟨hpc, hregs, hframe⟩ := registerWriteReachesOneCopy s 15 (s.reg 15 + widthFor iset)
  rw [phys_fifteen] at hregs
  rw [State.advance, widthOf_eq_widthFor]
  exact ⟨hpc, hregs, hframe⟩

theorem phys_ne_fifteen {i : RegIdx} (h : i ≠ 15) (b : Bank) : phys b i ≠ 15 := fun e => h ((phys_eq_fifteen b i).mp e)

theorem ne_fifteen_iff_lt (i : RegIdx) : i ≠ 15 ↔ i.val < 15 := by revert i; decide

theorem physReg_of_regsKept {s t : State} (h : RegsKept s t [15]) {p : PhysReg} (hp : p ≠ 15) : t.physReg p = s.physReg p :=
  h p (by simpa using hp)

/-- Which copies were loaded does not depend on register 15: what is written there after the loads leaves `LoadedIn`. -/
theorem loadedIn_of_regsKept {b : Bank} {op : BlockOp} {s u t : State} (h : LoadedIn b op s u) (hut : RegsKept u t [15]) :
    LoadedIn b op s t := fun i hi hlisted =>
  (physReg_of_regsKept hut (phys_ne_fifteen ((ne_fifteen_iff_lt i).mpr hi) b)).trans (h i hi hlisted)

theorem loadFrame_of_regsKept {b : Bank} {op : BlockOp} {wb : Bool} {s u t : State} (h : LoadFrame b op wb s u)
    (hut : RegsKept u t [15]) : LoadFrame b op wb s t := fun p h15 hlisted hbase =>
  (physReg_of_regsKept hut h15).trans (h p h15 hlisted hbase)

theorem writebackOf_eq_blockAdr (op : BlockOp) (s : State) : writebackOf op s = (blockAdr op s).2 := by
  rw [writebackOf, count_eq_popcount]

/-! ### After the loads -/

section Loaded

variable {op : BlockOp} {s u : State} {a : Word} (h : loadWithWriteback op (blockAdr op s) s = .ok a u)
include h

theorem loadWithWriteback_keeps : u.cpsr = s.cpsr ∧ MemKept s u ∧ RestKept s u := by
  obtain ⟨-, hbank, hcpsr, hspsr, hhalted, hmem, hranges⟩ := loadWithWriteback_frame h
  exact ⟨hcpsr, memKept_of_mem_eq hmem, hbank, hspsr, hhalted, hranges⟩

/-- The registers after the loads and a write of register 15: the listed ones are loaded, the base that is not listed is written
back, no other copy has changed (43 R201, R206). -/
theorem loads_then_pc {t : State} (hrn : op.rn ≠ 15) (hut : RegsKept u t [15]) :
    LoadedIn s.bankSel op s t ∧
      (op.w = true → op.list.getLsbD op.rn.val = false → t.physReg (phys s.bankSel op.rn) = writebackOf op s) ∧
      LoadFrame s.bankSel op op.w s t := by
  have hframe : LoadFrame s.bankSel op op.w s u := fun _ _ hlisted hbase =>
    loadWithWriteback_other h (fun i _ hi => hlisted i hi) hbase
  refine ⟨loadedIn_of_regsKept (loadedIn_of_loadWithWriteback h) hut, fun hw hl => ?_, loadFrame_of_regsKept hframe hut⟩
  rw [physReg_of_regsKept hut (phys_ne_fifteen hrn _), loadWithWriteback_base h hw hl, writebackOf_eq_blockAdr]

/-- The loads end at the transfer's last word where register 15 is to be loaded from it (43 R201). -/
theorem loadWithWriteback_last (h15 : op.list.getLsbD 15 = true) : a = wordAddr (startOf op s) (count op.list - 1) := by
  have hlen := selectedLow_length op.list
  rw [if_pos h15] at hlen
  obtain ⟨ha, -⟩ := loadWithWriteback_frame h
  rw [ha, startOf_eq_blockAdr, count_eq_popcount, ← hlen, Nat.add_sub_cancel, wordAddr_eq_add_fourTimes]

end Loaded

/-! ### LDM -/

/-- LDM without register 15, run to its end: the loads and the advance (43 R201). -/
theorem exec_ldm_of_transfers {c : Cond} {op : BlockOp} {s : State} (hc : condPassed s.cpsr c = true)
    (h15 : op.list.getLsbD 15 = false) (h : Transfers op s) :
    ∃ a u, loadWithWriteback op (blockAdr op s) s = .ok a u ∧ exec (.ldm c op) s = .next (u.advance .primary) := by
  obtain ⟨a, u, hload, -⟩ := loadWithWriteback_of_transfers h
  obtain ⟨hrn, hl, -⟩ := h
  have hhandle : handle (.ldm c op) s = .ok .continues u :=
    (handleLdm_eq_ok hc).mpr ⟨⟨hrn, hl⟩, a, u, hload, .inl ⟨h15, rfl, rfl⟩⟩
  exact ⟨a, u, hload, exec_eq_next.mpr ⟨rfl, _, u, hhandle, rfl⟩⟩

/-- LDM with register 15, run to its end: the loads and an exchange to the word after them (43 R201). -/
theorem exec_ldm_pc_of_transfers {c : Cond} {op : BlockOp} {s : State} (hc : condPassed s.cpsr c = true)
    (h15 : op.list.getLsbD 15 = true) (h : Transfers op s) :
    ∃ a u, loadWithWriteback op (blockAdr op s) s = .ok a u ∧ exec (.ldm c op) s = .next (u.exchange (s.wordAt a)) := by
  obtain ⟨a, u, hload, ha⟩ := loadWithWriteback_of_transfers h
  obtain ⟨hrn, hl, -⟩ := h
  have hhandle : handle (.ldm c op) s = .ok .branched (u.exchange (s.wordAt a)) :=
    (handleLdm_eq_ok hc).mpr ⟨⟨hrn, hl⟩, a, u, hload, .inr ⟨h15, ha h15, rfl, rfl⟩⟩
  exact ⟨a, u, hload, exec_eq_next.mpr ⟨rfl, _, _, hhandle, rfl⟩⟩

/-- Settles O28: the loads leave register 15, which the advance alone writes after them. -/
theorem ldmLoadsTheListedRegisters : Obligations.LdmLoadsTheListedRegisters := by
  intro c op s hc h15 htransfers
  obtain ⟨a, u, hload, hexec⟩ := exec_ldm_of_transfers hc h15 htransfers
  obtain ⟨hrn, -⟩ := htransfers
  obtain ⟨hcpsr, hmem, hrest⟩ := loadWithWriteback_keeps hload
  obtain ⟨hpc, hregs, hcpsr', hmem', hrest'⟩ := advance_writes u .primary
  obtain ⟨hloaded, hbase, hframe⟩ := loads_then_pc hload hrn hregs
  have hkept := restKept_trans hrest hrest'
  refine ⟨_, hexec, hloaded, fun hw hl => ?_, ?_, hframe, hcpsr'.trans hcpsr, memKept_trans hmem hmem', hkept⟩
  · rw [reg_eq, hkept.1, hbase hw hl]
  · rw [hpc, loadWithWriteback_pc hload hrn]
    rfl

/-- Settles O29: the word after the loads is the transfer's last, and the exchange to it writes `T` and register 15 alone. -/
theorem ldmWithPcExchangesToTheLoadedWord : Obligations.LdmWithPcExchangesToTheLoadedWord := by
  intro c op s hc h15 htransfers
  obtain ⟨a, u, hload, hexec⟩ := exec_ldm_pc_of_transfers hc h15 htransfers
  obtain ⟨hrn, -⟩ := htransfers
  obtain ⟨hcpsr, hmem, hrest⟩ := loadWithWriteback_keeps hload
  obtain ⟨hT, hpc, hregs, hcpsr', hmem', hrest'⟩ := exchange_writes u (s.wordAt a)
  obtain ⟨hloaded, hbase, hframe⟩ := loads_then_pc hload hrn hregs
  have hlast := congrArg s.wordAt (loadWithWriteback_last hload h15)
  have hkept := restKept_trans hrest hrest'
  refine ⟨_, _, hexec, hlast, hloaded, fun hw hl => ?_, hT, hpc, hframe, fun n hn => ?_, memKept_trans hmem hmem', hkept⟩
  · rw [reg_eq, hkept.1, hbase hw hl]
  · rw [hcpsr' n hn, hcpsr]

/-! ### LDM_RET -/

/-- Settles O32: the loads are made in the bank being left; the return after them writes CPSR, the selection and
register 15 (43 R203, 40 R134, R138). -/
theorem ldmRetRestoresCpsrAndBank : Obligations.LdmRetRestoresCpsrAndBank := by
  intro c op s k b hc h15 htransfers hk hb
  obtain ⟨a, u, hload, ha⟩ := loadWithWriteback_of_transfers htransfers
  obtain ⟨hrn, hl, -⟩ := htransfers
  obtain ⟨-, hmem, -, hspsr, hhalted, hranges⟩ := loadWithWriteback_keeps hload
  obtain ⟨hpc, hregs, hcpsr, hmem', hbank', hspsr', hhalted', hranges'⟩ :=
    branchWritesThePcView ((u.setCpsr s.spsr[k.val]).setBank b) (clearBit0 (s.wordAt a))
  have hhandle : handle (.ldmRet c op) s =
      .ok .branched (((u.setCpsr s.spsr[k.val]).setBank b).branch (clearBit0 (s.wordAt a))) :=
    (handleLdmRet_eq_ok hc).mpr ⟨⟨hrn, hl⟩, rfl, k, b, a, u, hk, hload, ha h15, hb, rfl⟩
  obtain ⟨hloaded, hbase, hframe⟩ := loads_then_pc hload hrn hregs
  refine ⟨_, exec_eq_next.mpr ⟨h15, _, _, hhandle, rfl⟩, hloaded, hbase, hcpsr, hbank', ?_, hframe, memKept_trans hmem hmem',
    hspsr'.trans hspsr, hhalted'.trans hhalted, hranges'.trans hranges⟩
  rw [← loadWithWriteback_last hload h15]
  exact hpc

/-! ### LDM_USER -/

/-- The load loop of LDM_USER is the loads of the form without writeback, in the user bank (43 R202). -/
theorem loadRegs_eq_loadWithWriteback (op : BlockOp) (adr : Word × Word) (s : State) :
    loadRegs (selectedLow op.list) adr.1 s = loadWithWriteback { op with w := false } adr s := rfl

section UserLoaded

variable {op : BlockOp} {s u : State} {a : Word}
  (h : loadRegs (selectedLow op.list) (blockAdr op s).1 (s.setBank .usr) = .ok a u)
include h

theorem loadedIn_usr_of_loadRegs : LoadedIn .usr op s u := by
  intro i hi hlisted
  rw [loadRegs_eq_loadWithWriteback] at h
  rw [startOf_eq_blockAdr]
  exact loadWithWriteback_loaded h hi hlisted

theorem loadFrame_usr_of_loadRegs : LoadFrame .usr op false s u := by
  intro p _ hlisted _
  rw [loadRegs_eq_loadWithWriteback] at h
  exact loadWithWriteback_other h (fun i _ hi => hlisted i hi) Bool.noConfusion

/-- The user bank's loads, with the selection put back: register 15 and all other state are as before (43 R202, 40 R135). -/
theorem loadRegs_usr_keeps : let t := u.setBank s.bankSel
    t.reg 15 = s.reg 15 ∧ t.cpsr = s.cpsr ∧ MemKept s t ∧ RestKept s t := by
  obtain ⟨-, -, hcpsr, hspsr, hhalted, hmem, hranges⟩ := loadRegs_frame h
  refine ⟨?_, hcpsr, memKept_of_mem_eq hmem, rfl, hspsr, hhalted, hranges⟩
  rw [reg_fifteen, reg_fifteen]
  refine loadRegs_other h 15 fun hmem => ?_
  obtain ⟨i, hi, hphys⟩ := List.mem_map.mp hmem
  exact phys_ne_fifteen ((ne_fifteen_iff_lt i).mpr (mem_selectedLow.mp hi).2) _ hphys

end UserLoaded

/-- LDM_USER that answers: the loads in the user bank, the selection put back, and the advance (43 R202). -/
theorem exec_ldmUser_eq_next {c : Cond} {op : BlockOp} {s t : State} (hc : condPassed s.cpsr c = true) :
    exec (.ldmUser c op) s = .next t ↔ (op.list.getLsbD 15 = false ∧ op.rn ≠ 15 ∧ op.list ≠ 0#16) ∧
      ∃ a u, loadRegs (selectedLow op.list) (blockAdr op s).1 (s.setBank .usr) = .ok a u ∧
        t = (u.setBank s.bankSel).advance .primary := by
  rw [exec_eq_next]
  constructor
  · rintro ⟨hwf, st, v, hv, rfl⟩
    obtain ⟨hform, rfl, a, u, hload, rfl⟩ := (handleLdmUser_eq_ok hc).mp hv
    exact ⟨⟨by simpa [Instr.wellFormed] using hwf, hform⟩, a, u, hload, rfl⟩
  · rintro ⟨⟨h15, hform⟩, a, u, hload, rfl⟩
    exact ⟨by simpa [Instr.wellFormed] using h15, _, _, (handleLdmUser_eq_ok hc).mpr ⟨hform, rfl, a, u, hload, rfl⟩, rfl⟩

/-- Settles O31: without register 15 the load loop makes the whole transfer, and it writes user copies alone. -/
theorem ldmUserLoadsTheUserBank : Obligations.LdmUserLoadsTheUserBank := by
  intro c op s hc h15 htransfers
  have hpass := dataFault_of_transfers htransfers
  obtain ⟨hrn, hl, -⟩ := htransfers
  have hlen := selectedLow_length op.list
  obtain ⟨u, hload⟩ := loadRegs_ok (is := selectedLow op.list) (s := s.setBank .usr) fun j hj => hpass j (by omega)
  obtain ⟨hpc, hcpsr, hmem, hrest⟩ := loadRegs_usr_keeps hload
  obtain ⟨hpc', hregs, hcpsr', hmem', hrest'⟩ := advance_writes (u.setBank s.bankSel) .primary
  refine ⟨_, (exec_ldmUser_eq_next hc).mpr ⟨⟨h15, hrn, hl⟩, _, u, hload, rfl⟩,
    loadedIn_of_regsKept (loadedIn_usr_of_loadRegs hload) hregs, ?_,
    loadFrame_of_regsKept (loadFrame_usr_of_loadRegs hload) hregs, hcpsr'.trans hcpsr, memKept_trans hmem hmem',
    restKept_trans hrest hrest'⟩
  rw [hpc', hpc]
  rfl

/-! ### The base in the list -/

/-- What LDM and LDM_RET leave when they answer: after the loads only register 15's copy is written (43 R201, R203). -/
theorem loads_of_exec_eq_next {c : Cond} {op : BlockOp} {s t : State} (hc : condPassed s.cpsr c = true)
    (h : exec (.ldm c op) s = .next t ∨ exec (.ldmRet c op) s = .next t) :
    op.rn ≠ 15 ∧ ∃ a u, loadWithWriteback op (blockAdr op s) s = .ok a u ∧ RegsKept u t [15] := by
  obtain h | h := h <;> obtain ⟨-, st, v, hv, rfl⟩ := exec_eq_next.mp h
  · obtain ⟨⟨hrn, -⟩, a, u, hload, ⟨-, rfl, rfl⟩ | ⟨-, -, rfl, rfl⟩⟩ := (handleLdm_eq_ok hc).mp hv
    · obtain ⟨-, hregs, -⟩ := advance_writes v .primary
      exact ⟨hrn, a, v, hload, hregs⟩
    · obtain ⟨-, -, hregs, -⟩ := exchange_writes u (s.wordAt a)
      exact ⟨hrn, a, u, hload, hregs⟩
  · obtain ⟨⟨hrn, -⟩, rfl, k, b, a, u, -, hload, -, -, rfl⟩ := (handleLdmRet_eq_ok hc).mp hv
    exact ⟨hrn, a, u, hload, regsKept_branch ((u.setCpsr s.spsr[k.val]).setBank b) _⟩

/-- Settles O30: the base is a listed register below 15, so it is among the registers loaded. A copy of its number that is not
the user one is no register's user copy (`visibleNumber_phys`). -/
theorem loadedBaseWinsOverWriteback : Obligations.LoadedBaseWinsOverWriteback := by
  intro c op s t hc hlisted
  refine ⟨fun h => ?_, fun h => ?_⟩
  · obtain ⟨hrn, a, u, hload, hregs⟩ := loads_of_exec_eq_next hc h
    obtain ⟨hloaded, -⟩ := loads_then_pc hload hrn hregs
    exact hloaded op.rn ((ne_fifteen_iff_lt _).mp hrn) hlisted
  · obtain ⟨⟨-, hrn, -⟩, a, u, hload, rfl⟩ := (exec_ldmUser_eq_next hc).mp h
    obtain ⟨-, hregs, -⟩ := advance_writes (u.setBank s.bankSel) .primary
    have hloaded := loadedIn_of_regsKept (loadedIn_usr_of_loadRegs hload) hregs
    have hframe := loadFrame_of_regsKept (loadFrame_usr_of_loadRegs hload) hregs
    refine ⟨hloaded op.rn ((ne_fifteen_iff_lt _).mp hrn) hlisted, fun hcopy => ?_⟩
    refine hframe _ (phys_ne_fifteen hrn _) (fun i _ e => hcopy ?_) Bool.noConfusion
    have hi : op.rn = i := by rw [← visibleNumber_phys s.bankSel op.rn, e, visibleNumber_phys]
    rw [e, hi]

/-! ### STM and STM_USER -/

/-- The stores of a transfer that runs to its end finish, in any bank: `v` is any state with the same memory unit. -/
theorem storeRegs_of_transfers {op : BlockOp} {s v : State} (h : Transfers op s) (hv : v.unadmitted = s.unadmitted) :
    ∃ u, storeRegs (selectedRegs op.list) (blockAdr op s).1 v = .ok () u :=
  storeRegs_ok fun j hj => by
    rw [dataFault_congr hv]
    exact dataFault_of_transfers h j hj

/-- A byte outside the window of `n` words is outside each of them, at any start, modulo 2^32. -/
theorem far_of_outside_window {x start : Word} {n j : Nat} (hx : ¬ (x - start).toNat < 4 * n) (hj : j < n) (hn : n ≤ 16) :
    ¬ (x - (start + fourTimes j)).toNat < 4 := by
  simp only [fourTimes]
  bv_omega

/-- After the stores each listed register's value in the bank they run in is at its place, and the memory outside the window is
as before (43 R204, R211); `t` is any state with the memory they leave. -/
theorem storedFrom_of_storeRegs {op : BlockOp} {s v u t : State} (hm : Memory.wf s.mem = true)
    (h : storeRegs (selectedRegs op.list) (blockAdr op s).1 v = .ok () u) (hv : v.mem = s.mem) (ht : t.mem = u.mem) :
    StoredFrom (fun i => v.reg i) op s t := by
  have hwf : Memory.wf v.mem = true := by rw [hv, hm]
  refine ⟨fun i hlisted => ?_, fun x hx => ?_⟩
  · obtain ⟨hj, hi⟩ := List.getElem?_eq_some_iff.mp (selectedRegs_getElem? hlisted)
    rw [wordAt_of_mem_eq ht, startOf_eq_blockAdr]
    exact (storeRegs_stored h hwf (selectedRegs_length _) _ hj).trans (congrArg v.reg hi)
  · rw [startOf_eq_blockAdr, count_eq_popcount] at hx
    have hfar : u.byteAt x = v.byteAt x :=
      storeRegs_far h hwf fun j hj => far_of_outside_window hx hj (selectedRegs_length _)
    rw [memKept_of_mem_eq ht x, hfar, memKept_of_mem_eq hv x]

/-- The stores leave the register file, CPSR and all state but the memory. -/
theorem storeRegs_keeps {is : List RegIdx} {a : Word} {s u : State} (h : storeRegs is a s = .ok () u) :
    RegsKept s u [] ∧ u.cpsr = s.cpsr ∧ RestKept s u := by
  obtain ⟨hregs, hbank, hcpsr, hspsr, hhalted, hranges⟩ := storeRegs_frame h
  exact ⟨fun p _ => by rw [State.physReg, hregs, State.physReg], hcpsr, hbank, hspsr, hhalted, hranges⟩

theorem reg_writeback_base {op : BlockOp} (hw : op.w = true) (wb : Word) (s : State) : (writeback op wb s).reg op.rn = wb := by
  rw [writeback, if_pos hw, reg_setReg_self]

/-- The writeback is a write of the base's copy or none (43 R204). -/
theorem regsKept_writeback (op : BlockOp) (wb : Word) (s : State) :
    RegsKept s (writeback op wb s) (if op.w then [phys s.bankSel op.rn] else []) := by
  intro p hp
  rw [physReg_writeback, if_neg]
  rintro ⟨hw, rfl⟩
  simp [hw] at hp

theorem reg_fifteen_writeback {op : BlockOp} (hrn : op.rn ≠ 15) (wb : Word) (s : State) :
    (writeback op wb s).reg 15 = s.reg 15 := by
  rw [reg_fifteen, reg_fifteen, physReg_writeback, if_neg fun e => phys_ne_fifteen hrn _ e.2.symm]

/-- STM run to its end: the stores, then the writeback, then the advance (43 R204, R208). -/
theorem exec_stm_of_transfers {c : Cond} {op : BlockOp} {s : State} (hc : condPassed s.cpsr c = true) (h : Transfers op s) :
    ∃ u, storeRegs (selectedRegs op.list) (blockAdr op s).1 s = .ok () u ∧
      exec (.stm c op) s = .next ((writeback op (writebackOf op s) u).advance .primary) := by
  obtain ⟨u, hstore⟩ := storeRegs_of_transfers h rfl
  obtain ⟨hrn, hl, -⟩ := h
  rw [writebackOf_eq_blockAdr]
  have hhandle : handle (.stm c op) s = .ok .continues (writeback op (blockAdr op s).2 u) :=
    (handleStm_eq_ok hc).mpr ⟨⟨hrn, hl⟩, rfl, u, hstore, rfl⟩
  exact ⟨u, hstore, exec_eq_next.mpr ⟨rfl, _, _, hhandle, rfl⟩⟩

/-- STM_USER run to its end: the stores in the user bank, the selection put back, and the advance (43 R205). -/
theorem exec_stmUser_of_transfers {c : Cond} {op : BlockOp} {s : State} (hc : condPassed s.cpsr c = true)
    (h : Transfers op s) :
    ∃ u, storeRegs (selectedRegs op.list) (blockAdr op s).1 (s.setBank .usr) = .ok () u ∧
      exec (.stmUser c op) s = .next ((u.setBank s.bankSel).advance .primary) := by
  obtain ⟨u, hstore⟩ := storeRegs_of_transfers (v := s.setBank .usr) h rfl
  obtain ⟨hrn, hl, -⟩ := h
  have hhandle : handle (.stmUser c op) s = .ok .continues (u.setBank s.bankSel) :=
    (handleStmUser_eq_ok hc).mpr ⟨⟨hrn, hl⟩, rfl, u, hstore, rfl⟩
  exact ⟨u, hstore, exec_eq_next.mpr ⟨rfl, _, _, hhandle, rfl⟩⟩

/-- Settles O33: every store reads a register file that no store changes; the base's copy is written after them, and register 15
by the advance. -/
theorem stmStoresTheListedRegisters : Obligations.StmStoresTheListedRegisters := by
  intro c op s hm hc htransfers
  obtain ⟨u, hstore, hexec⟩ := exec_stm_of_transfers hc htransfers
  obtain ⟨hrn, -⟩ := htransfers
  obtain ⟨hregs, hcpsr, hrest⟩ := storeRegs_keeps hstore
  obtain ⟨hpc', hregs', hcpsr', -, hrest'⟩ := advance_writes (writeback op (writebackOf op s) u) .primary
  have hwritten := regsKept_writeback op (writebackOf op s) u
  rw [hrest.1] at hwritten
  refine ⟨_, hexec, storedFrom_of_storeRegs hm hstore rfl (writeback_mem op _ u), fun hw => ?_, ?_, fun p hp => ?_, ?_, ?_⟩
  · rw [State.advance, reg_setReg_ne _ hrn, reg_writeback_base hw]
  · rw [hpc', reg_fifteen_writeback hrn, reg_fifteen, hregs 15 List.not_mem_nil, reg_fifteen]
    rfl
  · obtain ⟨h15, hbase⟩ := not_or.mp (List.mem_cons.not.mp hp)
    rw [physReg_of_regsKept hregs' h15, hwritten p hbase, hregs p List.not_mem_nil]
  · rw [hcpsr', writeback_cpsr, hcpsr]
  · refine restKept_trans hrest (restKept_trans ?_ hrest')
    exact ⟨writeback_bankSel .., writeback_spsr .., writeback_halted .., writeback_unadmitted ..⟩

/-- Settles O34: in the user bank the visible registers are the user copies, and after the stores only the advance writes a
register. -/
theorem stmUserStoresTheUserBank : Obligations.StmUserStoresTheUserBank := by
  intro c op s hm hc htransfers
  obtain ⟨u, hstore, hexec⟩ := exec_stmUser_of_transfers hc htransfers
  obtain ⟨hregs, hcpsr, -, hspsr, hhalted, hranges⟩ := storeRegs_keeps hstore
  obtain ⟨hpc', hregs', hcpsr', -, hrest'⟩ := advance_writes (u.setBank s.bankSel) .primary
  have hrest : RestKept s (u.setBank s.bankSel) := ⟨rfl, hspsr, hhalted, hranges⟩
  refine ⟨_, hexec, storedFrom_of_storeRegs hm hstore rfl rfl, ?_, fun p hp => ?_, hcpsr'.trans hcpsr,
    restKept_trans hrest hrest'⟩
  · rw [hpc', reg_fifteen, physReg_setBank, hregs 15 List.not_mem_nil, physReg_setBank, reg_fifteen]
    rfl
  · rw [hregs' p hp, physReg_setBank, hregs p List.not_mem_nil, physReg_setBank]

/-! ### Forms that stop before any transfer -/

/-- The common skeleton of the five transfers: the skip rule, then the refused forms, then what the form does (43 R200). -/
theorem handle_eq_conditional_blockStart {i : Instr} {c : Cond} {op : BlockOp} (h : blockForm i = some (c, op)) (s : State) :
    ∃ transfer, handle i s = conditional c s fun s => (blockStart op s).bind transfer := by
  cases i with
  | ldm c' op' | ldmUser c' op' | ldmRet c' op' | stm c' op' | stmUser c' op' => cases h; exact ⟨_, rfl⟩
  | _ => cases h

theorem handle_of_refused {i : Instr} {c : Cond} {op : BlockOp} {s : State} (hb : blockForm i = some (c, op))
    (hc : condPassed s.cpsr c = true) (h : op.rn = 15 ∨ op.list = 0#16) : handle i s = .stop .unpredictableForm s := by
  obtain ⟨transfer, hhandle⟩ := handle_eq_conditional_blockStart hb s
  rw [hhandle, conditional_pass _ hc, blockStart_refused h, Res.bind_stop]

/-- Settles O35: the forms are refused by the common skeleton, ahead of what a transfer does of its own. -/
theorem refusedFormsAreUnpredictable : Obligations.RefusedFormsAreUnpredictable := by
  intro i c op s hwf hb hc h
  refine ⟨by rw [exec_of_wellFormed hwf, handle_of_refused hb hc h, complete_stop], ?_⟩
  refine List.eq_nil_iff_forall_not_mem.mpr fun r hr => ?_
  obtain ⟨-, -, -, hreturn⟩ := blockForm_of_mem_dataRequests hr
  rw [dataRequests_of_blockForm hb hreturn, blockRequests_of_refused h] at hr
  exact List.not_mem_nil hr

theorem list_ne_zero_of_fifteen {list : BitVec 16} (h : list.getLsbD 15 = true) : list ≠ 0#16 := by
  rintro rfl
  cases h

/-- LDM_RET of a form that is not refused stops in a mode without an SPSR entry (43 R203). -/
theorem handleLdmRet_without_spsr {c : Cond} {op : BlockOp} {s : State} (hc : condPassed s.cpsr c = true) (hrn : op.rn ≠ 15)
    (hl : op.list ≠ 0#16) (hk : spsrIndex (psrMode s.cpsr) = none) : handleLdmRet c op s = .stop .noSpsr s := by
  rw [handleLdmRet, conditional_pass _ hc, blockStart_ok hrn hl, Res.bind_ok, hk]

/-- Settles O36: User and System have no SPSR entry (10 R33), and the entry is looked up before the loads and before their
requests. -/
theorem ldmRetWithoutSpsrStops : Obligations.LdmRetWithoutSpsrStops := by
  intro c op s hc hrn h15 hmode
  obtain ⟨-, hk⟩ := (bankOfModeIsTheTable (psrMode s.cpsr) s).1 hmode
  have hhandle : handle (.ldmRet c op) s = .stop .noSpsr s :=
    handleLdmRet_without_spsr hc hrn (list_ne_zero_of_fifteen h15) hk
  refine ⟨by rw [exec_of_wellFormed (i := .ldmRet c op) h15, hhandle, complete_stop], ?_⟩
  rw [dataRequests, hk]
  rfl

end Sys2Proof.Machine
end

section
/-! PROOFS. The dispatcher (44): the fetch address (R241), what a step does with the value it fetched, a descriptor's or not
(R240, R242, R244, R246), the program-counter update (R243), and the placing of a word (log 8). -/

namespace Sys2Proof.Machine

open Sys2Proof.Claims

/-! ### The fetch address and the program-counter update -/

/-- Settles O14: the offset is that of the current `T`, and neither check of the fetch nor its read writes. -/
theorem fetchAddressIsThePcViewMinusTheOffset : Obligations.FetchAddressIsThePcViewMinusTheOffset := by
  intro s
  refine ⟨by rw [State.fetchAddr, pcOffset_eq_offsetFor], fun code u h => ?_⟩
  obtain ⟨-, -, -, hu⟩ := fetch_eq_ok.mp h
  exact hu

/-- The fetch address is a function of the PC-view and CPSR (44 R241). -/
theorem fetchAddr_congr {s t : State} (hpc : t.physReg 15 = s.physReg 15) (hcpsr : t.cpsr = s.cpsr) :
    t.fetchAddr = s.fetchAddr := by
  rw [State.fetchAddr, State.fetchAddr, reg_fifteen, reg_fifteen, hpc, State.pcOffset, State.pcOffset, State.instrSet,
    State.instrSet, hcpsr]

/-- The advance moves the fetch address by the width, the pipeline offset being as it was (44 R243). -/
theorem fetchAddr_advance (s : State) (iset : InstrSet) : (s.advance iset).fetchAddr = s.fetchAddr + widthFor iset := by
  obtain ⟨hpc, -, hcpsr, -⟩ := advance_writes s iset
  apply fetchAddr_of_pc
  rw [hpc, hcpsr, State.fetchAddr, pcOffset_eq_offsetFor]
  bv_omega

theorem advance_eq_setReg (s : State) (iset : InstrSet) : s.advance iset = s.setReg 15 (s.reg 15 + widthFor iset) := by
  rw [State.advance, widthOf_eq_widthFor]

/-- Settles O15: `exec` completes the handler's result, and a handler that continues has left the PC-view and CPSR, from which
the fetch address is computed (`handle_continues`), whichever set the instruction is of. -/
theorem statusDecidesTheAdvance : Obligations.StatusDecidesTheAdvance := by
  intro i s hwf
  rw [exec_of_wellFormed hwf]
  refine ⟨fun t h => ?_, fun t h => ?_, fun c t h => ?_⟩
  · obtain ⟨hpc, hcpsr⟩ := handle_continues h
    rw [← advance_eq_setReg, h, complete_ok, retire_continues, fetchAddr_advance, fetchAddr_congr hpc hcpsr]
    exact ⟨rfl, fun _ => rfl⟩
  · rw [h, complete_ok, retire_branched]
  · rw [h, complete_stop]

/-! ### What a step does with the value it fetched -/

section Fetched

variable {p : Params} {s : State} {code : Code} (hh : s.halted = none) (hf : fetch s = .ok code s)

include hh hf

/-- A step on a value that has a descriptor is that descriptor's `exec` (44 R240, R242). -/
theorem stepWith_of_described {i : Instr} (hd : describe p.refuseCondNv p.decode code = some i) : stepWith p s = exec i s := by
  simp only [stepWith, hh, hf, hd]

/-- A step on a value without a descriptor is the external handler's result, or the stop, in the set fetched (44 R240). -/
theorem step_of_undescribed (hd : describe p.refuseCondNv p.decode code = none) :
    stepWith p s = complete (codeSet code) (unknownOrExt p code s) ∧ cycle p s = settle (codeSet code) (unknownOrExt p code s) := by
  simp only [stepWith, cycle, hh, hf, hd, and_self]

end Fetched

theorem unknownOrExt_of_run {p : Params} {code : Code} {s : State} {run : ExtRun} (h : handlerRun p code s = some run) :
    unknownOrExt p code s = runExt run s := by
  rw [unknownOrExt, h]

theorem unknownOrExt_of_none {p : Params} {code : Code} {s : State} (h : handlerRun p code s = none) :
    unknownOrExt p code s = .stop .unknownTag s := by
  rw [unknownOrExt, h, handleUnknown]

theorem settle_stop (iset : InstrSet) (c : Fault) (s : State) : settle iset (.stop c s) = { s with halted := some c } := rfl

theorem handlerRun_of_ext {p : Params} {h : ExtHandler} (hp : p.ext = some h) (code : Code) (s : State) :
    handlerRun p code s = h (codeSet code) (codeRaw code) s.extRegs := by
  rw [handlerRun, hp, Option.bind_some]

/-- No handler's run: there is no handler, or it declines (44 R246 (f)). -/
theorem handlerRun_eq_none {p : Params} {code : Code} {s : State}
    (h : p.ext = none ∨ ∃ h, p.ext = some h ∧ h (codeSet code) (codeRaw code) s.extRegs = none) :
    handlerRun p code s = none := by
  obtain hnone | ⟨h, hp, hdeclines⟩ := h
  · rw [handlerRun, hnone, Option.bind_none]
  · rw [handlerRun_of_ext hp, hdeclines]

/-- The fetch is of the width of the set in force (20 R63). -/
theorem fetchWidth_instrSet (s : State) : fetchWidth s.instrSet = if psrT s.cpsr then .half else .word := by
  cases hT : psrT s.cpsr with
  | false => rw [instrSet_of_clear_T hT]; rfl
  | true => rw [instrSet_of_set_T hT]; rfl

/-- Settles O46: the dispatcher's `Unknown` stops with the state as fetched, and no request follows the fetch. -/
theorem unknownTagStopsWithoutEffect : Obligations.UnknownTagStopsWithoutEffect := by
  intro p s u code hh hf hd hext
  obtain ⟨hal, ha, hcode, rfl⟩ := fetch_eq_ok.mp hf
  have hrun : handlerRun p code u = none := handlerRun_eq_none hext
  obtain ⟨hstep, hcycle⟩ := step_of_undescribed hh hf hd
  rw [unknownOrExt_of_none hrun] at hstep hcycle
  refine ⟨hstep, hcycle, ?_⟩
  rw [stepRequests_of_aligned p hh hal, if_pos ha, ← hcode, valueRequests_of_unknown hd hrun, fetchWidth_instrSet]

/-- Settles O48: the handler's result is completed as any other (44 R243), in the set of the value fetched. -/
theorem externalHandlerIsDispatched : Obligations.ExternalHandlerIsDispatched := by
  intro p h run s t u code hh hf hd hp hrun
  obtain ⟨-, -, -, rfl⟩ := fetch_eq_ok.mp hf
  obtain ⟨hstep, hcycle⟩ := step_of_undescribed hh hf hd
  rw [unknownOrExt_of_run ((handlerRun_of_ext hp code u).trans hrun)] at hstep hcycle
  refine ⟨fun hr => ?_, fun hr => ?_, fun c hr => ?_⟩
  · rw [hstep, hr, complete_ok, retire_continues, advance_eq_setReg]
  · rw [hstep, hr, complete_ok, retire_branched]
  · rw [hstep, hcycle, hr, complete_stop, settle_stop]
    exact ⟨rfl, rfl⟩

/-! ### An external handler and the invariant -/

theorem retire_keeps_inv {s : State} (hs : s.Inv) (iset : InstrSet) (st : Status) : (retire iset st s).Inv := by
  obtain ⟨hbank, hcpsr, -, hhalted, hmem, -⟩ := retire_frame s iset st
  rwa [State.Inv, hbank, hcpsr, hhalted, hmem]

/-- A run that ends with the bank following the mode keeps the invariant: it has no way to the latch, and its writes are the
port's (44 R246 (b), (e)). -/
theorem runExt_keeps_inv {run : ExtRun} {s t : State} {st : Status} (hs : s.Inv)
    (hends : run.Ends (fun u => bankOf (psrMode u.cpsr) = some u.bankSel) (fun u => bankOf (psrMode u.cpsr) = some u.bankSel)
      s.extRegs)
    (h : runExt run s = .ok st t) : t.Inv := by
  obtain ⟨-, hwf, hhalted⟩ := hs
  obtain ⟨thalted, -, twf, -⟩ := runExt_frame h
  refine ⟨?_, twf hwf, thalted.trans hhalted⟩
  obtain ⟨-, hbank⟩ | ⟨u, a, -, hbank, rfl⟩ := runExt_ends hends h
  · exact hbank
  · exact hbank

/-- Settles O55: an instruction keeps the invariant whatever the decoder, and so does a run by clause (e) of its contract. -/
theorem contractedHandlerKeepsTheInvariant : Obligations.ContractedHandlerKeepsTheInvariant := by
  intro p condOf s t hs hcontract h
  obtain ⟨-, code, -, ⟨i, -, hexec⟩ | ⟨-, hext⟩⟩ := stepWith_eq_next.mp h
  · exact exec_keeps_inv hs hexec
  · obtain ⟨st, u, hu, rfl⟩ := complete_eq_next.mp hext
    apply retire_keeps_inv
    cases hrun : handlerRun p code s with
    | none => rw [unknownOrExt_of_none hrun] at hu; cases hu
    | some run =>
      rw [unknownOrExt_of_run hrun] at hu
      obtain ⟨handler, hp, hrun⟩ := Option.bind_eq_some_iff.mp hrun
      exact runExt_keeps_inv hs ((hcontract handler hp).bank _ _ _ _ hrun hs.1) hu

/-! ### The step at the defaults -/

theorem exec_of_reserved {i : Instr} (h : i.reserved = true) (s : State) : exec i s = .fault .unknownTag := by
  cases i with
  | tReservedCond14 low => exact (reservedRowsAreUnknownTags low s).1
  | tReservedCond15 low => exact (reservedRowsAreUnknownTags low s).2
  | _ => cases h

/-- The step is `exec` of what the value fetched decodes to: a reserved row has no descriptor, and both its `exec` and a step
that no handler takes over stop with UnknownTag (30 R106, log 11). -/
theorem step_of_decoded {s : State} {code : Code} {i : Instr} (hh : s.halted = none) (hf : fetch s = .ok code s)
    (hd : decodeCode false code = .ok i) : step s = exec i s := by
  cases hr : i.reserved with
  | false => exact stepWith_of_described hh hf (describe_spec.mpr ⟨hd, hr⟩)
  | true =>
    have hnone : describe Config.refuseCondNv specDecoder code = none := by
      refine Option.eq_none_iff_forall_ne_some.mpr fun j hj => ?_
      obtain ⟨hj, hjr⟩ := describe_spec.mp hj
      cases hd.symm.trans hj
      exact Bool.noConfusion (hr.symm.trans hjr)
    rw [exec_of_reserved hr, step, (step_of_undescribed hh hf hnone).1, unknownOrExt_of_none (handlerRun_eq_none (.inl rfl)),
      complete_stop]

/-- What is decoded of four bytes is decoded of their word (20 R79, 30 R109). -/
theorem decodePrimary_of_decodeBytes {refuse : Bool} {b0 b1 b2 b3 : Byte} {rest rest' : List Byte} {i : Instr}
    (h : decodeBytes refuse .primary (b0 :: b1 :: b2 :: b3 :: rest) = .ok (i, rest')) :
    decodePrimary refuse (wordOfBytes b0 b1 b2 b3) = .ok i := by
  cases hd : decodePrimary refuse (wordOfBytes b0 b1 b2 b3) with
  | ok j => simp only [decodeBytes, hd] at h; cases h; rfl
  | error r => simp only [decodeBytes, hd] at h; cases h

/-- What is decoded of two bytes is decoded of their halfword (20 R79, 30 R109). -/
theorem decodeCompressed_of_decodeBytes {refuse : Bool} {b0 b1 : Byte} {rest rest' : List Byte} {i : Instr}
    (h : decodeBytes refuse .compressed (b0 :: b1 :: rest) = .ok (i, rest')) :
    decodeCompressed (halfOfBytes b0 b1) = .ok i := by
  cases hd : decodeCompressed (halfOfBytes b0 b1) with
  | ok j => simp only [decodeBytes, hd] at h; cases h; rfl
  | error r => simp only [decodeBytes, hd] at h; cases h

/-- Settles O44: the fetch reads the bytes as the value of the set in force; for other parameters `describe` says what is run. -/
theorem stepRunsTheDecodedInstruction : Obligations.StepRunsTheDecodedInstruction := by
  intro s i hh
  refine ⟨fun hT hal ha hd => ?_, fun hT hal ha hd => ?_, fun p code u hf hd => ?_⟩
  · have hf : fetch s = .ok (.word (s.wordAt s.fetchAddr)) s := by
      rw [fetch_eq_ok, instrSet_of_clear_T hT]
      exact ⟨aligned4_eq_true.mpr hal, ha, rfl, rfl⟩
    exact step_of_decoded hh hf (decodePrimary_of_decodeBytes hd)
  · have hf : fetch s = .ok (.half (s.halfAt s.fetchAddr)) s := by
      rw [fetch_eq_ok, instrSet_of_set_T hT]
      exact ⟨aligned2_eq_true.mpr hal, ha, rfl, rfl⟩
    exact step_of_decoded hh hf (decodeCompressed_of_decodeBytes hd)
  · obtain ⟨-, -, -, rfl⟩ := fetch_eq_ok.mp hf
    exact stepWith_of_described hh hf hd

/-! ### The placing of a word (log 8) -/

/-- A halfword stored is the halfword read back (20 R79). -/
theorem halfAt_of_stored {s t : State} {a : Word} {v : Half} (hm : Memory.wf s.mem = true)
    (h : t.mem = memWriteBytes s.mem a (codeBytes (.half v))) : t.halfAt a = v := by
  have hm' := memWrite_wf hm a (v.extractLsb' 0 8)
  have hne : a ≠ a + 1#32 := by bv_omega
  simp only [State.halfAt, State.byteAt, h, codeBytes, memWriteBytes, memRead_memWrite hm', memRead_memWrite hm,
    BitVec.toNat_inj, hne, if_true, if_false, halfOfBytes_extract]

theorem fetchAligned_alignFor (iset : InstrSet) (a : Word) : fetchAligned iset (alignFor iset a) = true := by
  cases iset with
  | primary => exact aligned4_eq_true.mpr (by rw [alignFor, BitVec.extractLsb'_and]; exact BitVec.and_zero)
  | compressed => exact aligned2_eq_true.mpr (by rw [alignFor, BitVec.getLsbD_and]; exact Bool.and_false _)

section Placed

variable (code : Code) (s : State)

theorem halted_placeCode : (placeCode code s).halted = none := rfl

theorem mem_placeCode : (placeCode code s).mem = memWriteBytes s.mem (alignFor (codeSet code) s.fetchAddr) (codeBytes code) := rfl

theorem psrT_placeCode : psrT (placeCode code s).cpsr = (codeSet code == .compressed) := by
  rw [placeCode, State.setReg_cpsr, psrT, getLsbD_psrSetT, if_pos rfl]

theorem instrSet_placeCode : (placeCode code s).instrSet = codeSet code := by
  cases code with
  | word raw => exact instrSet_of_clear_T (psrT_placeCode (.word raw) s)
  | half raw => exact instrSet_of_set_T (psrT_placeCode (.half raw) s)

theorem fetchAddr_placeCode : (placeCode code s).fetchAddr = alignFor (codeSet code) s.fetchAddr := by
  rw [State.fetchAddr, State.pcOffset, instrSet_placeCode, placeCode, reg_setReg_self, BitVec.add_sub_cancel]

/-- The ranges left have no byte of the fetch. -/
theorem admits_placeCode :
    (placeCode code s).admits (alignFor (codeSet code) s.fetchAddr) (fetchBytes (codeSet code)) = true := by
  refine List.all_eq_true.mpr fun k hk => ?_
  rw [Bool.not_eq_true', List.any_eq_false]
  intro r hr
  obtain ⟨-, hfree⟩ := List.mem_filter.mp hr
  simpa using List.all_eq_true.mp hfree k hk

theorem codeAt_placeCode (hm : Memory.wf s.mem = true) :
    (placeCode code s).codeAt (codeSet code) (alignFor (codeSet code) s.fetchAddr) = code := by
  cases code with
  | word raw =>
    exact congrArg Code.word ((wordAt_of_mem_eq (mem_placeCode (.word raw) s) _).trans (wordAt_setWord_self hm _ raw))
  | half raw => exact congrArg Code.half (halfAt_of_stored hm (mem_placeCode (.half raw) s))

/-- The next step fetches exactly the value placed. -/
theorem fetch_placeCode (hm : Memory.wf s.mem = true) : fetch (placeCode code s) = .ok code (placeCode code s) := by
  rw [fetch_eq_ok, instrSet_placeCode, fetchAddr_placeCode, codeAt_placeCode code s hm]
  exact ⟨fetchAligned_alignFor _ _, admits_placeCode code s, rfl, rfl⟩

end Placed

/-- What the decoder reads from a table row's bits is what their value decodes to. -/
theorem decodeCode_of_decodeTableWord {nbits w : Nat} {i : Instr} (h : decodeTableWord nbits w = some i) :
    decodeCode false (tableCode nbits w) = .ok i := by
  cases hd : decodeBytes Config.refuseCondNv (codeSet (tableCode nbits w)) (codeBytes (tableCode nbits w)) with
  | error r => simp [decodeTableWord, hd] at h
  | ok ir =>
    obtain ⟨j, rest⟩ := ir
    simp only [decodeTableWord, hd, Option.some.injEq] at h
    subst h
    generalize tableCode nbits w = code at hd ⊢
    cases code with
    | word raw =>
      have hraw := decodePrimary_of_decodeBytes hd
      rwa [wordOfBytes_extract] at hraw
    | half raw =>
      have hraw := decodeCompressed_of_decodeBytes hd
      rwa [halfOfBytes_extract] at hraw

/-- Settles O51: the step fetches the value placed and runs what it decodes to. -/
theorem placedWordRunsNext : Obligations.PlacedWordRunsNext := by
  intro s nbits w i hm h
  exact step_of_decoded (halted_placeCode _ s) (fetch_placeCode _ s hm) (decodeCode_of_decodeTableWord h)

end Sys2Proof.Machine
end

section
/-! PROOFS. Exceptions and stops (60): the outcome of a step and the latch, a stopped machine and the end of a run (R260, R262,
44 R245), and what User mode cannot change (R274). -/

namespace Sys2Proof.Machine

open Sys2Proof.Claims

/-! ### The outcome of a step and the latch -/

/-- The two readings of a handler's result agree on an answer (44 R243). -/
theorem settle_of_complete_next {iset : InstrSet} {r : Res Status} {t : State} (h : complete iset r = .next t) :
    settle iset r = t := by
  obtain ⟨st, u, rfl, rfl⟩ := complete_eq_next.mp h
  rw [settle_ok]

/-- The two readings of a handler's result agree on a stop: its cause is latched (60 R260). -/
theorem settle_halted_of_complete_fault {iset : InstrSet} {r : Res Status} {c : Fault} (h : complete iset r = .fault c) :
    (settle iset r).halted = some c := by
  obtain ⟨u, rfl⟩ := complete_eq_fault.mp h
  rw [settle_stop]

/-- Unless the machine has stopped, the outcome of a step and the state it leaves are two readings of one result: the stop of
the fetch, the handler's of the descriptor, or what a value without a descriptor gives (44 R240). -/
theorem step_reads_one_result (p : Params) {s : State} (hh : s.halted = none) :
    ∃ iset r, stepWith p s = complete iset r ∧ cycle p s = settle iset r := by
  cases hf : fetch s with
  | stop c u =>
    refine ⟨s.instrSet, .stop c u, ?_, ?_⟩
    · simp only [stepWith, hh, hf, complete_stop]
    · simp only [cycle, hh, hf, settle_stop]
  | ok code u =>
    obtain ⟨-, -, -, rfl⟩ := fetch_eq_ok.mp hf
    cases hd : describe p.refuseCondNv p.decode code with
    | none => exact ⟨codeSet code, unknownOrExt p code u, step_of_undescribed hh hf hd⟩
    | some i =>
      obtain ⟨-, hwf, -⟩ := describe_eq_some.mp hd
      refine ⟨i.instrSet, handle i u, ?_, ?_⟩
      · rw [stepWith_of_described hh hf hd, exec_of_wellFormed hwf]
      · simp only [cycle, hh, hf, hd]

/-- A stopped machine has no step: it answers its cause and stays as it is (60 R260, log 9). -/
theorem step_of_halted (p : Params) {s : State} {c : Fault} (h : s.halted = some c) :
    stepWith p s = .fault c ∧ cycle p s = s := by
  simp only [stepWith, cycle, h, and_self]

/-- Settles O50: the step and the latch read one result, and the run loop tests the latch before STOP. -/
theorem fatalStopLatchesForEver : Obligations.FatalStopLatchesForEver := by
  intro p s
  refine ⟨fun hh => ?_, fun c hc => ?_, fun hh hstop => ?_, fun hh hstop => ?_⟩
  · obtain ⟨iset, r, hstep, hcycle⟩ := step_reads_one_result p hh
    rw [hstep, hcycle]
    exact ⟨fun _ => settle_of_complete_next, fun _ => settle_halted_of_complete_fault⟩
  · obtain ⟨hstep, hcycle⟩ := step_of_halted p hc
    have hhalted : s.halted.isSome = true := by rw [hc, Option.isSome_some]
    exact ⟨hstep, hcycle, fun n => runFor_stays n (.inl hhalted), finished_of_halted hc⟩
  · have hfin : finished p s = true := finished_eq_true.mpr ⟨hh, hstop⟩
    exact ⟨hfin, fun n => runFor_stays n (.inr hfin)⟩
  · have hfin : finished p s = false := by rw [finished, hstop, Bool.and_false]
    exact ⟨hfin, fun n => runFor_succ n hh hfin⟩

/-! ### User mode -/

/-- User mode has no SPSR entry (10 R33, R36). -/
theorem spsrIndex_of_user {s : State} (h : psrMode s.cpsr = 0b10000#5) : spsrIndex (psrMode s.cpsr) = none := by
  rw [h]
  rfl

/-- Settles O57: of the cases of `CpsrEffect`, the one that writes CPSR whole needs the SPSR entry User mode has not; the others
write `T` alone and leave the bank selection. -/
theorem userModeCannotChangeItsMode : Obligations.UserModeCannotChangeItsMode := by
  intro i s t huser h
  obtain ⟨-, -, -, -, st, ⟨hbank, hsame | ⟨-, -, -, b, hT⟩⟩ | ⟨c, op, k, -, -, -, hk, -, -⟩⟩ := exec_effect h
  · exact ⟨fun n _ => by rw [hsame], hbank⟩
  · exact ⟨cpsrKeptButT_of_psrSetT hT, hbank⟩
  · rw [spsrIndex_of_user huser] at hk
    cases hk

end Sys2Proof.Machine
end

section
/-! PROOFS. Reset (70): the register file, the status register and the first fetch that `Reset` leaves, over every INIT (R290,
R291, R293). -/

namespace Sys2Proof.Machine

open Sys2Proof.Claims

/-- Of the register file `Reset` writes register 15 alone (70 R290). -/
theorem physReg_launch (entry : Word) (init : State) (p : PhysReg) :
    (State.launch entry init).physReg p = if p = 15 then entry + 8#32 else init.physReg p :=
  physReg_setPhys init 15 p (entry + 8#32)

theorem reg_fifteen_launch (entry : Word) (init : State) : (State.launch entry init).reg 15 = entry + 8#32 := by
  rw [reg_fifteen, physReg_launch, if_pos rfl]

theorem regsKept_launch (entry : Word) (init : State) : RegsKept init (State.launch entry init) [15] := by
  intro p hp
  rw [physReg_launch, if_neg (by simpa using hp)]

/-- The low byte of CPSR is reset's own, the bits above it are INIT's (70 R290, R293). -/
theorem getLsbD_launch_cpsr (entry : Word) (init : State) (n : Nat) :
    (State.launch entry init).cpsr.getLsbD n = if n < 8 then (0xD3#8).getLsbD n else init.cpsr.getLsbD n := by
  rw [State.launch_cpsr, BitVec.getLsbD_append]
  by_cases hlow : n < 8
  · rw [if_pos hlow, if_pos hlow]
  · have hindex : 8 + (n - 8) = n := by omega
    rw [if_neg hlow, if_neg hlow, BitVec.getLsbD_extractLsb', hindex]
    by_cases hword : n < 32
    · rw [decide_eq_true (by omega : n - 8 < 24), Bool.true_and]
    · rw [BitVec.getLsbD_of_ge _ _ (Nat.le_of_not_lt hword), Bool.and_false]

theorem psrT_launch (entry : Word) (init : State) : psrT (State.launch entry init).cpsr = false := by
  rw [psrT, getLsbD_launch_cpsr]
  rfl

theorem psrI_launch (entry : Word) (init : State) : psrI (State.launch entry init).cpsr = true := by
  rw [psrI, getLsbD_launch_cpsr]
  rfl

theorem psrF_launch (entry : Word) (init : State) : psrF (State.launch entry init).cpsr = true := by
  rw [psrF, getLsbD_launch_cpsr]
  rfl

/-- The first fetch is from the entry address: `T = 0`, so it takes off the primary set's offset, the 8 that reset put on
(70 R291). -/
theorem fetchAddr_launch (entry : Word) (init : State) : (State.launch entry init).fetchAddr = entry := by
  have hoffset : (State.launch entry init).pcOffset = 8#32 := by
    rw [State.pcOffset, instrSet_of_clear_T (psrT_launch entry init)]
    rfl
  rw [State.fetchAddr, reg_fifteen_launch, hoffset, BitVec.add_sub_cancel]

/-- Settles O52: `Reset` writes register 15, the low byte of CPSR, the bank selection and the latch, and nothing else of INIT. -/
theorem resetSetsWhatTheRuleSays : Obligations.ResetSetsWhatTheRuleSays := by
  intro entry init
  refine ⟨reg_fifteen_launch entry init, fetchAddr_launch entry init, psrMode_launch entry init, psrT_launch entry init,
    psrI_launch entry init, psrF_launch entry init, State.launch_bankSel entry init, State.launch_halted entry init,
    regsKept_launch entry init, fun n hn => ?_, State.launch_spsr entry init, State.launch_mem entry init,
    State.launch_unadmitted entry init⟩
  rw [getLsbD_launch_cpsr, if_neg (Nat.not_lt.mpr hn)]

end Sys2Proof.Machine
end

section
/-! PROOFS. The words of the spec's test vectors (95 2.3 to 2.6): each is the value of its instruction, so it decodes to it. -/

namespace Sys2Proof.Machine

/-- The decoder reads a well-formed instruction from a table row's bits when they stand for the instruction's value (30 R103). -/
theorem decodeTableWord_of_encode {nbits w : Nat} {i : Instr} (hwf : i.wellFormed = true) (henc : encode i = tableCode nbits w) :
    decodeTableWord nbits w = some i := by
  have hbytes := decodeBytes_codeBytes (decodeCode_encode hwf) []
  rw [List.append_nil, henc] at hbytes
  simp only [decodeTableWord, Config.refuseCondNv, hbytes]

/-- Settles O4: each word is the value the formats of 30 R93 to R99 and R112 give its instruction, which is well-formed. -/
theorem sampleWordsDecodeAsTheSpecSays : Obligations.SampleWordsDecodeAsTheSpecSays := by
  refine ⟨?_, ?_, ?_, ?_, ?_, ?_, ?_⟩ <;> exact decodeTableWord_of_encode (by decide) (by decide)

end Sys2Proof.Machine
end
